-- ==== Sys2Proof/Word.lean ====
section
/-!
DEFINITION. The word types of the block (00_scope.md R9, R10; 30_encoding.md R101): the source fixes only the
widths, bit 0 is the least significant bit of every value.
-/

namespace Sys2Proof

/-- A payload, a latched register number or a chip datum (`u8`, R9 `PAYLOAD_W`, R33, R182). -/
abbrev Byte := BitVec 8

/-- A signed 16-bit sample held as its bit pattern `as_u16` (`s16`, R9 `SAMPLE_W`, R11). -/
abbrev Sample := BitVec 16

/-- A RawBusWord (`u32`, R9 `WORD_W`, R110). -/
abbrev BusWord := BitVec 32

/-- A step word, bits 39:32 the operation code and bits 31:0 the operand (R101). -/
abbrev StepWord := BitVec 40

end Sys2Proof
end

