-- ==== Sys2Proof/Config.lean ====
section
/-!
DEFINITION. What an implementation fixes (00_scope.md R9) and every value the spec leaves free. A free value is an
opaque constant without a body: nothing can be proved about which value it is. The configuration itself is plain
data, carried by the state and written by no step (20_memory.md R85; log 3).
-/

namespace Sys2Proof

/-- The seven device families in the order that gives them the ids 0 to 6 (R3, D22). -/
inductive Family where
  | covox | stereoOnOne | dss | ftl | opl2lpt | tandy | gameBlaster
deriving DecidableEq, Repr, Inhabited

/-- Who issues a step word (R14, R320). The harness of R100 acts for the owner of whatever it issues (log 11). -/
inductive Agent where
  | harness | synthesisLoop | outputLoop | host | sink | user
deriving DecidableEq, Repr, Inhabited

/-- The two spaces whose entries can be unwritten (R26, R43, R70). -/
inductive Space where
  | qbuf | blk
deriving DecidableEq, Repr, Inhabited

/-- How many samples `CM.SAMPLE` returns per tick: `NCH[f]`, 1 or 2 (R9, D15). -/
inductive Channels where
  | mono | stereo
deriving DecidableEq, Repr, Inhabited

/-- Which chip model a family is configured with: the external one of R180 (uninterpreted), or the reference stub
of R190 that the test vectors use. -/
inductive ChipModel where
  | external | stub
deriving DecidableEq, Repr, Inhabited

/-- One generator sub-unit of a chip: the code of its registers and inner state, and its clock, the number of output
samples it has been advanced by (R183, R185; log 4). -/
structure ChipUnit where
  code : Nat
  samples : Nat
deriving DecidableEq, Repr, Inhabited

/-- The value of the opaque type `ChipState[f]` (R180, R34), one sub-unit beside the other. A family without sub-units
uses `unit0` only (R185; log 4). -/
structure ChipUnits where
  unit0 : ChipUnit
  unit1 : ChipUnit
deriving DecidableEq, Repr, Inhabited

/-- `LAYOUT[f]`: the bit positions of the payload and of the two control bits in a RawBusWord (R110). -/
structure Layout where
  dataLsb : Nat
  ctlA : Nat
  ctlB : Nat
deriving DecidableEq, Repr, Inhabited

/-- The parameters of one family (R9). -/
structure FamilyConfig where
  /-- `HAS_SL[f]`: the family uses the queue and the Synthesis Loop (D6). -/
  hasSL : Bool
  /-- `HOLD[f]`: a synchronous family holds its last value (D12). -/
  hold : Bool
  /-- `NCH[f]` (D15). -/
  nch : Channels
  /-- `CAP[f]`: the capacity passed to `Q.INIT` at load (D31). -/
  cap : BitVec 32
  /-- `LAYOUT[f]` (D3). -/
  layout : Layout
  /-- `POL_A[f]` (D4). -/
  polA : Bool
  /-- `POL_B[f]` (D4). -/
  polB : Bool
  /-- the chip model functions of the family (R180, R190). -/
  chip : ChipModel
deriving DecidableEq, Repr, Inhabited

/-- The configuration of R9. `NDEV` is the length of `devTab`, so that `DEVTAB` is total on `0 .. NDEV - 1`. -/
structure Config where
  /-- `C_MAX`: the hard maximum of a queue capacity (D8, OPEN). -/
  cMax : Nat
  /-- `DEVTAB`: the family at each device-table index (R49, D22). -/
  devTab : List Family
  /-- `BLOCK_FRAMES` (D33, OPEN). -/
  blockFrames : Nat
  /-- `FS`: the output sample rate, which no rule reads (D33, OPEN). -/
  fs : Nat
  covox : FamilyConfig
  stereoOnOne : FamilyConfig
  dss : FamilyConfig
  ftl : FamilyConfig
  opl2lpt : FamilyConfig
  tandy : FamilyConfig
  gameBlaster : FamilyConfig
deriving DecidableEq, Repr, Inhabited

/-- The step word the free schedule offers at its `n`th turn (R285, D35; log 1). -/
opaque Config.scheduleWord : Nat → StepWord

/-- The agent that issues the free schedule's `n`th step word (R285, R320; log 1). -/
opaque Config.scheduleIssuer : Nat → Agent

/-- The `n`th free Boolean draw: acquisition or chip construction succeeds (R56, R181, D21; log 2). -/
opaque Config.drawBool : Nat → Bool

/-- The `n`th free byte draw: an initial latched register (R33, D13; log 2). -/
opaque Config.drawByte : Nat → Byte

/-- What a read of an entry that nothing has written gives: no rule makes such a read in a state reached from reset
(R26, R43), so this stands only where a state was made by hand (log 8). -/
opaque Config.unwritten : Space → Nat → Sample

/-- `SL.cur_reg[0]` after reset, which must not be assumed (R341, R33; log 6). -/
opaque Config.resetCurReg0 : Byte

/-- `SL.cur_reg[1]` after reset, which must not be assumed (R341, R33; log 6). -/
opaque Config.resetCurReg1 : Byte

/-- `OL.tmp_l` after reset, which must not be assumed (R341, R42; log 7). -/
opaque Config.resetTmpL : Sample

/-- The code of a sub-unit (true: the second) of `cm_create[f]()`, the external chip model's (R180). -/
opaque Config.cmCreate : Family → Bool → Nat

/-- The new code of the one sub-unit that `cm_write[f](c, a, d)` may change (R180, R185). -/
opaque Config.cmWrite : Family → ChipUnits → BitVec 16 → Byte → Nat

/-- The code of a sub-unit (true: the second) after it is advanced by one sample, `cm_sample[f](c)` (R180). -/
opaque Config.cmNext : Family → Bool → ChipUnits → Nat

/-- The values `cm_sample[f](c)` returns, the left one first; a family with `NCH = 1` uses the first (R180, R183). -/
opaque Config.cmOut : Family → ChipUnits → Sample × Sample

/-- The target address of a data write for a family that R116 and R210 give no address format, from the payload and
the unit (`chan` is ignored, R210); it matters only where a configuration sets `HAS_SL` for a DAC family (log 14). -/
opaque Config.applyAddress : Family → Byte → Bool → BitVec 16

/-- The sample that `SL.PUSH` pushes where none is pending, which happens only in a state made by hand (R212); the
argument counts the free values taken (log 17). -/
opaque Config.absentSample : Nat → Sample

/-- `C_MAX` is OPEN: a power of two, at least 4 (D8). This is its base-two logarithm less 2 (log 3). -/
opaque Config.openCMaxLog : Nat

/-- `CAP[f]` is OPEN, a power of two from 1 to `C_MAX` (R9, D31). This is the base-two logarithm asked for; see
`Config.openCap` (log 3). -/
opaque Config.openCapLog : Family → Nat

/-- `BLOCK_FRAMES` is OPEN, at least 1 (D33). This is its predecessor (log 3). -/
opaque Config.openBlockFramesPred : Nat

/-- `FS` is OPEN (D33; log 3). -/
opaque Config.openFs : Nat

/-- `C_MAX` at reset (D8; log 3). -/
def Config.openCMax : Nat := 2 ^ (Config.openCMaxLog + 2)

/-- `CAP[f]` at reset: a power of two that is a `u32` and not above `C_MAX` (R9, D31; log 3). -/
def Config.openCap (f : Family) : BitVec 32 :=
  BitVec.ofNat 32 (2 ^ min (Config.openCapLog f) (min 31 (Config.openCMaxLog + 2)))

/-- The default layout: data in bits 31:24, `ctl_a` bit 23, `ctl_b` bit 22 (R110, D3). -/
def Layout.default : Layout := { dataLsb := 24, ctlA := 23, ctlB := 22 }

/-- The default parameters of a family with the given `HAS_SL` and `NCH` (R9, D3, D4). `HOLD` is true for the four
synchronous families (D12). DESIGN CHOICE, log 3: `HOLD` is true also for the three SL families, for which D12 gives no
default, and the chip model is the external one. -/
def FamilyConfig.default (f : Family) (sl : Bool) (n : Channels) : FamilyConfig :=
  { hasSL := sl, hold := true, nch := n, cap := Config.openCap f, layout := Layout.default,
    polA := false, polB := false, chip := .external }

/-- The configuration the machine is reset with: the defaults of R9, D6 and D22, `NCH` of the SL families from D15, and
the uninterpreted constants above for what the spec leaves OPEN (log 3). DESIGN CHOICE, log 3: `NCH` is 1 for the four
DAC families, for which D15 gives none; it is read only where a configuration sets their `HAS_SL`. -/
def Config.default : Config :=
  { cMax := Config.openCMax
    devTab := [.covox, .stereoOnOne, .dss, .ftl, .opl2lpt, .tandy, .gameBlaster]
    blockFrames := Config.openBlockFramesPred + 1
    fs := Config.openFs
    covox := FamilyConfig.default .covox false .mono
    stereoOnOne := FamilyConfig.default .stereoOnOne false .mono
    dss := FamilyConfig.default .dss false .mono
    ftl := FamilyConfig.default .ftl false .mono
    opl2lpt := FamilyConfig.default .opl2lpt true .mono
    tandy := FamilyConfig.default .tandy true .mono
    gameBlaster := FamilyConfig.default .gameBlaster true .stereo }

/-- The device-table index used at startup and after a swap failure (R9 `DEFAULT_INDEX`, R48, R78). -/
def Config.defaultIndex : Nat := 0

end Sys2Proof
end

