-- ==== Sys2Proof/Machine/State.lean ====
section
/-!
DEFINITION. The state of the block as plain data: the record `{SQ, SL, DEV, DM, OL, ERR}` and the external
collaborators `{BSR, SINK}` (10_state.md R20; `HS` has no state, R58), and the model's own two fields: the
configuration (log 3) and the environment (log 1, 2, 11, 15).
-/

namespace Sys2Proof.Machine

/-- One written entry of an element-addressed space: its index and its `s16` (R70). -/
abbrev Entry := Nat × Sample

/-- The written entries of `QBUF` or `BLK`, indices strictly rising. An unlisted index is unwritten: it holds no
value (R26, R43; log 8). -/
abbrev Memory := List Entry

/-- `SQ`, the Bounded Sample Queue (R21). -/
structure Queue where
  /-- `SQ.cap`: `none` while not initialised. -/
  cap : Option Nat
  /-- `SQ.head`: the entry the next push writes. -/
  head : Nat
  /-- `SQ.tail`: the entry the next pop reads. -/
  tail : Nat
  /-- `SQ.full`: 1 iff `head == tail` means full (R22, C1). -/
  full : Bool
  /-- `SQ.buf`. -/
  buf : Memory
deriving DecidableEq, Repr

/-- `SL.state` (R30). The stop signal is the state `stopping`. -/
inductive LoopState where
  | stopped | running | stopping
deriving DecidableEq, Repr

/-- `SL.phase`, the Synthesis Loop's program counter (R31). -/
inductive LoopPhase where
  | head | drain | sample | stall | push
deriving DecidableEq, Repr

/-- A value of `ChipState[fam]` (R34, R180), with the family it belongs to (log 5). -/
structure Chip where
  fam : Family
  units : ChipUnits
deriving DecidableEq, Repr

/-- `SL`, the Synthesis Loop (R30 to R35). -/
structure Synth where
  state : LoopState
  phase : LoopPhase
  /-- `SL.fam` (R32). -/
  fam : Family
  /-- `SL.cur_reg[0]` (R33). -/
  curReg0 : Byte
  /-- `SL.cur_reg[1]` (R33). -/
  curReg1 : Byte
  /-- `SL.chip`: `none` or the one chip model (R34). -/
  chip : Option Chip
  /-- `SL.pend`: produced and not yet pushed, in push order (R35). -/
  pend : List Sample
deriving DecidableEq, Repr

/-- `DEV.handle`: `none` or `acquired` (R38). -/
inductive Handle where
  | none | acquired
deriving DecidableEq, Repr

/-- `DEV`, what the loaded device owns (R38, R45, R46). -/
structure Device where
  handle : Handle
  /-- `DEV.sampling_en`. -/
  samplingEn : Bool
  /-- `DEV.pins_init`. -/
  pinsInit : Bool
  /-- `DEV.dec_fam` (R46). -/
  decFam : Family
  /-- `DEV.hold_l` (R45). -/
  holdL : Sample
  /-- `DEV.hold_r` (R45). -/
  holdR : Sample
deriving DecidableEq, Repr

/-- `DM`, the device manager (R47, R48): device-table indices. -/
structure Manager where
  current : Option Nat
  wanted : Nat
deriving DecidableEq, Repr

/-- `OL.phase`, the Output Loop's program counter (R40). -/
inductive OutPhase where
  | swap | getblk | fill | submit | fault
deriving DecidableEq, Repr

/-- `OL`, the Output Loop (R40 to R43). -/
structure OutLoop where
  phase : OutPhase
  /-- `OL.frame` (R41). -/
  frame : Nat
  /-- `OL.chan`: true (1) when the left sample is popped and the right one is not (R42). -/
  chan : Bool
  /-- `OL.tmp_l` (R42). -/
  tmpL : Sample
  /-- `OL.blk` (R43). -/
  blk : Memory
deriving DecidableEq, Repr

/-- `ERR`, the latched error cause (R50). -/
structure ErrState where
  /-- `ERR.cause`, the code of R300. -/
  cause : BitVec 3
  /-- `ERR.swap_failed`, sticky. -/
  swapFailed : Bool
deriving DecidableEq, Repr

/-- `BSR`, the bus-sampling resource: the words captured and not yet taken, oldest first (R55). -/
structure BusSampler where
  pending : List BusWord
deriving DecidableEq, Repr

/-- `SINK`, the audio sink (R57). -/
structure Sink where
  credit : Nat
  out : List (List Sample)
deriving DecidableEq, Repr

/-- What a step that is not enabled waits for, named by what lifts it (R11, D16). -/
inductive Hold where
  /-- `SL.STALL` with the queue full and nothing pending: lifted by `Q.POP`, `HOST.STROBE` or `DEV.UNLOAD` (R205). -/
  | queueFull
  /-- a queue-fed `DEV.GEN` on an empty queue: lifted by `SL.PUSH` (R244). -/
  | queueEmpty
  /-- `DEV.LOAD` while the old loop runs: lifted by `SL.EXIT` (R231). -/
  | loopNotStopped
  /-- `OL.GETBLK` without a writable block: lifted by `SINK.READY` (R265). -/
  | noCredit
deriving DecidableEq, Repr

/-- What the last step word reported (log 15). An operation returns the result record `{ok, val}` of R102, with `val`
absent where its rule gives none; an agent step returns nothing. -/
inductive Report where
  /-- an agent step ran, or no step has run since reset -/
  | nothing
  /-- an operation returned `{ok, val}` -/
  | returned (ok : Bool) (val : Option (BitVec 32))
  /-- `DEV.GEN` ended after its left pop (R245) -/
  | unfinished
  /-- the step holds: nothing changed, and `h` says what lifts it -/
  | held (h : Hold)
  /-- the step is not enabled in this state: nothing changed (log 9) -/
  | notEnabled
deriving DecidableEq, Repr

/-- A step word with the agent that issues it (R100, R320). -/
structure Slot where
  issuer : Agent
  word : StepWord
deriving DecidableEq, Repr

/-- The environment: what the spec makes parameters of the step relation (R20: the schedule and the draws), and the
report of the last step. The model's own (log 1, 2, 11, 15). -/
structure Env where
  /-- step words placed by a harness and not yet run -/
  trace : List Slot
  /-- how many step words the free schedule has given -/
  turn : Nat
  /-- Boolean draws placed by a harness -/
  bools : List Bool
  /-- byte draws placed by a harness -/
  bytes : List Byte
  /-- how many free draws and other free values were taken (log 2, 17) -/
  drawn : Nat
  /-- who issues the step being run -/
  issuer : Agent
  report : Report
deriving DecidableEq, Repr

/-- The whole state (R20). -/
structure State where
  sq : Queue
  sl : Synth
  dev : Device
  dm : Manager
  ol : OutLoop
  err : ErrState
  bsr : BusSampler
  sink : Sink
  /-- the configuration, written by no step (R85; log 3) -/
  cfg : Config
  env : Env
deriving DecidableEq, Repr

/-- Why the machine stops with a fault. -/
inductive Fault where
  /-- Raised by an `OL.*` step in `OL.phase == FAULT`: no Output Loop step is enabled there and the state is never
  final (R267, R305). Safe: the block does nothing there either (log 10). -/
  | outputLoopStuck
deriving DecidableEq, Repr

/-- Why the model does not admit a step word: no state changes and the run is marked refused (R11, R306). -/
inductive Refusal where
  /-- Raised by an arm of `exec` without a meaning. Safe; no arm is left so. -/
  | notModelled (mnemonic : String)
  /-- `IllegalOp`: raised by `step` where the word's `op` is not in R103 (R120). Safe. -/
  | illegalOp
  /-- `BadIndex`: raised by `DEV.LOAD` and `CM.CREATE` (R121, R181, R231). Safe. -/
  | badIndex
  /-- `QueueUninit`: raised by a queue operation before any `Q.INIT` (R132 to R135, D9). Safe. -/
  | queueUninit
  /-- `NotOwner`: raised where the issuer does not own the step word (R320), by a harness's push beside an active
  producer, its pop or `DEV.GEN` beside an active consumer, and by `Q.INIT` beside either (R350, U19). Safe (log 11). -/
  | notOwner
  /-- Raised where the precondition that the spec writes for `CM.*`, `DEV.LOAD`, `DEV.UNLOAD` or `DEV.GEN` does not
  hold (R121; 95_test_vectors.md section 3.3), also when an agent step invokes one that can fail. Safe (log 12). -/
  | precondition
deriving DecidableEq, Repr

/-- The machine right after reset (R340): every value is the one 10_state.md gives; the three registers of R341 hold
uninterpreted constants (log 6, 7), and the configuration is `Config.default` (log 3). -/
def State.reset : State :=
  { sq := { cap := none, head := 0, tail := 0, full := false, buf := [] }
    sl := { state := .stopped, phase := .head, fam := .covox, curReg0 := Config.resetCurReg0,
            curReg1 := Config.resetCurReg1, chip := none, pend := [] }
    dev := { handle := .none, samplingEn := false, pinsInit := false, decFam := .covox, holdL := 0#16, holdR := 0#16 }
    dm := { current := none, wanted := Config.defaultIndex }
    ol := { phase := .swap, frame := 0, chan := false, tmpL := Config.resetTmpL, blk := [] }
    err := { cause := 0#3, swapFailed := false }
    bsr := { pending := [] }
    sink := { credit := 0, out := [] }
    cfg := Config.default
    env := { trace := [], turn := 0, bools := [], bytes := [], drawn := 0, issuer := .harness, report := .nothing } }

/-- The state with another `SQ`. -/
def State.setSq (s : State) (x : Queue) : State := { s with sq := x }

/-- The state with another `SL`. -/
def State.setSl (s : State) (x : Synth) : State := { s with sl := x }

/-- The state with another `DEV`. -/
def State.setDev (s : State) (x : Device) : State := { s with dev := x }

/-- The state with another `DM`. -/
def State.setDm (s : State) (x : Manager) : State := { s with dm := x }

/-- The state with another `OL`. -/
def State.setOl (s : State) (x : OutLoop) : State := { s with ol := x }

/-- The state with another `ERR`. -/
def State.setErr (s : State) (x : ErrState) : State := { s with err := x }

/-- The state with another `BSR`. -/
def State.setBsr (s : State) (x : BusSampler) : State := { s with bsr := x }

/-- The state with another `SINK`. -/
def State.setSink (s : State) (x : Sink) : State := { s with sink := x }

/-- The state with another environment. -/
def State.setEnv (s : State) (x : Env) : State := { s with env := x }

/-- The state with another report of the last step (log 15). -/
def State.setReport (s : State) (r : Report) : State := s.setEnv { s.env with report := r }

end Sys2Proof.Machine
end

