-- ==== Sys2Proof/Machine/Operands.lean ====
section
/-!
DEFINITION. The operand forms: family ids and the configuration entries they select (00_scope.md R3, R9), the fields
of a RawBusWord (30_encoding.md R110 to R112), the seven bus decoders as pure functions (41_bus_decoder.md), the
decoded write and result packings (R102, R103, R115), the chip target addresses (R116) and the 8-bit DAC conversion
(44_device.md R240).
-/

namespace Sys2Proof.Machine

/-- The family with an id (R3); 7 and above are no family. -/
def familyOfId (n : Nat) : Option Family :=
  match n with
  | 0 => some .covox
  | 1 => some .stereoOnOne
  | 2 => some .dss
  | 3 => some .ftl
  | 4 => some .opl2lpt
  | 5 => some .tandy
  | 6 => some .gameBlaster
  | _ => none

/-- The id of a family (R3). -/
def familyId : Family → Nat
  | .covox => 0
  | .stereoOnOne => 1
  | .dss => 2
  | .ftl => 3
  | .opl2lpt => 4
  | .tandy => 5
  | .gameBlaster => 6

/-- The parameters of one family (R9). -/
def familyConfig (c : Config) : Family → FamilyConfig
  | .covox => c.covox
  | .stereoOnOne => c.stereoOnOne
  | .dss => c.dss
  | .ftl => c.ftl
  | .opl2lpt => c.opl2lpt
  | .tandy => c.tandy
  | .gameBlaster => c.gameBlaster

/-- `NDEV` (R9). -/
def nDev (c : Config) : Nat := c.devTab.length

/-- `DEVTAB[i]` (R49, R70); none outside `0 .. NDEV - 1`. -/
def devTabEntry (c : Config) (i : Nat) : Option Family := c.devTab[i]?

/-- `HAS_SL[f]` (R9). -/
def hasSL (c : Config) (f : Family) : Bool := (familyConfig c f).hasSL

/-- `payload(w) = w[data_lsb + 7 : data_lsb]` (R111); no bit reversal and no inversion (R112). -/
def payloadField (l : Layout) (w : BusWord) : Byte := w.extractLsb' l.dataLsb 8

/-- `A(w) = w[ctl_a] xor POL_A[f]` (R111). -/
def controlA (fc : FamilyConfig) (w : BusWord) : Bool := w.getLsbD fc.layout.ctlA ^^ fc.polA

/-- `B(w) = w[ctl_b] xor POL_B[f]` (R111). -/
def controlB (fc : FamilyConfig) (w : BusWord) : Bool := w.getLsbD fc.layout.ctlB ^^ fc.polB

/-- The two classes of a decoded write (R115). -/
inductive WriteKind where
  | data | latch
deriving DecidableEq, Repr

/-- A decoded write (R115); `chan` is true for the right output channel. -/
structure BusWrite where
  payload : Byte
  kind : WriteKind
  unit : Bool
  chan : Bool
deriving DecidableEq, Repr

/-- `DEC[Covox]` (R153): every word is one DATA write, both control bits ignored. -/
def busCovox (fc : FamilyConfig) (w : BusWord) : BusWrite :=
  { payload := payloadField fc.layout w, kind := .data, unit := false, chan := false }

/-- `DEC[StereoOnOne]` (R154): `A` selects the output channel. -/
def busStereo1 (fc : FamilyConfig) (w : BusWord) : BusWrite :=
  { payload := payloadField fc.layout w, kind := .data, unit := false, chan := controlA fc w }

/-- `DEC[DSS]` (R155). -/
def busDss (fc : FamilyConfig) (w : BusWord) : BusWrite :=
  { payload := payloadField fc.layout w, kind := .data, unit := false, chan := false }

/-- `DEC[FTL]` (R156). -/
def busFtl (fc : FamilyConfig) (w : BusWord) : BusWrite :=
  { payload := payloadField fc.layout w, kind := .data, unit := false, chan := false }

/-- `DEC[OPL2LPT]` (R157): `A` selects LATCH or DATA. -/
def busOpl2 (fc : FamilyConfig) (w : BusWord) : BusWrite :=
  { payload := payloadField fc.layout w, kind := if controlA fc w then .latch else .data, unit := false, chan := false }

/-- `DEC[Tandy]` (R158): no address phase at this level. -/
def busTandy (fc : FamilyConfig) (w : BusWord) : BusWrite :=
  { payload := payloadField fc.layout w, kind := .data, unit := false, chan := false }

/-- `DEC[GameBlaster]` (R159): `A` selects LATCH or DATA, `B` the sub-unit. -/
def busCms (fc : FamilyConfig) (w : BusWord) : BusWrite :=
  { payload := payloadField fc.layout w, kind := if controlA fc w then .latch else .data, unit := controlB fc w, chan := false }

/-- `DEC[f]` (R160). -/
def busDecode (c : Config) (f : Family) (w : BusWord) : BusWrite :=
  match f with
  | .covox => busCovox c.covox w
  | .stereoOnOne => busStereo1 c.stereoOnOne w
  | .dss => busDss c.dss w
  | .ftl => busFtl c.ftl w
  | .opl2lpt => busOpl2 c.opl2lpt w
  | .tandy => busTandy c.tandy w
  | .gameBlaster => busCms c.gameBlaster w

/-- One bit. -/
def bit1 (b : Bool) : BitVec 1 := BitVec.ofBool b

/-- The kind bit of a decoded write: 0 = DATA, 1 = LATCH (R115). -/
def kindBit : WriteKind → BitVec 1
  | .data => 0#1
  | .latch => 1#1

/-- `{0[31:11], chan[10], unit[9], kind[8], payload[7:0]}` (R115). -/
def packWrite (d : BusWrite) : BitVec 32 :=
  0#21 ++ (bit1 d.chan ++ (bit1 d.unit ++ (kindBit d.kind ++ d.payload)))

/-- `val[15:0] = v` with the upper half 0 (R103, R133; 95_test_vectors.md section 3.1). -/
def packOne (v : Sample) : BitVec 32 := v.setWidth 32

/-- `val[15:0]` the first or left sample, `val[31:16]` the second or right one (R103, R183). -/
def packTwo (l r : Sample) : BitVec 32 := r ++ l

/-- The target address of a data write to the OPL2LPT chip: the register index, zero extended (R116, R210). -/
def opl2Address (reg : Byte) : BitVec 16 := reg.setWidth 16

/-- The target address of a write to the Tandy chip (R116, D32). -/
def tandyAddress : BitVec 16 := 0#16

/-- `{0[15:9], reg[7:0], u}`: the target address of a data write to sub-unit `u` of GameBlaster (R116, R210). -/
def cmsAddress (reg : Byte) (u : Bool) : BitVec 16 := 0#7 ++ (reg ++ bit1 u)

/-- `conv8(p) = as_s16((zext_16(p) - 128) mod 2^16) << 8` (R240). -/
def conv8 (p : Byte) : Sample := (p.setWidth 16 - 128#16) <<< 8

end Sys2Proof.Machine
end

