-- ==== Sys2Proof/Machine/Flags.lean ====
section
/-!
DEFINITION. The flags of 10_state.md R59 and every condition the rules test: `SQ.full`, the empty reading, the stop
signal, swap pending, the pending-word test; the numeric codes of the sequencing registers (R30, R31, R40) and of the
error causes (60_exceptions.md R300).
-/

namespace Sys2Proof.Machine

/-- `is_full = (full == 1)` (R24, R134). -/
def Queue.isFull (q : Queue) : Bool := q.full

/-- `is_empty = (head == tail and full == 0)` (R24, R135). -/
def Queue.isEmpty (q : Queue) : Bool := decide (q.head = q.tail) && !q.full

/-- The occupancy `count = C if full == 1 else (head - tail) mod C` (R23 (c)); 0 while not initialised. -/
def Queue.count (q : Queue) : Nat :=
  match q.cap with
  | none => 0
  | some c => if q.full then c else (q.head + c - q.tail) % c

/-- The stop signal: `SL.state == STOPPING` (R30). -/
def stopSignal (s : State) : Bool := decide (s.sl.state = .stopping)

/-- A swap is pending iff `DM.current != some(DM.wanted)` (R49). -/
def swapPending (s : State) : Bool := decide (s.dm.current ≠ some s.dm.wanted)

/-- `pending`: `DEV.handle == acquired and BSR.pending != []` (43_synthesis_loop.md, template; R354). -/
def wordPending (s : State) : Bool := decide (s.dev.handle = .acquired) && !s.bsr.pending.isEmpty

/-- The condition ProtocolStall: `SL.phase == STALL and SQ.full == 1`; nothing records it (R303). -/
def protocolStall (s : State) : Bool := decide (s.sl.phase = .stall) && s.sq.full

/-- The error causes (R300). -/
inductive Cause where
  | noCause | resourceExhausted | protocolStall | queueUnderrun | deviceSwapFailure | initFailure
deriving DecidableEq, Repr

/-- The code `raise` writes to `ERR.cause` (R300, D26). -/
def causeCode : Cause → BitVec 3
  | .noCause => 0#3
  | .resourceExhausted => 1#3
  | .protocolStall => 2#3
  | .queueUnderrun => 3#3
  | .deviceSwapFailure => 4#3
  | .initFailure => 5#3

/-- The encoding of `SL.state`; 3 is never produced (R30). -/
def loopStateCode : LoopState → BitVec 2
  | .stopped => 0#2
  | .running => 1#2
  | .stopping => 2#2

/-- The encoding of `SL.phase` (R31). -/
def loopPhaseCode : LoopPhase → BitVec 3
  | .head => 0#3
  | .drain => 1#3
  | .sample => 2#3
  | .stall => 3#3
  | .push => 4#3

/-- The encoding of `OL.phase` (R40). -/
def outPhaseCode : OutPhase → BitVec 3
  | .swap => 0#3
  | .getblk => 1#3
  | .fill => 2#3
  | .submit => 3#3
  | .fault => 4#3

/-- `cap == 0 or (cap & (cap - 1)) != 0 or cap > C_MAX` does not hold (R131): the capacity is admitted. -/
def capAdmitted (cMax : Nat) (cap : BitVec 32) : Bool :=
  decide (cap ≠ 0#32) && decide (cap &&& (cap - 1#32) = 0#32) && decide (cap.toNat ≤ cMax)

end Sys2Proof.Machine
end

