-- ==== Sys2Proof/Syntax.lean ====
section
/-!
DEFINITION. The operations and agent steps of the block, one constructor for each row of spec/opcode_table.json
(30_encoding.md R100, R103). Fields are the operand fields of `arg`; bits of `arg` an operation does not use are no
part of it (R101).
-/

namespace Sys2Proof

/-- The 32 step words of R103. -/
inductive Instr where
  /-- `Q.INIT cap` (R131) -/
  | qInit (cap : BitVec 32)
  /-- `Q.PUSH s` (R132) -/
  | qPush (sample : Sample)
  /-- `Q.POP` (R133) -/
  | qPop
  /-- `Q.ISFULL` (R134) -/
  | qIsFull
  /-- `Q.ISEMPTY` (R135) -/
  | qIsEmpty
  /-- `DEC.COVOX w` (R153) -/
  | decCovox (w : BusWord)
  /-- `DEC.STEREO1 w` (R154) -/
  | decStereo1 (w : BusWord)
  /-- `DEC.DSS w` (R155) -/
  | decDss (w : BusWord)
  /-- `DEC.FTL w` (R156) -/
  | decFtl (w : BusWord)
  /-- `DEC.OPL2 w` (R157) -/
  | decOpl2 (w : BusWord)
  /-- `DEC.TANDY w` (R158) -/
  | decTandy (w : BusWord)
  /-- `DEC.CMS w` (R159) -/
  | decCms (w : BusWord)
  /-- `CM.CREATE f` (R181) -/
  | cmCreate (family : BitVec 3)
  /-- `CM.WRITE a, d` (R182) -/
  | cmWrite (a : BitVec 16) (d : Byte)
  /-- `CM.SAMPLE` (R183) -/
  | cmSample
  /-- `CM.DESTROY` (R184) -/
  | cmDestroy
  /-- `SL.HEAD` (R201) -/
  | slHead
  /-- `SL.DRAIN` (R202) -/
  | slDrain
  /-- `SL.SAMPLE` (R203) -/
  | slSample
  /-- `SL.STALL` (R204, R205) -/
  | slStall
  /-- `SL.PUSH` (R206) -/
  | slPush
  /-- `SL.EXIT` (R207) -/
  | slExit
  /-- `DEV.LOAD i` (R231 to R234) -/
  | devLoad (index : BitVec 3)
  /-- `DEV.UNLOAD` (R236) -/
  | devUnload
  /-- `DEV.GEN` (R241 to R245) -/
  | devGen
  /-- `OL.SWAPCHK` (R261 to R263) -/
  | olSwapchk
  /-- `OL.GETBLK` (R265) -/
  | olGetblk
  /-- `OL.FRAME` (R264) -/
  | olFrame
  /-- `OL.SUBMIT` (R266) -/
  | olSubmit
  /-- `HOST.STROBE w` (R281) -/
  | hostStrobe (w : BusWord)
  /-- `SINK.READY` (R282) -/
  | sinkReady
  /-- `HS.REQUEST i` (R283) -/
  | hsRequest (index : BitVec 3)
deriving DecidableEq, Repr

end Sys2Proof
end

