-- ==== Sys2Proof/Machine/Ops.lean ====
section
/-!
DEFINITION. The named operations over the storage spaces and registers that the meanings share: element reads and
writes (20_memory.md R70), the queue (40_queue.md), the draws (00_scope.md R11), raising an error cause
(60_exceptions.md R300, R310), the pending-word list (10_state.md R55), the chip model (42_chip_adapter.md), applying
a decoded write (43_synthesis_loop.md R210), load, unload and generate (44_device.md), ownership (60_exceptions.md
R320), and how a step word ends.
-/

namespace Sys2Proof.Machine

/-- How a step or operation ends before it is made an outcome: done with a result; it holds (R11); it is not enabled
(log 9); it is not admitted (`refuse`, R11); or the machine is stuck in a fault (R305). -/
inductive Act (α : Type) where
  | done (a : α)
  | held (h : Hold)
  | notEnabled
  | refused (r : Refusal)
  | stuck (f : Fault)
deriving DecidableEq, Repr

/-- Go on with the result of an operation; every other ending ends the caller too (log 16). -/
def Act.bind {α β : Type} (x : Act α) (k : α → Act β) : Act β :=
  match x with
  | .done a => k a
  | .held h => .held h
  | .notEnabled => .notEnabled
  | .refused r => .refused r
  | .stuck f => .stuck f

/-! ### Element-addressed spaces (R70) -/

/-- The value of a written entry, none for an unwritten one (R26, R43). -/
def Memory.read? : Memory → Nat → Option Sample
  | [], _ => none
  | (a, x) :: rest, k => if a = k then some x else Memory.read? rest k

/-- `MemWrite(space, k, 16, v)` (R11, R70): one whole element; the indices stay strictly rising. -/
def Memory.write : Memory → Nat → Sample → Memory
  | [], k, v => [(k, v)]
  | (a, x) :: rest, k, v =>
    if k < a then (k, v) :: (a, x) :: rest
    else if k = a then (k, v) :: rest
    else (a, x) :: Memory.write rest k v

/-- The canonical form: indices strictly rising. An unlisted index has no value, so no entry can repeat what it
reads as. -/
abbrev Memory.wf (m : Memory) : Prop := m.Pairwise (fun p q => p.1 < q.1)

/-- `MemRead(space, k, 16)` (R11, R70). The rules read no unwritten entry (R26, R43); such a read, possible only from
a state made by hand, gives a free value (log 8). -/
def Memory.read (sp : Space) (m : Memory) (k : Nat) : Sample :=
  match m.read? k with
  | some v => v
  | none => Config.unwritten sp k

/-! ### The Bounded Sample Queue (40_queue.md) -/

/-- `Q.INIT cap` (R131): whether it succeeded, and the queue after it; on failure nothing changes. -/
def Queue.init (cMax : Nat) (cap : BitVec 32) (q : Queue) : Bool × Queue :=
  if capAdmitted cMax cap then (true, { q with cap := some cap.toNat, head := 0, tail := 0, full := false })
  else (false, q)

/-- `Q.PUSH v` (R132): whether the sample was pushed, and the queue after it. -/
def Queue.push (v : Sample) (q : Queue) : Act (Bool × Queue) :=
  match q.cap with
  | none => .refused .queueUninit
  | some c =>
    if q.full then .done (false, q)
    else
      let h := (q.head + 1) % c
      .done (true, { q with buf := q.buf.write q.head v, head := h, full := if h = q.tail then true else q.full })

/-- `Q.POP` (R133): the oldest sample, none when empty, and the queue after it; the entry keeps its bits (R26). -/
def Queue.pop (q : Queue) : Act (Option Sample × Queue) :=
  match q.cap with
  | none => .refused .queueUninit
  | some c =>
    if q.isEmpty then .done (none, q)
    else .done (some (q.buf.read .qbuf q.tail), { q with tail := (q.tail + 1) % c, full := false })

/-- The precondition of `Q.ISFULL` and `Q.ISEMPTY` (R134, R135). -/
def Queue.query (q : Queue) (answer : Bool) : Act Bool :=
  match q.cap with
  | none => .refused .queueUninit
  | some _ => .done answer

/-! ### Draws, error causes, bus words -/

/-- `draw Bool` (R11): the next placed draw, else a free value (log 2). -/
def drawBool (s : State) : Bool × State :=
  match s.env.bools with
  | b :: rest => (b, s.setEnv { s.env with bools := rest })
  | [] => (Config.drawBool s.env.drawn, s.setEnv { s.env with drawn := s.env.drawn + 1 })

/-- `draw u8` (R11): the next placed draw, else a free value (log 2). -/
def drawByte (s : State) : Byte × State :=
  match s.env.bytes with
  | b :: rest => (b, s.setEnv { s.env with bytes := rest })
  | [] => (Config.drawByte s.env.drawn, s.setEnv { s.env with drawn := s.env.drawn + 1 })

/-- `raise Cause` (R11, R300): records the code and goes on. The block has no trap entry and no trap return: no cause
transfers control, saves state or changes a mode (R310), so this is all that taking an error does. -/
def raiseCause (c : Cause) (s : State) : State := s.setErr { s.err with cause := causeCode c }

/-- `has_pending_word` and `take_word` under a held handle (R55, R281, R354): the oldest word and the state without
it; none when nothing is pending. -/
def takeWord (s : State) : Option (BusWord × State) :=
  match s.dev.handle, s.bsr.pending with
  | .acquired, w :: rest => some (w, s.setBsr { pending := rest })
  | _, _ => none

/-! ### The chip model (42_chip_adapter.md) -/

/-- Whether a chip has two sub-units, the low bit of the target address selecting one (R185 for GameBlaster, R190 for
the stub). -/
def dualChip (c : Config) (f : Family) : Bool :=
  match (familyConfig c f).chip with
  | .external => decide (f = .gameBlaster)
  | .stub => decide ((familyConfig c f).nch = .stereo)

/-- A stub unit `{last, n}`: `last` is its code, `n` its clock (R190). -/
def stubUnit (last n : BitVec 16) : ChipUnit := { code := last.toNat, samples := n.toNat }

/-- `last` of a stub unit (R190). -/
def stubLast (u : ChipUnit) : BitVec 16 := BitVec.ofNat 16 u.code

/-- `n` of a stub unit (R190). -/
def stubN (u : ChipUnit) : BitVec 16 := BitVec.ofNat 16 u.samples

/-- One `cm_sample` of a stub unit: `n + 1 mod 2^16` (R190). -/
def stubNext (u : ChipUnit) : ChipUnit := stubUnit (stubLast u) (stubN u + 1#16)

/-- The sample of one `cm_sample` of a stub unit: `last + n + 1 mod 2^16` (R190). -/
def stubOut (u : ChipUnit) : Sample := stubLast u + stubN u + 1#16

/-- The sub-unit that a write changes, after it: a new code and the same clock, since a write does not advance the chip
(R182). The stub's new code is `last = {reg, d}` with `reg` the register bits of the address (R190). -/
def chipUnitAfter (c : Config) (f : Family) (u : ChipUnits) (old : ChipUnit) (a : BitVec 16) (d : Byte) : ChipUnit :=
  match (familyConfig c f).chip with
  | .external => { old with code := Config.cmWrite f u a d }
  | .stub =>
    let reg : Byte := if dualChip c f then a.extractLsb' 1 8 else a.extractLsb' 0 8
    { old with code := (reg ++ d).toNat }

/-- A sub-unit advanced by exactly one output sample (R183, R185, R190); `second` says which one it is. -/
def chipUnitNext (c : Config) (f : Family) (u : ChipUnits) (second : Bool) (old : ChipUnit) : ChipUnit :=
  match (familyConfig c f).chip with
  | .external => { code := Config.cmNext f second u, samples := old.samples + 1 }
  | .stub => stubNext old

/-- `cm_create[f]()` (R180, R190): no sample has been taken of it. -/
def chipNew (c : Config) (f : Family) : Chip :=
  match (familyConfig c f).chip with
  | .external =>
    { fam := f, units := { unit0 := { code := Config.cmCreate f false, samples := 0 },
                           unit1 := { code := Config.cmCreate f true, samples := 0 } } }
  | .stub => { fam := f, units := { unit0 := stubUnit 0#16 0#16, unit1 := stubUnit 0#16 0#16 } }

/-- `cm_write[f](x, a, d)` (R180): a dual chip changes only the sub-unit `a[0]` selects (R185). -/
def chipAfterWrite (c : Config) (a : BitVec 16) (d : Byte) (x : Chip) : Chip :=
  if dualChip c x.fam && a.getLsbD 0 then
    { x with units := { x.units with unit1 := chipUnitAfter c x.fam x.units x.units.unit1 a d } }
  else
    { x with units := { x.units with unit0 := chipUnitAfter c x.fam x.units x.units.unit0 a d } }

/-- The state `cm_sample[f](x)` leaves (R180, R190): both sub-units of a dual chip are advanced by one output sample in
the same call (R185). -/
def chipAfterSample (c : Config) (x : Chip) : Chip :=
  { x with units :=
      { unit0 := chipUnitNext c x.fam x.units false x.units.unit0,
        unit1 := if dualChip c x.fam then chipUnitNext c x.fam x.units true x.units.unit1 else x.units.unit1 } }

/-- The values `cm_sample[f](x)` returns, left first (R180, R187, R190). -/
def chipOut (c : Config) (x : Chip) : Sample × Sample :=
  match (familyConfig c x.fam).chip with
  | .external => Config.cmOut x.fam x.units
  | .stub => (stubOut x.units.unit0, stubOut x.units.unit1)

/-- `CM.WRITE a, d` (R182): its precondition is a chip model; it writes `SL.chip` only. -/
def chipWrite (a : BitVec 16) (d : Byte) (s : State) : Act State :=
  match s.sl.chip with
  | none => .refused .precondition
  | some x => .done (s.setSl { s.sl with chip := some (chipAfterWrite s.cfg a d x) })

/-- `CM.SAMPLE` (R183): the values, `NCH` of them, left first, and the state after; the family is the chip's own
(log 5). -/
def chipSample (s : State) : Act (List Sample × State) :=
  match s.sl.chip with
  | none => .refused .precondition
  | some x =>
    let out := chipOut s.cfg x
    let vals := match (familyConfig s.cfg x.fam).nch with
      | .mono => [out.1]
      | .stereo => [out.1, out.2]
    .done (vals, s.setSl { s.sl with chip := some (chipAfterSample s.cfg x) })

/-- `CM.DESTROY` (R184). -/
def chipDestroy (s : State) : Act State :=
  match s.sl.chip with
  | none => .refused .precondition
  | some _ => .done (s.setSl { s.sl with chip := none })

/-- The precondition of `CM.CREATE`: `SL.chip == none and SL.state == STOPPED` (R181). -/
def chipCreatable (s : State) : Bool := s.sl.chip.isNone && decide (s.sl.state = .stopped)

/-- `CM.CREATE f` where it is admitted (R181): the draw, and the chip model when it is true. Inside a load `f` is a
family of the device table, and no test of `f` against `NDEV` is made: DESIGN CHOICE, log 22. -/
def chipCreate (f : Family) (s : State) : Bool × State :=
  let (okc, s1) := drawBool s
  if okc then (true, s1.setSl { s1.sl with chip := some (chipNew s1.cfg f) }) else (false, s1)

/-! ### Applying a decoded write (R210) -/

/-- `SL.cur_reg[u]` (R33). -/
def curReg (u : Bool) (l : Synth) : Byte := if u then l.curReg1 else l.curReg0

/-- `SL.cur_reg[u] <- v` (R33). -/
def setCurReg (u : Bool) (v : Byte) (l : Synth) : Synth := if u then { l with curReg1 := v } else { l with curReg0 := v }

/-- `apply(dw)` (R210), by `SL.fam`. A family R210 has no row for keeps its sentence that a LATCH write never calls
`CM.WRITE`; the target address of its data write is a free value (log 14). No family reads `d.chan`. -/
def applyWrite (d : BusWrite) (s : State) : Act State :=
  match s.sl.fam with
  | .opl2lpt =>
    match d.kind with
    | .latch => .done (s.setSl (setCurReg false d.payload s.sl))
    | .data => chipWrite (opl2Address (curReg false s.sl)) d.payload s
  | .tandy => chipWrite tandyAddress d.payload s
  | .gameBlaster =>
    match d.kind with
    | .latch => .done (s.setSl (setCurReg d.unit d.payload s.sl))
    | .data => chipWrite (cmsAddress (curReg d.unit s.sl) d.unit) d.payload s
  | f =>
    match d.kind with
    | .latch => .done (s.setSl (setCurReg d.unit d.payload s.sl))
    | .data => chipWrite (Config.applyAddress f d.payload d.unit) d.payload s

/-- Take the oldest word and apply what `DEC[DEV.dec_fam]` makes of it (R202, R205); none when nothing is pending. -/
def drainWord (s : State) : Option (Act State) :=
  match takeWord s with
  | none => none
  | some (w, s1) => some (applyWrite (busDecode s1.cfg s1.dev.decFam w) s1)

/-! ### The device contract (44_device.md) -/

/-- `acquire` succeeded and the decoder is wired: `DEV.handle`, `BSR.pending`, `DEV.dec_fam`, `DEV.pins_init`
(R232 sub-steps 1 and 2, R233). -/
def claimDevice (f : Family) (s : State) : State :=
  (s.setDev { s.dev with handle := .acquired, decFam := f, pinsInit := true }).setBsr { pending := [] }

/-- Everything `DEV.UNLOAD` and a failed load give back: sampling disabled, the resource released with its untaken
words, the pins deinitialised (R232 `fail`, R236 sub-steps 2 to 4). -/
def releaseDevice (s : State) : State :=
  (s.setDev { s.dev with samplingEn := false, handle := .none, pinsInit := false }).setBsr { pending := [] }

/-- `fail(cause)` of a load (R232). -/
def failLoad (c : Cause) (s : State) : Bool × State :=
  let s1 := releaseDevice s
  (false, raiseCause c (s1.setSl { s1.sl with chip := none }))

/-- The hold registers are reset and sampling is enabled (R232 sub-steps 5 and 6, R233). -/
def openSampling (s : State) : State := s.setDev { s.dev with holdL := 0#16, holdR := 0#16, samplingEn := true }

/-- Load of a synchronous family (R233). -/
def loadSync (f : Family) (s : State) : Bool × State :=
  let (oka, s0) := drawBool s
  if oka then (true, openSampling (claimDevice f s0))
  else (false, raiseCause .resourceExhausted s0)

/-- Sub-step 5 and 7 of a load: the session state, the two latch draws, and the loop started (R232, R33). -/
def startLoop (f : Family) (s : State) : State :=
  let (r0, s1) := drawByte s
  let (r1, s2) := drawByte s1
  (openSampling s2).setSl
    { s2.sl with fam := f, curReg0 := r0, curReg1 := r1, pend := [], phase := .head, state := .running }

/-- Load of an SL family up to `Q.INIT` (R232 sub-steps 1 to 3): the two Booleans are whether `acquire` and `Q.INIT`
succeeded. -/
def prepareLoop (f : Family) (s : State) : Bool × Bool × State :=
  let (oka, s0) := drawBool s
  if oka then
    let s1 := claimDevice f s0
    let (okq, q) := Queue.init s1.cfg.cMax (familyConfig s1.cfg f).cap s1.sq
    (true, okq, s1.setSq q)
  else (false, false, s0)

/-- Load of an SL family (R232), where `CM.CREATE` is admitted if it is reached. DESIGN CHOICE, log 22: where a device
table of fewer than seven entries holds a family whose id is not below `NDEV`, the load constructs its chip model. -/
def loadSynth (f : Family) (s : State) : Bool × State :=
  let (oka, okq, s1) := prepareLoop f s
  if oka then
    if okq then
      let (okc, s2) := chipCreate f s1
      if okc then (true, startLoop f s2) else failLoad .initFailure s2
    else failLoad .initFailure s1
  else (false, raiseCause .resourceExhausted s1)

/-- A load that reaches `CM.CREATE` while its precondition fails (a chip model that a harness created): not admitted
(R181, R121; log 16). -/
def chipCreateRefused (f : Family) (s : State) : Bool :=
  !chipCreatable s && (prepareLoop f s).1 && (prepareLoop f s).2.1

/-- The load of the family `f` where it is admitted and does not hold (R232, R233); the Boolean is the result `ok`. -/
def loadFamily (f : Family) (s : State) : Act (Bool × State) :=
  if hasSL s.cfg f then
    if chipCreateRefused f s then .refused .precondition else .done (loadSynth f s)
  else .done (loadSync f s)

/-- `DEV.LOAD i` (R231 to R234): the index, the hold while the old loop runs, which comes before the rest of the
precondition (R263, R268; log 12), then the load of the family `DEVTAB[i]`. -/
def deviceLoad (i : Nat) (s : State) : Act (Bool × State) :=
  match devTabEntry s.cfg i with
  | none => .refused .badIndex
  | some f =>
    if s.sl.state ≠ .stopped then .held .loopNotStopped
    else if s.dm.current.isSome || decide (s.dev.handle = .acquired) then .refused .precondition
    else loadFamily f s

/-- What `DEV.UNLOAD` does (R236): the stop signal to a RUNNING loop, and everything released. -/
def unloadDevice (s : State) : State :=
  releaseDevice (if s.sl.state = .running then s.setSl { s.sl with state := .stopping } else s)

/-- `DEV.UNLOAD` (R236) with its precondition. -/
def deviceUnload (s : State) : Act State :=
  if s.dm.current.isNone || decide (s.dev.handle = .none) then .refused .precondition
  else .done (unloadDevice s)

/-- The family of the loaded device: `DEVTAB[DM.current]`, or the configured wiring where a harness loaded the device
without the Output Loop (R241 precondition, R346; log 13). -/
def loadedFamily (s : State) : Option Family :=
  match s.dm.current with
  | some i => devTabEntry s.cfg i
  | none => if s.dev.handle = .acquired then some s.dev.decFam else none

/-- What one `generate_sample` gave: a stereo pair, or nothing yet (R245). -/
inductive Gen where
  | pair (left right : Sample)
  | leftOnly
deriving DecidableEq, Repr

/-- `DEV.GEN` of a synchronous mono family (R241). -/
def genSyncMono (f : Family) (s : State) : Gen × State :=
  match takeWord s with
  | some (w, s1) =>
    let v := conv8 (busDecode s1.cfg f w).payload
    (.pair v v, s1.setDev { s1.dev with holdL := v })
  | none =>
    let v := if (familyConfig s.cfg f).hold then s.dev.holdL else 0#16
    (.pair v v, s)

/-- `DEV.GEN` of the synchronous stereo family (R242). -/
def genSyncStereo (f : Family) (s : State) : Gen × State :=
  let hold := (familyConfig s.cfg f).hold
  match takeWord s with
  | some (w, s1) =>
    let d := busDecode s1.cfg f w
    if d.chan then
      (.pair (if hold then s1.dev.holdL else 0#16) (conv8 d.payload), s1.setDev { s1.dev with holdR := conv8 d.payload })
    else
      (.pair (conv8 d.payload) (if hold then s1.dev.holdR else 0#16), s1.setDev { s1.dev with holdL := conv8 d.payload })
  | none => (.pair (if hold then s.dev.holdL else 0#16) (if hold then s.dev.holdR else 0#16), s)

/-- A `Q.POP` that spin-waits: it holds while `is_empty` reads true (R24, R244). -/
def popOrHold (s : State) : Act (Sample × State) :=
  if s.sq.isEmpty then .held .queueEmpty
  else
    (Queue.pop s.sq).bind fun r =>
      match r.1 with
      | none => .held .queueEmpty
      | some v => .done (v, s.setSq r.2)

/-- `DEV.GEN` of a mono SL family (R243). -/
def genQueueMono (s : State) : Act (Gen × State) :=
  (popOrHold s).bind fun r => .done (.pair r.1 r.1, r.2)

/-- The right pop of a stereo SL family (R245, `OL.chan == 1`). -/
def genRight (s : State) : Act (Gen × State) :=
  (popOrHold s).bind fun r => .done (.pair r.2.ol.tmpL r.1, r.2.setOl { r.2.ol with chan := false })

/-- `DEV.GEN` of the stereo SL family (R245): two pops, each with its own spin-wait; the step may end after the left
one. -/
def genQueueStereo (s : State) : Act (Gen × State) :=
  if s.ol.chan then genRight s
  else
    (popOrHold s).bind fun r =>
      let s1 := r.2.setOl { r.2.ol with tmpL := r.1, chan := true }
      if s1.sq.isEmpty then .done (.leftOnly, s1) else genRight s1

/-- `DEV.GEN` of the loaded device (R241 to R246), the rule chosen by `HAS_SL` and `NCH` (log 19). -/
def deviceGen (s : State) : Act (Gen × State) :=
  match loadedFamily s with
  | none => .refused .precondition
  | some f =>
    if hasSL s.cfg f then
      match (familyConfig s.cfg f).nch with
      | .mono => genQueueMono s
      | .stereo => genQueueStereo s
    else
      match f with
      | .stereoOnOne => .done (genSyncStereo f s)
      | g => .done (genSyncMono g s)

/-! ### Ownership and the end of a step word -/

/-- The agent steps and operations the Synthesis Loop may execute (R320). -/
def loopMay : Instr → Bool
  | .slHead | .slDrain | .slSample | .slStall | .slPush | .slExit => true
  | .qPush _ | .qIsFull => true
  | .decCovox _ | .decStereo1 _ | .decDss _ | .decFtl _ | .decOpl2 _ | .decTandy _ | .decCms _ => true
  | .cmWrite _ _ | .cmSample | .cmDestroy => true
  | .qInit _ | .qPop | .qIsEmpty | .cmCreate _ | .devLoad _ | .devUnload | .devGen => false
  | .olSwapchk | .olGetblk | .olFrame | .olSubmit | .hostStrobe _ | .sinkReady | .hsRequest _ => false

/-- The agent steps and operations the Output Loop may execute (R320): `DEC.*` only of a synchronous family (log 20). -/
def outputMay (c : Config) : Instr → Bool
  | .olSwapchk | .olGetblk | .olFrame | .olSubmit => true
  | .devLoad _ | .devUnload | .devGen => true
  | .qInit _ | .qPop | .qIsEmpty | .cmCreate _ => true
  | .decCovox _ => !hasSL c .covox
  | .decStereo1 _ => !hasSL c .stereoOnOne
  | .decDss _ => !hasSL c .dss
  | .decFtl _ => !hasSL c .ftl
  | .decOpl2 _ => !hasSL c .opl2lpt
  | .decTandy _ => !hasSL c .tandy
  | .decCms _ => !hasSL c .gameBlaster
  | .qPush _ | .qIsFull | .cmWrite _ _ | .cmSample | .cmDestroy => false
  | .slHead | .slDrain | .slSample | .slStall | .slPush | .slExit => false
  | .hostStrobe _ | .sinkReady | .hsRequest _ => false

/-- The one step of the host (R320). -/
def hostMay : Instr → Bool
  | .hostStrobe _ => true
  | _ => false

/-- The one step of the audio sink (R320). -/
def sinkMay : Instr → Bool
  | .sinkReady => true
  | _ => false

/-- The one step of the user (R320). -/
def userMay : Instr → Bool
  | .hsRequest _ => true
  | _ => false

/-- The queue has an active producer: a Synthesis Loop that is not STOPPED (R350; log 11). -/
def producerActive (s : State) : Bool := decide (s.sl.state ≠ .stopped)

/-- The queue has an active consumer: an Output Loop whose current device is queue-fed, in any phase (R350, R44; log 11). -/
def consumerActive (s : State) : Bool :=
  match s.dm.current with
  | none => false
  | some i =>
    match devTabEntry s.cfg i with
    | none => false
    | some f => hasSL s.cfg f

/-- What the harness may issue (R100): every agent step, and every operation, for its owner, but no push beside an
active producer and no pop, nor the `DEV.GEN` that pops, beside an active consumer (R350, U19; log 11). -/
def harnessMay (s : State) : Instr → Bool
  | .qPush _ => !producerActive s
  | .qPop | .devGen => !consumerActive s
  | .qInit _ | .qIsFull | .qIsEmpty => true
  | .decCovox _ | .decStereo1 _ | .decDss _ | .decFtl _ | .decOpl2 _ | .decTandy _ | .decCms _ => true
  | .cmCreate _ | .cmWrite _ _ | .cmSample | .cmDestroy => true
  | .slHead | .slDrain | .slSample | .slStall | .slPush | .slExit => true
  | .devLoad _ | .devUnload => true
  | .olSwapchk | .olGetblk | .olFrame | .olSubmit => true
  | .hostStrobe _ | .sinkReady | .hsRequest _ => true

/-- "May execute" of R320 and R350, for the issuer of the step being run. -/
def mayExecute (s : State) (i : Instr) : Bool :=
  match s.env.issuer with
  | .harness => harnessMay s i
  | .synthesisLoop => loopMay i
  | .outputLoop => outputMay s.cfg i
  | .host => hostMay i
  | .sink => sinkMay i
  | .user => userMay i

/-- The outcome of a step word at `s` whose body ended as `a`: refused where its issuer does not own it (R320); the
next state with its report where it ran; the same state with a report where it holds or is not enabled (log 9). DESIGN
CHOICE, log 23: the owner is tested first, so the refusal is `NotOwner` also where another one applies. -/
def perform (i : Instr) (s : State) (a : Act (Report × State)) : Host.Outcome State Fault Refusal :=
  if mayExecute s i then
    match a with
    | .done r => .next (r.2.setReport r.1)
    | .held h => .next (s.setReport (.held h))
    | .notEnabled => .next (s.setReport .notEnabled)
    | .refused r => .refused r
    | .stuck f => .fault f
  else .refused .notOwner

/-- An agent step ran: it returns nothing (R102). -/
def ran (s : State) : Act (Report × State) := .done (.nothing, s)

/-- An operation returned `{ok}` with no `val` (R102). -/
def answerOk (ok : Bool) (s : State) : Act (Report × State) := .done (.returned ok none, s)

/-- An operation returned `{ok = 1, val}` (R102). -/
def answerVal (v : BitVec 32) (s : State) : Act (Report × State) := .done (.returned true (some v), s)

/-- No Output Loop step is enabled in FAULT, and that state is a fault (R267, R305); elsewhere the step goes on. -/
def unlessFault (s : State) (a : Act (Report × State)) : Act (Report × State) :=
  if s.ol.phase = .fault then .stuck .outputLoopStuck else a

end Sys2Proof.Machine
end

