-- ==== Sys2Proof/Machine/Agents.lean ====
section
/-!
DEFINITION. The meanings of the external agents' steps (45_output_loop.md R281 to R283).
-/

namespace Sys2Proof.Machine

/-- `HOST.STROBE w` (R281); while sampling is disabled the strobe is not captured (R311, D20). -/
def execHostStrobe (w : BusWord) (s : State) : Host.Outcome State Fault Refusal :=
  perform (.hostStrobe w) s <|
    if s.dev.samplingEn then ran (s.setBsr { pending := s.bsr.pending ++ [w] }) else .notEnabled

/-- `SINK.READY` (R282). -/
def execSinkReady (s : State) : Host.Outcome State Fault Refusal :=
  perform .sinkReady s <| ran (s.setSink { s.sink with credit := s.sink.credit + 1 })

/-- `HS.REQUEST i` (R283): an index outside the table is ignored (D24). -/
def execHsRequest (index : BitVec 3) (s : State) : Host.Outcome State Fault Refusal :=
  perform (.hsRequest index) s <|
    if index.toNat < nDev s.cfg then ran (s.setDm { s.dm with wanted := index.toNat }) else ran s

end Sys2Proof.Machine
end

