-- ==== Sys2Proof/Machine/ChipAdapter.lean ====
section
/-!
DEFINITION. The meanings of the chip adapter operations (42_chip_adapter.md R181 to R184).
-/

namespace Sys2Proof.Machine

/-- `CM.CREATE f` (R181): `BadIndex` for a family id not below `NDEV`, no family, or one without a Synthesis Loop
(R121); then the precondition (this order: DESIGN CHOICE, log 23); then the construction draw. -/
def execCmCreate (family : BitVec 3) (s : State) : Host.Outcome State Fault Refusal :=
  perform (.cmCreate family) s <|
    match familyOfId family.toNat with
    | none => .refused .badIndex
    | some f =>
      if nDev s.cfg ≤ family.toNat || !hasSL s.cfg f then .refused .badIndex
      else if !chipCreatable s then .refused .precondition
      else answerOk (chipCreate f s).1 (chipCreate f s).2

/-- `CM.WRITE a, d` (R182): writes cannot fail. -/
def execCmWrite (a : BitVec 16) (d : Byte) (s : State) : Host.Outcome State Fault Refusal :=
  perform (.cmWrite a d) s <| (chipWrite a d s).bind fun t => answerOk true t

/-- `val` of `CM.SAMPLE`: the first sample, and the second one above it if `NCH == 2`, else 0 (R183). -/
def sampleVal : List Sample → BitVec 32
  | [] => 0#32
  | [v] => packOne v
  | l :: r :: _ => packTwo l r

/-- `CM.SAMPLE` (R183). -/
def execCmSample (s : State) : Host.Outcome State Fault Refusal :=
  perform .cmSample s <| (chipSample s).bind fun r => answerVal (sampleVal r.1) r.2

/-- `CM.DESTROY` (R184). -/
def execCmDestroy (s : State) : Host.Outcome State Fault Refusal :=
  perform .cmDestroy s <| (chipDestroy s).bind fun t => answerOk true t

end Sys2Proof.Machine
end

