-- ==== Sys2Proof/Machine/Decoders.lean ====
section
/-!
DEFINITION. The meanings of the decoder operations (41_bus_decoder.md R150 to R159): each returns the packed decoded
write (30_encoding.md R115), reads no state but the configuration, and writes none.
-/

namespace Sys2Proof.Machine

/-- `DEC.COVOX w` (R153). -/
def execDecCovox (w : BusWord) (s : State) : Host.Outcome State Fault Refusal :=
  perform (.decCovox w) s <| answerVal (packWrite (busCovox s.cfg.covox w)) s

/-- `DEC.STEREO1 w` (R154). -/
def execDecStereo1 (w : BusWord) (s : State) : Host.Outcome State Fault Refusal :=
  perform (.decStereo1 w) s <| answerVal (packWrite (busStereo1 s.cfg.stereoOnOne w)) s

/-- `DEC.DSS w` (R155). -/
def execDecDss (w : BusWord) (s : State) : Host.Outcome State Fault Refusal :=
  perform (.decDss w) s <| answerVal (packWrite (busDss s.cfg.dss w)) s

/-- `DEC.FTL w` (R156). -/
def execDecFtl (w : BusWord) (s : State) : Host.Outcome State Fault Refusal :=
  perform (.decFtl w) s <| answerVal (packWrite (busFtl s.cfg.ftl w)) s

/-- `DEC.OPL2 w` (R157). -/
def execDecOpl2 (w : BusWord) (s : State) : Host.Outcome State Fault Refusal :=
  perform (.decOpl2 w) s <| answerVal (packWrite (busOpl2 s.cfg.opl2lpt w)) s

/-- `DEC.TANDY w` (R158). -/
def execDecTandy (w : BusWord) (s : State) : Host.Outcome State Fault Refusal :=
  perform (.decTandy w) s <| answerVal (packWrite (busTandy s.cfg.tandy w)) s

/-- `DEC.CMS w` (R159). -/
def execDecCms (w : BusWord) (s : State) : Host.Outcome State Fault Refusal :=
  perform (.decCms w) s <| answerVal (packWrite (busCms s.cfg.gameBlaster w)) s

end Sys2Proof.Machine
end

