-- ==== Sys2Proof/Machine/DeviceOps.lean ====
section
/-!
DEFINITION. The meanings of the device operations issued directly (44_device.md R231 to R246); the Output Loop's steps
invoke the same shared operations.
-/

namespace Sys2Proof.Machine

/-- `DEV.LOAD i` (R231 to R234); `DM.current` is the caller's to write. -/
def execDevLoad (index : BitVec 3) (s : State) : Host.Outcome State Fault Refusal :=
  perform (.devLoad index) s <| (deviceLoad index.toNat s).bind fun r => answerOk r.1 r.2

/-- `DEV.UNLOAD` (R236). -/
def execDevUnload (s : State) : Host.Outcome State Fault Refusal :=
  perform .devUnload s <| (deviceUnload s).bind fun t => answerOk true t

/-- `DEV.GEN` (R241 to R246): `val[15:0]` left, `val[31:16]` right; no result after the left pop alone (R245). -/
def execDevGen (s : State) : Host.Outcome State Fault Refusal :=
  perform .devGen s <| (deviceGen s).bind fun r =>
    match r.1 with
    | .pair left right => answerVal (packTwo left right) r.2
    | .leftOnly => .done (.unfinished, r.2)

end Sys2Proof.Machine
end

