-- ==== Sys2Proof/Machine/OutputLoop.lean ====
section
/-!
DEFINITION. The meanings of the Output Loop's steps and of the hot-swap sequence (45_output_loop.md R261 to R267).
-/

namespace Sys2Proof.Machine

/-- `OL.phase <- p` (R40). -/
def setOutPhase (p : OutPhase) (s : State) : State := s.setOl { s.ol with phase := p }

/-- What the load branch does with the result of `DEV.LOAD(i)` (R263): success makes the device current; a failure is
a DeviceSwapFailure, which falls back to the default device or, for the default device itself, ends in FAULT (R305). -/
def afterLoad (i : Nat) (ok : Bool) (s : State) : State :=
  if ok then setOutPhase .getblk (s.setDm { s.dm with current := some i })
  else
    let s1 := s.setErr { s.err with swapFailed := true }
    if i ≠ Config.defaultIndex then s1.setDm { s1.dm with wanted := Config.defaultIndex }
    else setOutPhase .fault s1

/-- `OL.SWAPCHK`: nothing to do (R261), unload the old device, which is "always ok" (R262; log 12), or load the wanted
one (R263). -/
def execOlSwapchk (s : State) : Host.Outcome State Fault Refusal :=
  perform .olSwapchk s <| unlessFault s <|
    if s.ol.phase = .swap then
      match s.dm.current with
      | some _ =>
        if swapPending s then ran ((unloadDevice s).setDm { s.dm with current := none })
        else ran (setOutPhase .getblk s)
      | none => (deviceLoad s.dm.wanted s).bind fun r => ran (afterLoad s.dm.wanted r.1 r.2)
    else .notEnabled

/-- `OL.GETBLK` (R265). -/
def execOlGetblk (s : State) : Host.Outcome State Fault Refusal :=
  perform .olGetblk s <| unlessFault s <|
    if s.ol.phase = .getblk then
      if s.sink.credit = 0 then .held .noCredit
      else
        ran ((s.setSink { s.sink with credit := s.sink.credit - 1 }).setOl
          { s.ol with frame := 0, chan := false, phase := .fill })
    else .notEnabled

/-- The two entries of frame `OL.frame` and the advance to the next frame or to SUBMIT (R264). -/
def writeFrame (left right : Sample) (s : State) : State :=
  let blk := (s.ol.blk.write (2 * s.ol.frame) left).write (2 * s.ol.frame + 1) right
  if s.ol.frame + 1 = s.cfg.blockFrames then s.setOl { s.ol with blk := blk, phase := .submit }
  else s.setOl { s.ol with blk := blk, frame := s.ol.frame + 1 }

/-- `OL.FRAME` (R264): one `DEV.GEN`; a stereo queue family may stop after its left pop. Without a loaded device no
`DEV.GEN` can make progress, so the step is not enabled. -/
def execOlFrame (s : State) : Host.Outcome State Fault Refusal :=
  perform .olFrame s <| unlessFault s <|
    if s.ol.phase = .fill ∧ (loadedFamily s).isSome then
      (deviceGen s).bind fun r =>
        match r.1 with
        | .pair left right => ran (writeFrame left right r.2)
        | .leftOnly => ran r.2
    else .notEnabled

/-- `copy of OL.blk[0 .. 2N-1]` (R266). -/
def blockCopy (s : State) : List Sample :=
  (List.range (2 * s.cfg.blockFrames)).map fun k => s.ol.blk.read .blk k

/-- `OL.SUBMIT` (R266). -/
def execOlSubmit (s : State) : Host.Outcome State Fault Refusal :=
  perform .olSubmit s <| unlessFault s <|
    if s.ol.phase = .submit then
      ran (setOutPhase .swap (s.setSink { s.sink with out := s.sink.out ++ [blockCopy s] }))
    else .notEnabled

end Sys2Proof.Machine
end

