-- ==== Sys2Proof/Machine/QueueOps.lean ====
section
/-!
DEFINITION. The meanings of the queue operations (40_queue.md R131 to R135).
-/

namespace Sys2Proof.Machine

/-- `Q.INIT cap` (R131). It is issued only while no producer and no consumer is active; beside one of them it is
outside the contract and refused, whoever issues it (R350, U19; log 11), before its capacity is looked at (DESIGN
CHOICE, log 23). -/
def execQInit (cap : BitVec 32) (s : State) : Host.Outcome State Fault Refusal :=
  perform (.qInit cap) s <|
    if producerActive s || consumerActive s then .refused .notOwner
    else
      let r := Queue.init s.cfg.cMax cap s.sq
      answerOk r.1 (s.setSq r.2)

/-- `Q.PUSH v` (R132). -/
def execQPush (v : Sample) (s : State) : Host.Outcome State Fault Refusal :=
  perform (.qPush v) s <| (Queue.push v s.sq).bind fun r => answerOk r.1 (s.setSq r.2)

/-- `Q.POP` (R133): `val[15:0]` the sample when there is one. -/
def execQPop (s : State) : Host.Outcome State Fault Refusal :=
  perform .qPop s <| (Queue.pop s.sq).bind fun r =>
    match r.1 with
    | none => answerOk false (s.setSq r.2)
    | some v => answerVal (packOne v) (s.setSq r.2)

/-- `Q.ISFULL` (R134). -/
def execQIsFull (s : State) : Host.Outcome State Fault Refusal :=
  perform .qIsFull s <| (Queue.query s.sq s.sq.isFull).bind fun b => answerOk b s

/-- `Q.ISEMPTY` (R135). -/
def execQIsEmpty (s : State) : Host.Outcome State Fault Refusal :=
  perform .qIsEmpty s <| (Queue.query s.sq s.sq.isEmpty).bind fun b => answerOk b s

end Sys2Proof.Machine
end

