-- ==== Sys2Proof/Machine/SynthLoop.lean ====
section
/-!
DEFINITION. The meanings of the Synthesis Loop's steps (43_synthesis_loop.md R201 to R207). The stop signal is
examined at the loop head, before each drained word, and at each stall poll with the queue full (R208).
-/

namespace Sys2Proof.Machine

/-- `SL.phase <- p` (R31). -/
def setLoopPhase (p : LoopPhase) (s : State) : State := s.setSl { s.sl with phase := p }

/-- `SL.state in {RUNNING, STOPPING}` (R203, R204, R206). -/
def loopAlive (s : State) : Bool := decide (s.sl.state ≠ .stopped)

/-- `SL.HEAD` (R201). -/
def execSlHead (s : State) : Host.Outcome State Fault Refusal :=
  perform .slHead s <|
    if s.sl.state = .running ∧ s.sl.phase = .head then ran (setLoopPhase .drain s) else .notEnabled

/-- `SL.DRAIN` (R202): one pending word is applied, or the phase advances. -/
def execSlDrain (s : State) : Host.Outcome State Fault Refusal :=
  perform .slDrain s <|
    if s.sl.state = .running ∧ s.sl.phase = .drain then
      match drainWord s with
      | some a => a.bind ran
      | none => ran (setLoopPhase .sample s)
    else .notEnabled

/-- `SL.SAMPLE` (R203): exactly one `CM.SAMPLE`, no stop check. -/
def execSlSample (s : State) : Host.Outcome State Fault Refusal :=
  perform .slSample s <|
    if loopAlive s ∧ s.sl.phase = .sample then
      (chipSample s).bind fun r => ran (r.2.setSl { r.2.sl with pend := r.1, phase := .stall })
    else .notEnabled

/-- `SL.STALL`: space available (R204), tested first; then, with the queue full, the stop signal (only `SL.EXIT` is
enabled, R207); then a pending word under backpressure (R205); else the hold of R205. -/
def execSlStall (s : State) : Host.Outcome State Fault Refusal :=
  perform .slStall s <|
    if loopAlive s ∧ s.sl.phase = .stall then
      if !s.sq.isFull then ran (setLoopPhase .push s)
      else if stopSignal s then .notEnabled
      else
        match drainWord s with
        | some a => a.bind ran
        | none => .held .queueFull
    else .notEnabled

/-- `SL.pend[0]`. With no sample pending, which no state reached from reset shows in PUSH (R212), it is a free value,
and one more free value is counted as taken (log 17). -/
def firstPending (s : State) : Sample × State :=
  match s.sl.pend with
  | v :: _ => (v, s)
  | [] => (Config.absentSample s.env.drawn, s.setEnv { s.env with drawn := s.env.drawn + 1 })

/-- `SL.pend` without its first element, and the phase after the push (R206). -/
def dropPending (l : Synth) : Synth :=
  { l with pend := l.pend.tail, phase := if l.pend.tail.isEmpty then .head else .stall }

/-- `SL.PUSH` (R206): the oldest pending sample is pushed; a sample the queue does not take is dropped as R132 says. -/
def execSlPush (s : State) : Host.Outcome State Fault Refusal :=
  perform .slPush s <|
    if loopAlive s ∧ s.sl.phase = .push then
      (Queue.push (firstPending s).1 s.sq).bind fun r =>
        ran (((firstPending s).2.setSq r.2).setSl (dropPending s.sl))
    else .notEnabled

/-- The stop-check points at which the loop may exit (R207, R208). -/
def exitEnabled (s : State) : Bool :=
  stopSignal s && (decide (s.sl.phase = .head) || decide (s.sl.phase = .drain) ||
    (decide (s.sl.phase = .stall) && s.sq.isFull))

/-- `SL.EXIT` (R207): `SL.chip <- none`, a pending sample is discarded, and the loop stops. The step has no failure, so
it asks for no chip model (a harness may have destroyed it; log 12). -/
def execSlExit (s : State) : Host.Outcome State Fault Refusal :=
  perform .slExit s <|
    if exitEnabled s then
      ran (s.setSl { s.sl with chip := none, pend := [], phase := .head, state := .stopped })
    else .notEnabled

end Sys2Proof.Machine
end

