-- ==== Sys2Proof/Machine/Dispatch.lean ====
section
/-!
DEFINITION. One arm for each step word of the opcode map (30_encoding.md R103), in the table's order.
-/

namespace Sys2Proof.Machine

/-- What a step word does at a state (R12: one atomic transition). -/
def exec (i : Instr) (s : State) : Host.Outcome State Fault Refusal :=
  match i with
  | .qInit cap => Sys2Proof.Machine.execQInit cap s
  | .qPush v => Sys2Proof.Machine.execQPush v s
  | .qPop => Sys2Proof.Machine.execQPop s
  | .qIsFull => Sys2Proof.Machine.execQIsFull s
  | .qIsEmpty => Sys2Proof.Machine.execQIsEmpty s
  | .decCovox w => Sys2Proof.Machine.execDecCovox w s
  | .decStereo1 w => Sys2Proof.Machine.execDecStereo1 w s
  | .decDss w => Sys2Proof.Machine.execDecDss w s
  | .decFtl w => Sys2Proof.Machine.execDecFtl w s
  | .decOpl2 w => Sys2Proof.Machine.execDecOpl2 w s
  | .decTandy w => Sys2Proof.Machine.execDecTandy w s
  | .decCms w => Sys2Proof.Machine.execDecCms w s
  | .cmCreate f => Sys2Proof.Machine.execCmCreate f s
  | .cmWrite a d => Sys2Proof.Machine.execCmWrite a d s
  | .cmSample => Sys2Proof.Machine.execCmSample s
  | .cmDestroy => Sys2Proof.Machine.execCmDestroy s
  | .slHead => Sys2Proof.Machine.execSlHead s
  | .slDrain => Sys2Proof.Machine.execSlDrain s
  | .slSample => Sys2Proof.Machine.execSlSample s
  | .slStall => Sys2Proof.Machine.execSlStall s
  | .slPush => Sys2Proof.Machine.execSlPush s
  | .slExit => Sys2Proof.Machine.execSlExit s
  | .devLoad k => Sys2Proof.Machine.execDevLoad k s
  | .devUnload => Sys2Proof.Machine.execDevUnload s
  | .devGen => Sys2Proof.Machine.execDevGen s
  | .olSwapchk => Sys2Proof.Machine.execOlSwapchk s
  | .olGetblk => Sys2Proof.Machine.execOlGetblk s
  | .olFrame => Sys2Proof.Machine.execOlFrame s
  | .olSubmit => Sys2Proof.Machine.execOlSubmit s
  | .hostStrobe w => Sys2Proof.Machine.execHostStrobe w s
  | .sinkReady => Sys2Proof.Machine.execSinkReady s
  | .hsRequest k => Sys2Proof.Machine.execHsRequest k s

end Sys2Proof.Machine
end

