-- ==== Sys2Proof/Decode.lean ====
section
/-!
DEFINITION. The decoder of the 40-bit step word `{op[7:0], arg[31:0]}` (30_encoding.md R101, R103, R120) and, after
it, the encoder. There is one format and one length (R122); a step word has no byte order (20_memory.md R72).
-/

namespace Sys2Proof

/-- Why a step word does not decode: its `op` is not in the map of R103 (R120). -/
inductive DecodeError where
  | illegalOp
deriving DecidableEq, Repr

/-- `op`, bits 39:32 of a step word (R101). -/
def opField (w : StepWord) : BitVec 8 := w.extractLsb' 32 8

/-- `arg`, bits 31:0 of a step word (R101). -/
def argField (w : StepWord) : BitVec 32 := w.extractLsb' 0 32

/-- The instruction of a step word; bits of `arg` that R103 gives no field are ignored (R101). -/
def decode (w : StepWord) : Except DecodeError Instr :=
  let arg := argField w
  match (opField w).toNat with
  | 0x00 => .ok (.qInit arg)
  | 0x01 => .ok (.qPush (arg.extractLsb' 0 16))
  | 0x02 => .ok .qPop
  | 0x03 => .ok .qIsFull
  | 0x04 => .ok .qIsEmpty
  | 0x10 => .ok (.decCovox arg)
  | 0x11 => .ok (.decStereo1 arg)
  | 0x12 => .ok (.decDss arg)
  | 0x13 => .ok (.decFtl arg)
  | 0x14 => .ok (.decOpl2 arg)
  | 0x15 => .ok (.decTandy arg)
  | 0x16 => .ok (.decCms arg)
  | 0x20 => .ok (.cmCreate (arg.extractLsb' 0 3))
  | 0x21 => .ok (.cmWrite (arg.extractLsb' 8 16) (arg.extractLsb' 0 8))
  | 0x22 => .ok .cmSample
  | 0x23 => .ok .cmDestroy
  | 0x30 => .ok .slHead
  | 0x31 => .ok .slDrain
  | 0x32 => .ok .slSample
  | 0x33 => .ok .slStall
  | 0x34 => .ok .slPush
  | 0x35 => .ok .slExit
  | 0x40 => .ok (.devLoad (arg.extractLsb' 0 3))
  | 0x41 => .ok .devUnload
  | 0x42 => .ok .devGen
  | 0x50 => .ok .olSwapchk
  | 0x51 => .ok .olGetblk
  | 0x52 => .ok .olFrame
  | 0x53 => .ok .olSubmit
  | 0x60 => .ok (.hostStrobe arg)
  | 0x61 => .ok .sinkReady
  | 0x62 => .ok (.hsRequest (arg.extractLsb' 0 3))
  | _ => .error .illegalOp

/-- The operation code of an instruction (R103). -/
def opcode : Instr → BitVec 8
  | .qInit _ => 0x00#8
  | .qPush _ => 0x01#8
  | .qPop => 0x02#8
  | .qIsFull => 0x03#8
  | .qIsEmpty => 0x04#8
  | .decCovox _ => 0x10#8
  | .decStereo1 _ => 0x11#8
  | .decDss _ => 0x12#8
  | .decFtl _ => 0x13#8
  | .decOpl2 _ => 0x14#8
  | .decTandy _ => 0x15#8
  | .decCms _ => 0x16#8
  | .cmCreate _ => 0x20#8
  | .cmWrite _ _ => 0x21#8
  | .cmSample => 0x22#8
  | .cmDestroy => 0x23#8
  | .slHead => 0x30#8
  | .slDrain => 0x31#8
  | .slSample => 0x32#8
  | .slStall => 0x33#8
  | .slPush => 0x34#8
  | .slExit => 0x35#8
  | .devLoad _ => 0x40#8
  | .devUnload => 0x41#8
  | .devGen => 0x42#8
  | .olSwapchk => 0x50#8
  | .olGetblk => 0x51#8
  | .olFrame => 0x52#8
  | .olSubmit => 0x53#8
  | .hostStrobe _ => 0x60#8
  | .sinkReady => 0x61#8
  | .hsRequest _ => 0x62#8

/-- The operand `arg` of an instruction, unused bits 0 (R101, R103). -/
def argument : Instr → BitVec 32
  | .qInit cap => cap
  | .qPush v => v.setWidth 32
  | .decCovox w | .decStereo1 w | .decDss w | .decFtl w | .decOpl2 w | .decTandy w | .decCms w => w
  | .cmCreate f => f.setWidth 32
  | .cmWrite a d => (0#8 ++ a) ++ d
  | .devLoad i => i.setWidth 32
  | .hostStrobe w => w
  | .hsRequest i => i.setWidth 32
  | .qPop | .qIsFull | .qIsEmpty | .cmSample | .cmDestroy => 0#32
  | .slHead | .slDrain | .slSample | .slStall | .slPush | .slExit => 0#32
  | .devUnload | .devGen | .olSwapchk | .olGetblk | .olFrame | .olSubmit | .sinkReady => 0#32

/-- The bits of `arg` that R103 gives a field of this instruction; the others are ignored on decode (R101). -/
def usedArgBits : Instr → BitVec 32
  | .qInit _ => 0xFFFFFFFF#32
  | .qPush _ => 0x0000FFFF#32
  | .decCovox _ | .decStereo1 _ | .decDss _ | .decFtl _ | .decOpl2 _ | .decTandy _ | .decCms _ => 0xFFFFFFFF#32
  | .cmCreate _ => 0x00000007#32
  | .cmWrite _ _ => 0x00FFFFFF#32
  | .devLoad _ => 0x00000007#32
  | .hostStrobe _ => 0xFFFFFFFF#32
  | .hsRequest _ => 0x00000007#32
  | .qPop | .qIsFull | .qIsEmpty | .cmSample | .cmDestroy => 0#32
  | .slHead | .slDrain | .slSample | .slStall | .slPush | .slExit => 0#32
  | .devUnload | .devGen | .olSwapchk | .olGetblk | .olFrame | .olSubmit | .sinkReady => 0#32

/-- The step word of an instruction: `{op[7:0], arg[31:0]}` (R101). -/
def encode (i : Instr) : StepWord := opcode i ++ argument i

/-- The step word with the number `w` when the table gives it `nbits` bits; none where it gives more than a step word
has (R101). -/
def tableWord (nbits w : Nat) : Option StepWord :=
  if nbits ≤ 40 then some (BitVec.ofNat 40 (w % 2 ^ nbits)) else none

/-- The instruction the decoder reads from a word of spec/opcode_table.json, numbered as the table numbers it. -/
def decodeTableWord (nbits w : Nat) : Option Instr :=
  match tableWord nbits w with
  | none => none
  | some x =>
    match decode x with
    | .ok i => some i
    | .error _ => none

end Sys2Proof
end

