-- ==== Sys2Proof/Machine/Fetch.lean ====
section
/-!
DEFINITION. Where the next step word comes from. The block executes no stored program (00_scope.md R1): an execution
is a sequence of step words (30_encoding.md R100), the ones placed in `env.trace` first, then those of the free
schedule, since the spec fixes no order between agents (45_output_loop.md R285; log 1).
-/

namespace Sys2Proof.Machine

/-- The next step word: the head of `env.trace`, else the free schedule's next word. -/
def nextWord (s : State) : StepWord :=
  match s.env.trace with
  | x :: _ => x.word
  | [] => Config.scheduleWord s.env.turn

/-- The state in which the next step word runs: the word is used up and its issuer is on record. -/
def afterFetch (s : State) : State :=
  match s.env.trace with
  | x :: rest => s.setEnv { s.env with trace := rest, issuer := x.issuer }
  | [] => s.setEnv { s.env with turn := s.env.turn + 1, issuer := Config.scheduleIssuer s.env.turn }

/-- The state with a step word placed as the next one, issued by the harness (R100). -/
def placeWord (w : StepWord) (s : State) : State :=
  s.setEnv { s.env with trace := { issuer := .harness, word := w } :: s.env.trace }

/-- The state with a step word of spec/opcode_table.json placed as the next one; a word with more bits than a step word
has is not placed. -/
def placeTableWord (nbits w : Nat) (s : State) : State :=
  match tableWord nbits w with
  | none => s
  | some x => placeWord x s

end Sys2Proof.Machine
end

