-- ==== Sys2Proof/Machine/Step.lean ====
section
/-!
DEFINITION. One step of the machine: the next step word is decoded and run (30_encoding.md R100, R120).
-/

namespace Sys2Proof.Machine

/-- One step; an illegal `op` is refused and changes nothing (R120). -/
def step (s : State) : Host.Outcome State Fault Refusal :=
  match decode (nextWord s) with
  | .ok i => exec i (afterFetch s)
  | .error .illegalOp => .refused .illegalOp

/-- The state with a step word of spec/opcode_table.json, numbered as the table numbers it, placed where `step` takes
its next one. -/
def State.withFetchWord (s : State) (nbits w : Nat) : State := placeTableWord nbits w s

end Sys2Proof.Machine
end

