-- ==== Sys2Proof/Safety.lean ====
section
/-!
DEFINITION. What counts as a sound state, in the terms the claims use: the queue invariants (10_state.md R23), the
Synthesis Loop invariants (R31, 43_synthesis_loop.md R212), the resource invariant (R39), the device manager and
Output Loop invariants (R41 to R43, R47, R48), the canonical form of the storage, and which step words are agent steps
(30_encoding.md R100).
-/

namespace Sys2Proof.Machine

/-- The agent steps of R100; every other step word is an operation. -/
def isAgentStep : Instr → Bool
  | .slHead | .slDrain | .slSample | .slStall | .slPush | .slExit => true
  | .olSwapchk | .olGetblk | .olFrame | .olSubmit => true
  | .hostStrobe _ | .sinkReady | .hsRequest _ => true
  | .qInit _ | .qPush _ | .qPop | .qIsFull | .qIsEmpty => false
  | .decCovox _ | .decStereo1 _ | .decDss _ | .decFtl _ | .decOpl2 _ | .decTandy _ | .decCms _ => false
  | .cmCreate _ | .cmWrite _ _ | .cmSample | .cmDestroy => false
  | .devLoad _ | .devUnload | .devGen => false

/-- The issuer of the step being run may execute it (R320). -/
abbrev owned (i : Instr) (s : State) : Prop := mayExecute s i = true

/-- The index of the `j`th occupied entry of a queue of capacity `c`, the oldest first (R23 (d)). -/
def slotIndex (q : Queue) (c j : Nat) : Nat := (q.tail + j) % c

/-- The queue invariants of R23 (a) to (d) for an initialised queue, with the capacity a power of two not above
`C_MAX` (R21). -/
def Queue.sound (cMax : Nat) (q : Queue) : Prop :=
  ∀ c, q.cap = some c →
    c ≠ 0 ∧ c &&& (c - 1) = 0 ∧ c ≤ cMax ∧ q.head < c ∧ q.tail < c ∧ (q.full = true → q.head = q.tail) ∧
    ∀ j, j < q.count → (q.buf.read? (slotIndex q c j)).isSome = true

/-- The queue of the state is sound. -/
def queueSound (s : State) : Prop := Queue.sound s.cfg.cMax s.sq

/-- The samples in the queue, the oldest first (R23 (d)); empty while not initialised. -/
def Queue.contents (q : Queue) : List Sample :=
  match q.cap with
  | none => []
  | some c => (List.range q.count).map fun j => q.buf.read .qbuf (slotIndex q c j)

/-- Both element spaces are in canonical form. -/
def storageCanonical (s : State) : Prop := s.sq.buf.wf ∧ s.ol.blk.wf

/-- `DEV.handle == none` implies `DEV.sampling_en == 0` and `DEV.pins_init == 0` (R39). -/
def resourcesPaired (s : State) : Prop :=
  s.dev.handle = .none → s.dev.samplingEn = false ∧ s.dev.pinsInit = false

/-- The Synthesis Loop invariants: R31 and, while it is not STOPPED, R212; while it is STOPPED no chip model and no
pending sample exist (R207, R232). -/
def loopSound (s : State) : Prop :=
  (s.sl.state = .stopped → s.sl.phase = .head ∧ s.sl.chip = none ∧ s.sl.pend = []) ∧
  (s.sl.state ≠ .stopped →
    (∃ x, s.sl.chip = some x ∧ x.fam = s.sl.fam) ∧ (s.sl.pend ≠ [] ↔ s.sl.phase = .stall ∨ s.sl.phase = .push) ∧
    s.sq.cap.isSome = true)

/-- The wanted index is in the device table (R48, R71). -/
def wantedInTable (s : State) : Prop := s.dm.wanted < nDev s.cfg

/-- The device manager against the loaded device (R37, R47, R232, R233): the current device holds the handle and the
decoder wiring, and its loop runs exactly if it has one; with no current device nothing is claimed, no loop is RUNNING,
and the Output Loop is in SWAP or FAULT. -/
def managerSound (s : State) : Prop :=
  (∀ i, s.dm.current = some i →
    ∃ f, devTabEntry s.cfg i = some f ∧ s.dev.handle = .acquired ∧ s.dev.decFam = f ∧
      (hasSL s.cfg f = true → s.sl.state = .running ∧ s.sl.fam = f) ∧
      (hasSL s.cfg f = false → s.sl.state = .stopped)) ∧
  (s.dm.current = none →
    s.dev.handle = .none ∧ s.sl.state ≠ .running ∧ (s.ol.phase = .swap ∨ s.ol.phase = .fault))

/-- `OL.chan` is 1 only in FILL, and only while a stereo queue family fills the block (R42, R245). -/
def chanSound (s : State) : Prop :=
  s.ol.chan = true → s.ol.phase = .fill ∧
    ∃ i f, s.dm.current = some i ∧ devTabEntry s.cfg i = some f ∧ hasSL s.cfg f = true ∧
      (familyConfig s.cfg f).nch = .stereo

/-- `OL.frame` is below `BLOCK_FRAMES` (R41, R71); the entries of the frames generated so far are written, and all of the
block is before `OL.SUBMIT` reads it (R43, R266). -/
def frameSound (s : State) : Prop :=
  s.ol.frame < s.cfg.blockFrames ∧
  (s.ol.phase = .fill → ∀ k, k < 2 * s.ol.frame → (s.ol.blk.read? k).isSome = true) ∧
  (s.ol.phase = .submit → ∀ k, k < 2 * s.cfg.blockFrames → (s.ol.blk.read? k).isSome = true)

/-- The invariants that the agents' own steps keep from reset on. -/
structure BlockSound (s : State) : Prop where
  loop : loopSound s
  manager : managerSound s
  wanted : wantedInTable s
  chan : chanSound s
  frame : frameSound s
  resources : resourcesPaired s

end Sys2Proof.Machine
end

