-- ==== Sys2Proof/WellFormed.lean ====
section
/-!
DEFINITION. Well-formed instructions: the operand ranges of 30_encoding.md R121. Only an index of `DEV.LOAD` and a
family id of `CM.CREATE` can be out of range; `Q.INIT` with a bad capacity fails by its own rule and `HS.REQUEST` with
a bad index is ignored, so both are well formed. An ill-formed instruction still has an encoding and a meaning (the
refusal `BadIndex`). And well-formed configurations: the constraints of 00_scope.md R9 and 30_encoding.md R111. The
configuration after reset meets them; an ill-formed one has the meaning the rules give it (44_device.md R232: a bad
`CAP[f]` makes every load fail).
-/

namespace Sys2Proof

/-- The operand of `DEV.LOAD` and `CM.CREATE` is below `NDEV` (R121, R231, R181). -/
def Instr.wellFormed (c : Config) : Instr → Bool
  | .devLoad i => decide (i.toNat < c.devTab.length)
  | .cmCreate f => decide (f.toNat < c.devTab.length)
  | .qInit _ | .qPush _ | .qPop | .qIsFull | .qIsEmpty => true
  | .decCovox _ | .decStereo1 _ | .decDss _ | .decFtl _ | .decOpl2 _ | .decTandy _ | .decCms _ => true
  | .cmWrite _ _ | .cmSample | .cmDestroy => true
  | .slHead | .slDrain | .slSample | .slStall | .slPush | .slExit => true
  | .devUnload | .devGen => true
  | .olSwapchk | .olGetblk | .olFrame | .olSubmit => true
  | .hostStrobe _ | .sinkReady | .hsRequest _ => true

/-- Bit `j` lies in the data field of a layout, `data_lsb + 7 : data_lsb` (R111). -/
def Layout.inData (l : Layout) (j : Nat) : Bool := decide (l.dataLsb ≤ j) && decide (j ≤ l.dataLsb + 7)

/-- The constraints on a layout (R111, R9): the data field and both control bits inside 31:0, the control bits outside
the data field and different from each other. -/
def Layout.wellFormed (l : Layout) : Bool :=
  decide (l.dataLsb ≤ 24) && decide (l.ctlA ≤ 31) && decide (l.ctlB ≤ 31) && !l.inData l.ctlA && !l.inData l.ctlB &&
    decide (l.ctlA ≠ l.ctlB)

/-- A power of two (R131, D8: 1 is one, 0 is none). -/
def powerOfTwo (n : Nat) : Bool := decide (n = 2 ^ n.log2)

/-- The constraints on the parameters of one family (R9): its layout, and `CAP[f]` a power of two not above `C_MAX`. -/
def FamilyConfig.wellFormed (cMax : Nat) (fc : FamilyConfig) : Bool :=
  fc.layout.wellFormed && powerOfTwo fc.cap.toNat && decide (fc.cap.toNat ≤ cMax)

/-- The parameters of the seven families, in the order of R3. -/
def Config.families (c : Config) : List FamilyConfig :=
  [c.covox, c.stereoOnOne, c.dss, c.ftl, c.opl2lpt, c.tandy, c.gameBlaster]

/-- The constraints of R9: `C_MAX` a power of two of at least 4 (D8), at least one frame in a block, `DEFAULT_INDEX` in
the device table, and those on every family. -/
def Config.wellFormed (c : Config) : Bool :=
  powerOfTwo c.cMax && decide (4 ≤ c.cMax) && decide (1 ≤ c.blockFrames) &&
    decide (Config.defaultIndex < c.devTab.length) && c.families.all fun fc => fc.wellFormed c.cMax

end Sys2Proof
end

