-- ==== Sys2Proof/Certificates/Slice0/Obligations.lean ====
section
/-!
DEFINITION. The statements for the provers. Each says which rule of spec/ it formalises, or that it rests on a choice
of the model, with the log entry.
-/

open Sys2Proof Sys2Proof.Machine

/-! ### Terms the statements use -/

/-- The packed decoded write of R115: `payload + 256 kind + 512 unit + 1024 chan`. -/
def Sys2Proof.Claims.decodedVal (p : Byte) (latch unit chan : Bool) : BitVec 32 :=
  BitVec.ofNat 32 (p.toNat + 256 * latch.toNat + 512 * unit.toNat + 1024 * chan.toNat)

/-- `w[data_lsb + 7 : data_lsb]` (R111). -/
def Sys2Proof.Claims.payloadOf (fc : FamilyConfig) (w : BusWord) : Byte := (w >>> fc.layout.dataLsb).setWidth 8

/-- `w[ctl_a] xor POL_A` (R111). -/
def Sys2Proof.Claims.logicalA (fc : FamilyConfig) (w : BusWord) : Bool := w.getLsbD fc.layout.ctlA != fc.polA

/-- `w[ctl_b] xor POL_B` (R111). -/
def Sys2Proof.Claims.logicalB (fc : FamilyConfig) (w : BusWord) : Bool := w.getLsbD fc.layout.ctlB != fc.polB

/-- The table of R210 for the three SL families: `SL` after applying the decoded write `d`, the chip being `x`. -/
def Sys2Proof.Claims.appliedSynth (c : Config) (d : BusWrite) (l : Synth) (x : Chip) : Synth :=
  match l.fam, d.kind with
  | .opl2lpt, .latch => { l with curReg0 := d.payload }
  | .opl2lpt, .data =>
    { l with chip := some (chipAfterWrite c (BitVec.ofNat 16 l.curReg0.toNat) d.payload x) }
  | .gameBlaster, .latch =>
    if d.unit then { l with curReg1 := d.payload } else { l with curReg0 := d.payload }
  | .gameBlaster, .data =>
    let reg := if d.unit then l.curReg1 else l.curReg0
    { l with chip := some (chipAfterWrite c (BitVec.ofNat 16 (2 * reg.toNat + d.unit.toNat)) d.payload x) }
  | _, _ => { l with chip := some (chipAfterWrite c 0#16 d.payload x) }

/-- `cap` is admitted by `Q.INIT` (R131): a power of two, not 0, not above `C_MAX`. -/
def Sys2Proof.Claims.goodCapacity (cMax : Nat) (cap : BitVec 32) : Prop :=
  (∃ k, cap.toNat = 2 ^ k) ∧ cap.toNat ≤ cMax

/-- The Output Loop is the queue's active consumer: its current device is queue-fed, in any phase (R350, R44). -/
def Sys2Proof.Claims.consumed (s : State) : Prop :=
  ∃ i f, s.dm.current = some i ∧ s.cfg.devTab[i]? = some f ∧ hasSL s.cfg f = true

/-- The state in which agent `a` issues the step word. -/
def Sys2Proof.Claims.issuedBy (a : Agent) (s : State) : State := { s with env := { s.env with issuer := a } }

/-- A sequence of queue operations run by `exec`, `some v` a push by the producer and `none` a pop by the consumer, with
the samples pushed and popped successfully; none if one of them does not answer a next state. -/
def Sys2Proof.Claims.queueRun : List (Option Sample) → State → List Sample → List Sample →
    Option (List Sample × List Sample × State)
  | [], s, pushed, popped => some (pushed, popped, s)
  | some v :: ops, s, pushed, popped =>
    match exec (.qPush v) (Sys2Proof.Claims.issuedBy .synthesisLoop s) with
    | .next t =>
      Sys2Proof.Claims.queueRun ops t (if t.env.report = .returned true none then pushed ++ [v] else pushed) popped
    | _ => none
  | none :: ops, s, pushed, popped =>
    match exec .qPop (Sys2Proof.Claims.issuedBy .outputLoop s) with
    | .next t =>
      Sys2Proof.Claims.queueRun ops t pushed
        (match t.env.report with
          | .returned true (some x) => popped ++ [x.setWidth 16]
          | _ => popped)
    | _ => none

open Sys2Proof.Claims

/-! ### Encoding and the step -/

/-- Decoding an encoded instruction gives it back, for every instruction and every operand (R101, R103). -/
def Obligations.DecodeEncodeAgree : Prop := ∀ i : Instr, decode (encode i) = .ok i

/-- A word that decodes is the encoding of its instruction, but for the bits of `arg` that its operation does not use,
which an encoder writes as 0 (R101, R103). -/
def Obligations.EncodeRestoresDecodedWord : Prop :=
  ∀ (w : StepWord) (i : Instr), decode w = .ok i → encode i = w &&& (0xFF#8 ++ usedArgBits i)

/-- R120: a step word whose `op` is not in the map of R103 is illegal, and `step` refuses it. -/
def Obligations.IllegalOpRefused : Prop :=
  ∀ s : State,
    (nextWord s).extractLsb' 32 8 ∉
      [0x00#8, 0x01#8, 0x02#8, 0x03#8, 0x04#8, 0x10#8, 0x11#8, 0x12#8, 0x13#8, 0x14#8, 0x15#8, 0x16#8,
       0x20#8, 0x21#8, 0x22#8, 0x23#8, 0x30#8, 0x31#8, 0x32#8, 0x33#8, 0x34#8, 0x35#8,
       0x40#8, 0x41#8, 0x42#8, 0x50#8, 0x51#8, 0x52#8, 0x53#8, 0x60#8, 0x61#8, 0x62#8] ↔
    step s = .refused .illegalOp

/-- Words written out from R103 and section 3 of 95_test_vectors.md decode to the instructions they stand for. -/
def Obligations.SampleWordsDecode : Prop :=
  decode 0x0000000004#40 = .ok (.qInit 4#32) ∧ decode 0x01ABCD0005#40 = .ok (.qPush 5#16) ∧
  decode 0x161CC00000#40 = .ok (.decCms 0x1CC00000#32) ∧ decode 0x2100002001#40 = .ok (.cmWrite 0x0020#16 0x01#8) ∧
  decode 0x3500000000#40 = .ok .slExit ∧ decode 0x4000000005#40 = .ok (.devLoad 5#3) ∧
  decode 0x5200000000#40 = .ok .olFrame ∧ decode 0x6200000007#40 = .ok (.hsRequest 7#3)

/-- A step runs the decoded instruction: when the next step word decodes to `i`, step is `exec i` at the state after the
fetch. The next word is the head of the placed words, else the free schedule's next one, and the state after the fetch
differs only in that the word is used up and its issuer is on record (R100; the placing of words is the model's,
log 1). -/
def Obligations.StepRunsDecodedInstr : Prop :=
  ∀ s : State,
    (∀ i, decode (nextWord s) = .ok i → step s = exec i (afterFetch s)) ∧
    (∀ x rest, s.env.trace = x :: rest →
      nextWord s = x.word ∧ afterFetch s = { s with env := { s.env with trace := rest, issuer := x.issuer } }) ∧
    (s.env.trace = [] →
      nextWord s = Config.scheduleWord s.env.turn ∧
        afterFetch s = { s with env := { s.env with turn := s.env.turn + 1,
                                                    issuer := Config.scheduleIssuer s.env.turn } })

/-! ### The queue -/

/-- R131: `Q.INIT` re-initialises the queue and answers ok, leaving the buffer, or, for a capacity that is no power of
two or above the hard maximum, answers a failure and changes nothing. Beside an active producer or consumer it is
refused, with a bad capacity too: the model's reading of R350 and U19 and its order of the tests (logs 11, 23). -/
def Obligations.QInitReinitialisesOrFails : Prop :=
  ∀ (cap : BitVec 32) (s : State), owned (.qInit cap) s →
    (s.sl.state = .stopped → ¬ consumed s → goodCapacity s.cfg.cMax cap → exec (.qInit cap) s =
      .next (State.setReport
        { s with sq := { cap := some cap.toNat, head := 0, tail := 0, full := false, buf := s.sq.buf } }
        (.returned true none))) ∧
    (s.sl.state = .stopped → ¬ consumed s → ¬ goodCapacity s.cfg.cMax cap →
      exec (.qInit cap) s = .next (s.setReport (.returned false none))) ∧
    (s.sl.state ≠ .stopped ∨ consumed s → exec (.qInit cap) s = .refused .notOwner)

/-- R132: a push on a full queue fails and changes nothing; otherwise it stores the sample at `head`, advances `head`
modulo the capacity and sets `full` exactly when `head` meets `tail`; every other entry reads as before. Before any
`Q.INIT` it is refused. -/
def Obligations.QPushStoresAtHead : Prop :=
  ∀ (v : Sample) (s : State), owned (.qPush v) s →
    (s.sq.cap = none → exec (.qPush v) s = .refused .queueUninit) ∧
    ∀ c, s.sq.cap = some c →
      (s.sq.full = true → exec (.qPush v) s = .next (s.setReport (.returned false none))) ∧
      (s.sq.full = false →
        ∃ m : Memory, (∀ k, m.read? k = if k = s.sq.head then some v else s.sq.buf.read? k) ∧
          exec (.qPush v) s =
            .next (State.setReport
              { s with sq := { cap := some c, head := (s.sq.head + 1) % c, tail := s.sq.tail,
                               full := decide ((s.sq.head + 1) % c = s.sq.tail), buf := m } }
              (.returned true none)))

/-- R133: a pop on an empty queue returns none and changes nothing; otherwise it returns the entry at `tail`, advances
`tail` modulo the capacity and clears `full`; the buffer and `head` stay. Before any `Q.INIT` it is refused. The value
of an entry that nothing has written is free (log 8). -/
def Obligations.QPopReturnsOldest : Prop :=
  ∀ s : State, owned .qPop s →
    (s.sq.cap = none → exec .qPop s = .refused .queueUninit) ∧
    ∀ c, s.sq.cap = some c →
      (s.sq.head = s.sq.tail ∧ s.sq.full = false → exec .qPop s = .next (s.setReport (.returned false none))) ∧
      (¬ (s.sq.head = s.sq.tail ∧ s.sq.full = false) →
        ∃ v : Sample, (∀ x, s.sq.buf.read? s.sq.tail = some x → v = x) ∧
          exec .qPop s =
            .next (State.setReport { s with sq := { s.sq with tail := (s.sq.tail + 1) % c, full := false } }
              (.returned true (some (v.setWidth 32)))))

/-- R134, R135: the two predicates answer `full` and `head == tail and full == 0`, and write nothing; before any
`Q.INIT` they are refused. -/
def Obligations.QueuePredicatesAnswer : Prop :=
  ∀ s : State,
    (s.sq.cap = none → (owned .qIsFull s → exec .qIsFull s = .refused .queueUninit) ∧
      (owned .qIsEmpty s → exec .qIsEmpty s = .refused .queueUninit)) ∧
    (∀ c, s.sq.cap = some c →
      (owned .qIsFull s → exec .qIsFull s = .next (s.setReport (.returned s.sq.full none))) ∧
      (owned .qIsEmpty s → exec .qIsEmpty s =
        .next (s.setReport (.returned (decide (s.sq.head = s.sq.tail ∧ s.sq.full = false)) none))))

/-- R23 (c), R24, R132, R133, R135: in a sound queue the occupancy is at most the capacity, `is_full` and `is_empty`
say that it is the capacity and 0, a successful push adds exactly one and a successful pop takes exactly one. -/
def Obligations.QueueCountTracksOperations : Prop :=
  ∀ (s : State) (c : Nat), queueSound s → s.sq.cap = some c →
    s.sq.count ≤ c ∧ (s.sq.isFull = true ↔ s.sq.count = c) ∧ (s.sq.isEmpty = true ↔ s.sq.count = 0) ∧
    (∀ v t, exec (.qPush v) s = .next t → t.env.report = .returned true none →
      t.sq.count = s.sq.count + 1 ∧ t.sq.tail = s.sq.tail) ∧
    (∀ x t, exec .qPop s = .next t → t.env.report = .returned true (some x) →
      t.sq.count + 1 = s.sq.count ∧ t.sq.head = s.sq.head)

/-- R23: every step of the machine, an operation issued directly among them, keeps the queue invariants (a) to (d). -/
def Obligations.QueueSoundKept : Prop := ∀ s t : State, queueSound s → step s = .next t → queueSound t

/-- The queue invariants hold after reset (R23, R340). -/
def Obligations.QueueSoundAtReset : Prop := queueSound State.reset

/-- R23 (d), R138: on a sound queue a successful push appends to the samples in the queue and a successful pop returns
and removes the oldest of them. -/
def Obligations.QueueRefinesFifoList : Prop :=
  ∀ s : State, queueSound s →
    (∀ v t, exec (.qPush v) s = .next t → t.env.report = .returned true none →
      t.sq.contents = s.sq.contents ++ [v]) ∧
    (∀ x t, exec .qPop s = .next t → t.env.report = .returned true (some x) →
      s.sq.contents = x.setWidth 16 :: t.sq.contents)

/-- R138: from an initialised empty queue, whatever pushes of the producer and pops of the consumer follow, in any
interleaving, the popped samples are the pushed ones in push order, and what is not popped yet is what the queue holds. -/
def Obligations.QueueFifoLaw : Prop :=
  ∀ (ops : List (Option Sample)) (s : State), queueSound s → s.sq.cap.isSome = true → s.sq.count = 0 →
    ∃ pushed popped t, queueRun ops s [] [] = some (pushed, popped, t) ∧ pushed = popped ++ t.sq.contents

/-! ### The decoders -/

/-- R153 to R159 with R111 and R115: each decoder operation returns ok and the packed decoded write, and writes no
state. -/
def Obligations.DecodersReturnDecodedWrite : Prop :=
  ∀ (w : BusWord) (s : State),
    (owned (.decCovox w) s → exec (.decCovox w) s =
      .next (s.setReport (.returned true (some (decodedVal (payloadOf s.cfg.covox w) false false false))))) ∧
    (owned (.decStereo1 w) s → exec (.decStereo1 w) s =
      .next (s.setReport (.returned true (some (decodedVal (payloadOf s.cfg.stereoOnOne w) false false
        (logicalA s.cfg.stereoOnOne w)))))) ∧
    (owned (.decDss w) s → exec (.decDss w) s =
      .next (s.setReport (.returned true (some (decodedVal (payloadOf s.cfg.dss w) false false false))))) ∧
    (owned (.decFtl w) s → exec (.decFtl w) s =
      .next (s.setReport (.returned true (some (decodedVal (payloadOf s.cfg.ftl w) false false false))))) ∧
    (owned (.decOpl2 w) s → exec (.decOpl2 w) s =
      .next (s.setReport (.returned true (some (decodedVal (payloadOf s.cfg.opl2lpt w)
        (logicalA s.cfg.opl2lpt w) false false))))) ∧
    (owned (.decTandy w) s → exec (.decTandy w) s =
      .next (s.setReport (.returned true (some (decodedVal (payloadOf s.cfg.tandy w) false false false))))) ∧
    (owned (.decCms w) s → exec (.decCms w) s =
      .next (s.setReport (.returned true (some (decodedVal (payloadOf s.cfg.gameBlaster w)
        (logicalA s.cfg.gameBlaster w) (logicalB s.cfg.gameBlaster w) false)))))

/-- R162 (b) to (e): the payload depends only on the eight data bits, the other fields only on the control bits that the
table of R161 names for the family (none for Covox, DSS, FTL and Tandy, `A` alone for StereoOnOne and OPL2LPT, both for
GameBlaster), so bits outside the layout's fields never matter; and, for a layout within the constraints of R111,
flipping `POL_A` is flipping the raw bit `ctl_a` of every word. -/
def Obligations.DecoderFieldLaws : Prop :=
  ∀ (c : Config) (f : Family) (w w' : BusWord),
    let l := (familyConfig c f).layout
    ((∀ j, j < 8 → w.getLsbD (l.dataLsb + j) = w'.getLsbD (l.dataLsb + j)) →
      (busDecode c f w).payload = (busDecode c f w').payload) ∧
    ((f ∈ [Family.stereoOnOne, .opl2lpt, .gameBlaster] → w.getLsbD l.ctlA = w'.getLsbD l.ctlA) →
      (f = .gameBlaster → w.getLsbD l.ctlB = w'.getLsbD l.ctlB) →
      (busDecode c f w).kind = (busDecode c f w').kind ∧ (busDecode c f w).unit = (busDecode c f w').unit ∧
        (busDecode c f w).chan = (busDecode c f w').chan) ∧
    (∀ c', familyConfig c' f = { familyConfig c f with polA := !(familyConfig c f).polA } →
      l.wellFormed = true →
      busDecode c' f w = busDecode c f (w ^^^ (1#32 <<< l.ctlA)))

/-! ### The chip model adapter -/

/-- R181: `CM.CREATE` of an SL family whose id is below `NDEV`, with no chip model and the loop STOPPED, constructs the
chip model when the draw is true and changes nothing but the draws when it is false; a bad index is refused, and so is
a precondition that does not hold (the name of that refusal is the model's, log 12, and so is it that a bad index is
tested first, log 23). -/
def Obligations.CmCreateConstructsOrFails : Prop :=
  ∀ (k : BitVec 3) (s : State), owned (.cmCreate k) s →
    ((∀ f, familyId f = k.toNat → nDev s.cfg ≤ k.toNat ∨ hasSL s.cfg f = false) →
      exec (.cmCreate k) s = .refused .badIndex) ∧
    ∀ f, familyId f = k.toNat → k.toNat < nDev s.cfg → hasSL s.cfg f = true →
      (¬ (s.sl.chip = none ∧ s.sl.state = .stopped) → exec (.cmCreate k) s = .refused .precondition) ∧
      (s.sl.chip = none → s.sl.state = .stopped →
        ((drawBool s).1 = true → exec (.cmCreate k) s =
          .next (State.setReport
            { s with sl := { s.sl with chip := some (chipNew s.cfg f) }, env := (drawBool s).2.env }
            (.returned true none))) ∧
        ((drawBool s).1 = false → exec (.cmCreate k) s =
          .next (State.setReport { s with env := (drawBool s).2.env } (.returned false none))))

/-- R182, R184: `CM.WRITE` writes the chip model through `cm_write` and answers ok, without advancing its clock;
`CM.DESTROY` removes it; both change `SL.chip` alone; without a chip model both are refused (log 12). The family whose
`cm_write` it is is the chip model's own, where R182 writes `SL.fam` (log 5). -/
def Obligations.CmWriteAndDestroyTouchChipOnly : Prop :=
  ∀ (a : BitVec 16) (d : Byte) (s : State),
    (∀ x, s.sl.chip = some x →
      (owned (.cmWrite a d) s → exec (.cmWrite a d) s =
        .next (State.setReport { s with sl := { s.sl with chip := some (chipAfterWrite s.cfg a d x) } }
          (.returned true none))) ∧
      ((chipAfterWrite s.cfg a d x).units.unit0.samples = x.units.unit0.samples ∧
        (chipAfterWrite s.cfg a d x).units.unit1.samples = x.units.unit1.samples) ∧
      (owned .cmDestroy s → exec .cmDestroy s =
        .next (State.setReport { s with sl := { s.sl with chip := none } } (.returned true none)))) ∧
    (s.sl.chip = none → (owned (.cmWrite a d) s → exec (.cmWrite a d) s = .refused .precondition) ∧
      (owned .cmDestroy s → exec .cmDestroy s = .refused .precondition))

/-- R183, R185: `CM.SAMPLE` advances the chip model by one `cm_sample` and returns the first sample in `val[15:0]` and,
for `NCH = 2`, the second in `val[31:16]`; the family is the chip model's own (log 5). The external chip model's clock
moves by exactly one sample, that of both sub-units in the same call for GameBlaster. Without a chip model it is refused
(the name of that refusal is the model's, log 12). -/
def Obligations.CmSampleAdvancesChip : Prop :=
  ∀ s : State, owned .cmSample s →
    (s.sl.chip = none → exec .cmSample s = .refused .precondition) ∧
    ∀ x, s.sl.chip = some x →
      ∃ v : BitVec 32, v.extractLsb' 0 16 = (chipOut s.cfg x).1 ∧
        v.extractLsb' 16 16 = (if (familyConfig s.cfg x.fam).nch = .stereo then (chipOut s.cfg x).2 else 0#16) ∧
        exec .cmSample s =
          .next (State.setReport { s with sl := { s.sl with chip := some (chipAfterSample s.cfg x) } }
            (.returned true (some v))) ∧
        ((familyConfig s.cfg x.fam).chip = .external →
          (chipAfterSample s.cfg x).units.unit0.samples = x.units.unit0.samples + 1 ∧
          (x.fam = .gameBlaster →
            (chipAfterSample s.cfg x).units.unit1.samples = x.units.unit1.samples + 1))

/-- R185: a write to the GameBlaster chip model changes only the sub-unit that bit 0 of the address selects. -/
def Obligations.DualChipWriteChangesOneUnit : Prop :=
  ∀ (a : BitVec 16) (d : Byte) (s t : State) (x : Chip), s.sl.chip = some x → x.fam = .gameBlaster →
    s.cfg.gameBlaster.chip = .external → exec (.cmWrite a d) s = .next t →
    ∃ y, t.sl.chip = some y ∧ y.fam = .gameBlaster ∧
      (a.getLsbD 0 = false → y.units.unit1 = x.units.unit1) ∧ (a.getLsbD 0 = true → y.units.unit0 = x.units.unit0)

/-- R190: the stub chip is created `{0, 0}`; a write sets `last = {reg, d}` of the unit it goes to, with `reg` the
address bits 7:0 for `NCH = 1`, and for `NCH = 2` the bits 8:1 and the unit bit 0; a sample counts `n` up in every unit
and returns `last + n + 1` of each, unit 0 first. -/
def Obligations.StubChipFollowsItsDefinition : Prop :=
  ∀ (c : Config) (f : Family) (last0 n0 last1 n1 a : BitVec 16) (d : Byte), (familyConfig c f).chip = .stub →
    let x : Chip := { fam := f, units := { unit0 := stubUnit last0 n0, unit1 := stubUnit last1 n1 } }
    chipNew c f = { fam := f, units := { unit0 := stubUnit 0#16 0#16, unit1 := stubUnit 0#16 0#16 } } ∧
    (chipOut c x).1 = last0 + n0 + 1#16 ∧
    ((familyConfig c f).nch = .mono →
      chipAfterWrite c a d x = { x with units := { x.units with unit0 := stubUnit (a.extractLsb' 0 8 ++ d) n0 } } ∧
      chipAfterSample c x = { x with units := { x.units with unit0 := stubUnit last0 (n0 + 1#16) } }) ∧
    ((familyConfig c f).nch = .stereo →
      (a.getLsbD 0 = false → chipAfterWrite c a d x =
        { x with units := { x.units with unit0 := stubUnit (a.extractLsb' 1 8 ++ d) n0 } }) ∧
      (a.getLsbD 0 = true → chipAfterWrite c a d x =
        { x with units := { x.units with unit1 := stubUnit (a.extractLsb' 1 8 ++ d) n1 } }) ∧
      chipAfterSample c x = { x with units := { unit0 := stubUnit last0 (n0 + 1#16)
                                                unit1 := stubUnit last1 (n1 + 1#16) } } ∧
      (chipOut c x).2 = last1 + n1 + 1#16)

/-! ### The Synthesis Loop -/

/-- R201, R202: `SL.HEAD` enters DRAIN; `SL.DRAIN` with no word pending enters SAMPLE; nothing else changes. -/
def Obligations.SlHeadAndIdleDrainAdvancePhase : Prop :=
  ∀ s : State, s.sl.state = .running →
    (s.sl.phase = .head → owned .slHead s →
      exec .slHead s = .next (State.setReport { s with sl := { s.sl with phase := .drain } } .nothing)) ∧
    (s.sl.phase = .drain → (s.dev.handle = .none ∨ s.bsr.pending = []) → owned .slDrain s →
      exec .slDrain s = .next (State.setReport { s with sl := { s.sl with phase := .sample } } .nothing))

/-- R202, R205, R210: with a word pending under a held handle, `SL.DRAIN`, and `SL.STALL` on a full queue, take the
oldest word and apply what the wired decoder makes of it: a latch write sets one current register, a data write is one
`CM.WRITE` at the family's address; the phase and the pending samples stay. -/
def Obligations.PendingWordIsApplied : Prop :=
  ∀ (s : State) (w : BusWord) (rest : List BusWord) (x : Chip), s.sl.state = .running →
    s.sl.fam ∈ [Family.opl2lpt, .tandy, .gameBlaster] → s.dev.handle = .acquired → s.bsr.pending = w :: rest →
    s.sl.chip = some x →
    let t : State := State.setReport
      { s with bsr := { pending := rest }, sl := appliedSynth s.cfg (busDecode s.cfg s.dev.decFam w) s.sl x } .nothing
    (s.sl.phase = .drain → owned .slDrain s → exec .slDrain s = .next t) ∧
    (s.sl.phase = .stall → s.sq.full = true → owned .slStall s → exec .slStall s = .next t)

/-- R186 (latch idempotence), R210: a taken word that decodes to a latch write never reaches the chip model, in either
loop of an addressed family. -/
def Obligations.LatchWriteNeverReachesChip : Prop :=
  ∀ (i : Instr) (s t : State) (w : BusWord) (rest : List BusWord), i = .slDrain ∨ i = .slStall →
    s.sl.fam = .opl2lpt ∨ s.sl.fam = .gameBlaster → s.bsr.pending = w :: rest →
    (busDecode s.cfg s.dev.decFam w).kind = .latch → exec i s = .next t → t.sl.chip = s.sl.chip

/-- R203: `SL.SAMPLE` is one `CM.SAMPLE`, whose samples, left first, become the pending ones; no stop check. -/
def Obligations.SlSampleFillsPending : Prop :=
  ∀ (s : State) (x : Chip), owned .slSample s → s.sl.state ≠ .stopped → s.sl.phase = .sample →
    s.sl.chip = some x → x.fam = s.sl.fam →
    exec .slSample s =
      .next (State.setReport
        { s with sl := { s.sl with chip := some (chipAfterSample s.cfg x), phase := .stall
                                   pend := if (familyConfig s.cfg s.sl.fam).nch = .stereo then
                                       [(chipOut s.cfg x).1, (chipOut s.cfg x).2] else [(chipOut s.cfg x).1] } }
        .nothing)

/-- R204, R205: a stall poll that finds space enters PUSH, also when the stop signal is set; with the queue full, the
loop RUNNING and nothing pending it holds and changes nothing (that a step that holds answers a next state with a report
is the model's choice, log 9). -/
def Obligations.SlStallPushesOrHolds : Prop :=
  ∀ s : State, owned .slStall s → s.sl.phase = .stall →
    (s.sl.state ≠ .stopped → s.sq.full = false →
      exec .slStall s = .next (State.setReport { s with sl := { s.sl with phase := .push } } .nothing)) ∧
    (s.sl.state = .running → s.sq.full = true → (s.dev.handle = .none ∨ s.bsr.pending = []) →
      exec .slStall s = .next (s.setReport (.held .queueFull)))

/-- R206: `SL.PUSH` pushes the first pending sample, drops it from the pending ones, and goes on at HEAD or, with a
sample left, at STALL; a full queue drops the sample and the loop goes on. Before any `Q.INIT` the push is refused.
With no sample pending, a state no run has, the step runs the same way and the sample is a free value (log 17). -/
def Obligations.SlPushMovesPendingSample : Prop :=
  ∀ s : State, owned .slPush s → s.sl.state ≠ .stopped → s.sl.phase = .push →
    (s.sq.cap = none → exec .slPush s = .refused .queueUninit) ∧
    ∀ c, s.sq.cap = some c →
      (∀ v rest, s.sl.pend = v :: rest →
        let l : Synth := { s.sl with pend := rest, phase := if rest = [] then .head else .stall }
        (s.sq.full = true → exec .slPush s = .next (State.setReport { s with sl := l } .nothing)) ∧
        (s.sq.full = false →
          ∃ m : Memory, (∀ k, m.read? k = if k = s.sq.head then some v else s.sq.buf.read? k) ∧
            exec .slPush s =
              .next (State.setReport
                { s with sl := l,
                         sq := { cap := some c, head := (s.sq.head + 1) % c, tail := s.sq.tail,
                                 full := decide ((s.sq.head + 1) % c = s.sq.tail), buf := m } } .nothing))) ∧
      (s.sl.pend = [] →
        ∃ (v : Sample) (q : Queue) (n : Nat),
          (s.sq.full = true → q = s.sq) ∧
          (s.sq.full = false →
            q.cap = some c ∧ q.head = (s.sq.head + 1) % c ∧ q.tail = s.sq.tail ∧
              q.full = decide ((s.sq.head + 1) % c = s.sq.tail) ∧
              ∀ k, q.buf.read? k = if k = s.sq.head then some v else s.sq.buf.read? k) ∧
          exec .slPush s =
            .next (State.setReport
              { s with sl := { s.sl with phase := .head }, sq := q, env := { s.env with drawn := n } } .nothing))

/-- R207: at a stop-check point of a STOPPING loop `SL.EXIT` destroys the chip model, discards pending samples and
stops the loop; the queue and the latches stay. -/
def Obligations.SlExitStopsLoop : Prop :=
  ∀ s : State, owned .slExit s → s.sl.state = .stopping →
    (s.sl.phase = .head ∨ s.sl.phase = .drain ∨ (s.sl.phase = .stall ∧ s.sq.full = true)) →
    exec .slExit s =
      .next (State.setReport
        { s with sl := { s.sl with chip := none, pend := [], phase := .head, state := .stopped } } .nothing)

/-- R201 to R208, R261 to R268, R281: an agent step outside its enabling condition changes nothing. That it answers a
next state with a report, and is no refusal, is the model's choice (log 9). -/
def Obligations.StepsNotEnabledChangeNothing : Prop :=
  ∀ s : State,
    (¬ (s.sl.state = .running ∧ s.sl.phase = .head) → owned .slHead s →
      exec .slHead s = .next (s.setReport .notEnabled)) ∧
    (¬ (s.sl.state = .running ∧ s.sl.phase = .drain) → owned .slDrain s →
      exec .slDrain s = .next (s.setReport .notEnabled)) ∧
    (¬ (s.sl.state ≠ .stopped ∧ s.sl.phase = .sample) → owned .slSample s →
      exec .slSample s = .next (s.setReport .notEnabled)) ∧
    (¬ (s.sl.state ≠ .stopped ∧ s.sl.phase = .stall ∧ (s.sl.state = .running ∨ s.sq.full = false)) →
      owned .slStall s → exec .slStall s = .next (s.setReport .notEnabled)) ∧
    (¬ (s.sl.state ≠ .stopped ∧ s.sl.phase = .push) → owned .slPush s →
      exec .slPush s = .next (s.setReport .notEnabled)) ∧
    (¬ (s.sl.state = .stopping ∧
        (s.sl.phase = .head ∨ s.sl.phase = .drain ∨ (s.sl.phase = .stall ∧ s.sq.full = true))) →
      owned .slExit s → exec .slExit s = .next (s.setReport .notEnabled)) ∧
    (s.ol.phase ≠ .fault → s.ol.phase ≠ .swap → owned .olSwapchk s →
      exec .olSwapchk s = .next (s.setReport .notEnabled)) ∧
    (s.ol.phase ≠ .fault → s.ol.phase ≠ .getblk → owned .olGetblk s →
      exec .olGetblk s = .next (s.setReport .notEnabled)) ∧
    (s.ol.phase ≠ .fault → s.ol.phase ≠ .fill ∨ loadedFamily s = none → owned .olFrame s →
      exec .olFrame s = .next (s.setReport .notEnabled)) ∧
    (s.ol.phase ≠ .fault → s.ol.phase ≠ .submit → owned .olSubmit s →
      exec .olSubmit s = .next (s.setReport .notEnabled)) ∧
    (∀ w, s.dev.samplingEn = false → owned (.hostStrobe w) s →
      exec (.hostStrobe w) s = .next (s.setReport .notEnabled))

/-- R30, R211: in every step `SL.state` stays, or goes STOPPED to RUNNING, RUNNING to STOPPING, or STOPPING to STOPPED;
there is no other transition. -/
def Obligations.LoopStateTransitions : Prop :=
  ∀ s t : State, step s = .next t →
    t.sl.state = s.sl.state ∨ (s.sl.state = .stopped ∧ t.sl.state = .running) ∨
      (s.sl.state = .running ∧ t.sl.state = .stopping) ∨ (s.sl.state = .stopping ∧ t.sl.state = .stopped)

/-! ### The device contract -/

/-- R232: a load of an SL family whose draws succeed claims the resource, wires the decoder, initialises the queue,
constructs the chip model, draws the latches, enables sampling and starts the loop; `DM`, `OL`, `ERR` and the sink
stay. That the chip model is constructed also where a short device table holds a family whose id is not below `NDEV` is
the model's choice (log 22); R181 refuses such a `CM.CREATE`. -/
def Obligations.LoadStartsSynthesisLoop : Prop :=
  ∀ (k : BitVec 3) (f : Family) (s : State), owned (.devLoad k) s → s.cfg.devTab[k.toNat]? = some f →
    hasSL s.cfg f = true → s.dm.current = none → s.dev.handle = .none → s.sl.state = .stopped → s.sl.chip = none →
    goodCapacity s.cfg.cMax (familyConfig s.cfg f).cap →
    (drawBool s).1 = true → (drawBool (drawBool s).2).1 = true →
    let s2 := (drawBool (drawBool s).2).2
    let s3 := (drawByte s2).2
    exec (.devLoad k) s =
      .next (State.setReport
        { s with
          sq := { cap := some (familyConfig s.cfg f).cap.toNat, head := 0, tail := 0, full := false, buf := s.sq.buf }
          sl := { state := .running, phase := .head, fam := f, curReg0 := (drawByte s2).1, curReg1 := (drawByte s3).1,
                  chip := some (chipNew s.cfg f), pend := [] }
          dev := { handle := .acquired, samplingEn := true, pinsInit := true, decFam := f, holdL := 0#16,
                   holdR := 0#16 }
          bsr := { pending := [] }
          env := (drawByte s3).2.env }
        (.returned true none))

/-- R232, R233, R301, R302: a load whose `acquire` fails records ResourceExhausted and claims nothing; a load of an SL
family whose `Q.INIT` or chip construction fails records InitFailure and gives back everything it claimed. A load that
reaches `CM.CREATE` beside a chip model that a harness created is refused (log 16). That a load reaches the construction
also where a short device table holds a family whose id is not below `NDEV` is the model's choice (log 22). -/
def Obligations.FailedLoadReleasesEverything : Prop :=
  ∀ (k : BitVec 3) (f : Family) (s : State), owned (.devLoad k) s → s.cfg.devTab[k.toNat]? = some f →
    s.dm.current = none → s.dev.handle = .none → s.sl.state = .stopped →
    ((drawBool s).1 = false →
      exec (.devLoad k) s =
        .next (State.setReport { s with err := { s.err with cause := 1#3 }, env := (drawBool s).2.env }
          (.returned false none))) ∧
    (hasSL s.cfg f = true → (drawBool s).1 = true →
      let released : State :=
        { s with sl := { s.sl with chip := none }
                 dev := { s.dev with handle := .none, samplingEn := false, pinsInit := false, decFam := f }
                 bsr := { pending := [] }
                 err := { s.err with cause := 5#3 } }
      (¬ goodCapacity s.cfg.cMax (familyConfig s.cfg f).cap →
        exec (.devLoad k) s =
          .next (State.setReport { released with env := (drawBool s).2.env } (.returned false none))) ∧
      (goodCapacity s.cfg.cMax (familyConfig s.cfg f).cap → s.sl.chip = none → (drawBool (drawBool s).2).1 = false →
        exec (.devLoad k) s =
          .next (State.setReport
            { released with
              sq := { cap := some (familyConfig s.cfg f).cap.toNat, head := 0, tail := 0, full := false,
                      buf := s.sq.buf }
              env := (drawBool (drawBool s).2).2.env } (.returned false none))) ∧
      (goodCapacity s.cfg.cMax (familyConfig s.cfg f).cap → s.sl.chip ≠ none →
        exec (.devLoad k) s = .refused .precondition))

/-- R233: a load of a synchronous family whose draw succeeds claims the resource, wires the decoder, resets the hold
registers and enables sampling; `SQ` and `SL` are not touched. -/
def Obligations.LoadSynchronousFamily : Prop :=
  ∀ (k : BitVec 3) (f : Family) (s : State), owned (.devLoad k) s → s.cfg.devTab[k.toNat]? = some f →
    hasSL s.cfg f = false → s.dm.current = none → s.dev.handle = .none → s.sl.state = .stopped →
    (drawBool s).1 = true →
    exec (.devLoad k) s =
      .next (State.setReport
        { s with
          dev := { handle := .acquired, samplingEn := true, pinsInit := true, decFam := f, holdL := 0#16,
                   holdR := 0#16 }
          bsr := { pending := [] }
          env := (drawBool s).2.env }
        (.returned true none))

/-- R231: an index outside the table is refused; a load holds while the old loop is not STOPPED (that a step that holds
answers a next state with a report is the model's choice, log 9); and beside a STOPPED loop it is refused while a device
is loaded or the handle is held (the name of that refusal and the order of the tests are the model's, log 12). -/
def Obligations.LoadAdmission : Prop :=
  ∀ (k : BitVec 3) (s : State), owned (.devLoad k) s →
    (nDev s.cfg ≤ k.toNat → exec (.devLoad k) s = .refused .badIndex) ∧
    (k.toNat < nDev s.cfg →
      (s.sl.state ≠ .stopped → exec (.devLoad k) s = .next (s.setReport (.held .loopNotStopped))) ∧
      (s.sl.state = .stopped → (s.dm.current ≠ none ∨ s.dev.handle = .acquired) →
        exec (.devLoad k) s = .refused .precondition))

/-- R236: an unload sends the stop signal to a RUNNING loop, disables sampling, releases the resource with its untaken
words and deinitialises the pins; it always answers ok, waits for nothing, and leaves `SQ`, the chip model, the pending
samples, the hold registers and `DM`. -/
def Obligations.UnloadReleasesDevice : Prop :=
  ∀ (s : State) (i : Nat), owned .devUnload s → s.dm.current = some i → s.dev.handle = .acquired →
    exec .devUnload s =
      .next (State.setReport
        { s with
          sl := { s.sl with state := if s.sl.state = .running then .stopping else s.sl.state }
          dev := { s.dev with samplingEn := false, handle := .none, pinsInit := false }
          bsr := { pending := [] } }
        (.returned true none))

/-- R236, R241, R346: without a loaded device `DEV.UNLOAD` and `DEV.GEN` are refused; the name of the refusal and the
reading of "loaded" are the model's (log 12, 13). -/
def Obligations.UnloadAndGenerateNeedDevice : Prop :=
  ∀ s : State,
    (s.dm.current = none ∨ s.dev.handle = .none → owned .devUnload s → exec .devUnload s = .refused .precondition) ∧
    (s.dm.current = none → s.dev.handle = .none → owned .devGen s → exec .devGen s = .refused .precondition)

/-- R241 with R240: `DEV.GEN` of a synchronous mono family takes at most one word, whose converted payload goes to the
hold register and to both channels; without a word it gives the held value, or 0 without HOLD. -/
def Obligations.GenerateSynchronousMono : Prop :=
  ∀ (s : State) (f : Family), owned .devGen s → loadedFamily s = some f →
    f ∈ [Family.covox, .dss, .ftl] → hasSL s.cfg f = false →
    (∀ w rest, s.dev.handle = .acquired → s.bsr.pending = w :: rest →
      let v : Sample := BitVec.ofInt 16 ((((payloadOf (familyConfig s.cfg f) w).toNat : Int) - 128) * 256)
      exec .devGen s =
        .next (State.setReport { s with bsr := { pending := rest }, dev := { s.dev with holdL := v } }
          (.returned true (some (v ++ v))))) ∧
    ((s.dev.handle = .none ∨ s.bsr.pending = []) →
      let v : Sample := if (familyConfig s.cfg f).hold = true then s.dev.holdL else 0#16
      exec .devGen s = .next (s.setReport (.returned true (some (v ++ v)))))

/-- R242 with R240: `DEV.GEN` of StereoOnOne takes at most one word, which updates one channel; a channel without a new
word gives its held value, or 0 without HOLD. -/
def Obligations.GenerateSynchronousStereo : Prop :=
  ∀ s : State, owned .devGen s → loadedFamily s = some .stereoOnOne → hasSL s.cfg .stereoOnOne = false →
    let held (v : Sample) : Sample := if s.cfg.stereoOnOne.hold = true then v else 0#16
    (∀ w rest, s.dev.handle = .acquired → s.bsr.pending = w :: rest →
      let v : Sample := BitVec.ofInt 16 ((((payloadOf s.cfg.stereoOnOne w).toNat : Int) - 128) * 256)
      (logicalA s.cfg.stereoOnOne w = false → exec .devGen s =
        .next (State.setReport { s with bsr := { pending := rest }, dev := { s.dev with holdL := v } }
          (.returned true (some (held s.dev.holdR ++ v))))) ∧
      (logicalA s.cfg.stereoOnOne w = true → exec .devGen s =
        .next (State.setReport { s with bsr := { pending := rest }, dev := { s.dev with holdR := v } }
          (.returned true (some (v ++ held s.dev.holdL)))))) ∧
    ((s.dev.handle = .none ∨ s.bsr.pending = []) →
      exec .devGen s =
        .next (s.setReport (.returned true (some (held s.dev.holdR ++ held s.dev.holdL)))))

/-- R243, R244: `DEV.GEN` of a mono SL family pops one sample for both channels, and holds while the queue is empty. That
the rule is chosen by `NCH`, for any SL family, is the model's reading (log 19), and that a step that holds answers a
next state with a report its choice (log 9). -/
def Obligations.GenerateQueueMono : Prop :=
  ∀ (s : State) (f : Family), owned .devGen s → loadedFamily s = some f →
    hasSL s.cfg f = true → (familyConfig s.cfg f).nch = .mono →
    (∀ c v, s.sq.cap = some c → s.sq.count ≠ 0 → queueSound s → s.sq.buf.read? s.sq.tail = some v → exec .devGen s =
      .next (State.setReport { s with sq := { s.sq with tail := (s.sq.tail + 1) % c, full := false } }
        (.returned true (some (v ++ v))))) ∧
    (s.sq.head = s.sq.tail → s.sq.full = false → exec .devGen s = .next (s.setReport (.held .queueEmpty)))

/-- R244, R245: `DEV.GEN` of a stereo SL family makes two pops, left then right; it holds before the left pop on an empty
queue, ends after the left pop when no right sample is there, and completes from there with the right one. That the rule
is chosen by `NCH`, for any SL family, is the model's reading (log 19), and that a step that holds answers a next state
with a report its choice (log 9). -/
def Obligations.GenerateQueueStereo : Prop :=
  ∀ (s : State) (c : Nat) (f : Family), owned .devGen s → loadedFamily s = some f →
    hasSL s.cfg f = true → (familyConfig s.cfg f).nch = .stereo → queueSound s → s.sq.cap = some c →
    (s.sq.count = 0 → exec .devGen s = .next (s.setReport (.held .queueEmpty))) ∧
    (∀ v, s.ol.chan = true → s.sq.count ≠ 0 → s.sq.buf.read? s.sq.tail = some v → exec .devGen s =
      .next (State.setReport
        { s with sq := { s.sq with tail := (s.sq.tail + 1) % c, full := false }, ol := { s.ol with chan := false } }
        (.returned true (some (v ++ s.ol.tmpL))))) ∧
    (∀ l, s.ol.chan = false → s.sq.count = 1 → s.sq.buf.read? s.sq.tail = some l → exec .devGen s =
      .next (State.setReport
        { s with sq := { s.sq with tail := (s.sq.tail + 1) % c, full := false },
                 ol := { s.ol with tmpL := l, chan := true } } .unfinished)) ∧
    (∀ l r, s.ol.chan = false → 2 ≤ s.sq.count → s.sq.buf.read? s.sq.tail = some l →
      s.sq.buf.read? ((s.sq.tail + 1) % c) = some r → exec .devGen s =
      .next (State.setReport
        { s with sq := { s.sq with tail := (s.sq.tail + 2) % c, full := false }, ol := { s.ol with tmpL := l } }
        (.returned true (some (r ++ l)))))

/-- R240: the 8-bit DAC conversion re-centres the payload to -128..127 and scales it by 256. -/
def Obligations.Conv8RecentresAndScales : Prop :=
  ∀ p : Byte, (conv8 p).toInt = ((p.toNat : Int) - 128) * 256

/-! ### The Output Loop and the external agents -/

/-- R261, R262: with the wanted device current, `OL.SWAPCHK` goes to GETBLK; with another one current it unloads it,
which is always ok, and stays in SWAP with no device current. -/
def Obligations.SwapchkKeepsOrUnloads : Prop :=
  ∀ (s : State) (i : Nat), owned .olSwapchk s → s.ol.phase = .swap → s.dm.current = some i →
    (i = s.dm.wanted → exec .olSwapchk s =
      .next (State.setReport { s with ol := { s.ol with phase := .getblk } } .nothing)) ∧
    (i ≠ s.dm.wanted → exec .olSwapchk s =
      .next (State.setReport
        { s with
          sl := { s.sl with state := if s.sl.state = .running then .stopping else s.sl.state }
          dev := { s.dev with samplingEn := false, handle := .none, pinsInit := false }
          bsr := { pending := [] }
          dm := { s.dm with current := none } } .nothing))

/-- R263 with R231: with no device current `OL.SWAPCHK` is the `DEV.LOAD` of the wanted one: success makes it current
and goes to GETBLK; failure sets `ERR.swap_failed` and falls back to the default device, or, for the default device
itself, ends in FAULT; and it holds while the old loop is not STOPPED, whatever else the state is (that a step that
holds answers a next state with a report is the model's choice, log 9). That the load answers a next state also where a
short device table holds an SL family whose id is not below `NDEV` is the model's choice too (log 22). -/
def Obligations.SwapchkLoadsWantedDevice : Prop :=
  ∀ (s : State) (k : BitVec 3), owned .olSwapchk s → s.ol.phase = .swap → s.dm.current = none →
    s.dm.wanted = k.toNat → k.toNat < nDev s.cfg →
    (s.sl.state ≠ .stopped → exec .olSwapchk s = .next (s.setReport (.held .loopNotStopped))) ∧
    (s.sl.state = .stopped → s.dev.handle = .none → s.sl.chip = none →
      ∃ u ok, exec (.devLoad k) s = .next u ∧ u.env.report = .returned ok none ∧
        (ok = true → exec .olSwapchk s =
          .next (State.setReport
            { u with dm := { s.dm with current := some k.toNat }, ol := { s.ol with phase := .getblk } } .nothing)) ∧
        (ok = false → k ≠ 0#3 → exec .olSwapchk s =
          .next (State.setReport
            { u with err := { u.err with swapFailed := true }, dm := { s.dm with wanted := 0 } } .nothing)) ∧
        (ok = false → k = 0#3 → exec .olSwapchk s =
          .next (State.setReport
            { u with err := { u.err with swapFailed := true }, ol := { s.ol with phase := .fault } } .nothing)))

/-- R265: with a writable block `OL.GETBLK` takes it and starts the fill at frame 0; without one it holds (that a step
that holds answers a next state with a report is the model's choice, log 9). -/
def Obligations.GetblkTakesBlockOrHolds : Prop :=
  ∀ s : State, owned .olGetblk s → s.ol.phase = .getblk →
    (∀ n, s.sink.credit = n + 1 → exec .olGetblk s =
      .next (State.setReport
        { s with sink := { s.sink with credit := n }
                 ol := { s.ol with frame := 0, chan := false, phase := .fill } } .nothing)) ∧
    (s.sink.credit = 0 → exec .olGetblk s = .next (s.setReport (.held .noCredit)))

/-- R264: in FILL with a device loaded, and the queue initialised if the device reads it, `OL.FRAME` does what `DEV.GEN`
of the Output Loop does; when that returns a pair, it also writes the pair at the two entries of the frame, every other
entry reading as before, and goes to the next frame or, after the last one, to SUBMIT; when it is unfinished or holds,
so is the frame. A pair comes of a synchronous device, of a queue with one sample for a mono family or after the left
pop, and of a queue with two. That a step that holds answers a next state with a report is the model's choice (log 9). -/
def Obligations.FrameStoresGeneratedPair : Prop :=
  ∀ (s : State) (f : Family), owned .olFrame s → s.ol.phase = .fill → loadedFamily s = some f →
    (hasSL s.cfg f = true → queueSound s ∧ s.sq.cap.isSome = true) →
    ∃ u, exec .devGen (issuedBy .outputLoop s) = .next u ∧
      (hasSL s.cfg f = false ∨ 2 ≤ s.sq.count ∨
          (s.sq.count ≠ 0 ∧ ((familyConfig s.cfg f).nch = .mono ∨ s.ol.chan = true)) →
        ∃ v, u.env.report = .returned true (some v)) ∧
      (∀ v, u.env.report = .returned true (some v) →
        ∃ m : Memory,
          (∀ k, m.read? k = if k = 2 * s.ol.frame then some (v.extractLsb' 0 16)
            else if k = 2 * s.ol.frame + 1 then some (v.extractLsb' 16 16) else s.ol.blk.read? k) ∧
          exec .olFrame s =
            .next (State.setReport
              { u with
                ol := { u.ol with
                  blk := m
                  frame := if s.ol.frame + 1 = s.cfg.blockFrames then s.ol.frame else s.ol.frame + 1
                  phase := if s.ol.frame + 1 = s.cfg.blockFrames then .submit else .fill }
                env := s.env } .nothing)) ∧
      (u.env.report = .unfinished → exec .olFrame s = .next (State.setReport { u with env := s.env } .nothing)) ∧
      (∀ h, u.env.report = .held h → exec .olFrame s = .next (s.setReport (.held h)))

/-- R266, R43: `OL.SUBMIT` appends a copy of the block's `2 * BLOCK_FRAMES` entries to what the sink received and goes to
SWAP. Where the invariant of the block holds every one of them is written; in another state the value of an entry that
nothing has written is free (log 8). -/
def Obligations.SubmitAppendsBlock : Prop :=
  ∀ s : State, owned .olSubmit s → s.ol.phase = .submit →
    ∃ b : List Sample, b.length = 2 * s.cfg.blockFrames ∧
      (∀ k v, k < 2 * s.cfg.blockFrames → s.ol.blk.read? k = some v → b[k]? = some v) ∧
      (frameSound s → ∀ k, k < 2 * s.cfg.blockFrames → b[k]? = s.ol.blk.read? k ∧ (b[k]?).isSome = true) ∧
      exec .olSubmit s =
        .next (State.setReport
          { s with sink := { s.sink with out := s.sink.out ++ [b] }, ol := { s.ol with phase := .swap } } .nothing)

/-- R267, R305: in FAULT, where no Output Loop step is enabled and the state is never final, every step of the Output
Loop answers the model's fault (log 10). -/
def Obligations.OutputLoopStuckInFault : Prop :=
  ∀ (i : Instr) (s : State), i ∈ [Instr.olSwapchk, .olGetblk, .olFrame, .olSubmit] → owned i s →
    s.ol.phase = .fault → exec i s = .fault .outputLoopStuck

/-- R40: FAULT is a stuck state that no step leaves, and no device is loaded by the Output Loop in it any more. -/
def Obligations.FaultIsNeverLeft : Prop :=
  ∀ s t : State, s.ol.phase = .fault → step s = .next t → t.ol.phase = .fault ∧ t.dm.current = s.dm.current

/-- R281 to R283: a strobe is appended to the pending words while sampling is enabled; the sink adds a writable block; a
hot-swap request sets the wanted index, or is ignored outside the table; nothing else changes. -/
def Obligations.ExternalAgentSteps : Prop :=
  ∀ s : State,
    (∀ w, owned (.hostStrobe w) s → s.dev.samplingEn = true → exec (.hostStrobe w) s =
      .next (State.setReport { s with bsr := { pending := s.bsr.pending ++ [w] } } .nothing)) ∧
    (owned .sinkReady s → exec .sinkReady s =
      .next (State.setReport { s with sink := { s.sink with credit := s.sink.credit + 1 } } .nothing)) ∧
    (∀ k, owned (.hsRequest k) s →
      (k.toNat < nDev s.cfg → exec (.hsRequest k) s =
        .next (State.setReport { s with dm := { s.dm with wanted := k.toNat } } .nothing)) ∧
      (nDev s.cfg ≤ k.toNat → exec (.hsRequest k) s = .next (s.setReport .nothing)))

/-! ### The whole machine -/

/-- R85, R9, R111: the configuration after reset meets the constraints on it, and no operation and no agent step writes
the configuration. -/
def Obligations.ConfigurationNeverWritten : Prop :=
  State.reset.cfg.wellFormed = true ∧ ∀ s t : State, step s = .next t → t.cfg = s.cfg

/-- R320: a step word whose issuer does not own it is refused: for the host, the sink and the user every step word but
their own one; for the Output Loop the push, the full query, the chip operations but the construction, and the steps of
every other agent; for the Synthesis Loop the initialisation, the pop, the empty query, the construction, the device
operations and the steps of every other agent. R350: so is a push issued by a harness beside a Synthesis Loop that is
not STOPPED, and a pop, or the generate that pops, beside an Output Loop whose current device is queue-fed, in any phase
(when these two are active is the model's reading, log 11). That the refusal is this one also where another applies is
the model's choice (log 23). -/
def Obligations.NotOwnerRefused : Prop :=
  (∀ (i : Instr) (s : State), ¬ owned i s → exec i s = .refused .notOwner) ∧
  (∀ (i : Instr) (s : State), s.env.issuer = .host → (∀ w, i ≠ .hostStrobe w) → exec i s = .refused .notOwner) ∧
  (∀ (i : Instr) (s : State), s.env.issuer = .sink → i ≠ .sinkReady → exec i s = .refused .notOwner) ∧
  (∀ (i : Instr) (s : State), s.env.issuer = .user → (∀ k, i ≠ .hsRequest k) → exec i s = .refused .notOwner) ∧
  (∀ (s : State) (v : Sample) (a : BitVec 16) (d : Byte) (w : BusWord) (k : BitVec 3), s.env.issuer = .outputLoop →
    ∀ i ∈ [Instr.qPush v, .qIsFull, .cmWrite a d, .cmSample, .cmDestroy, .slHead, .slDrain, .slSample, .slStall,
      .slPush, .slExit, .hostStrobe w, .sinkReady, .hsRequest k], exec i s = .refused .notOwner) ∧
  (∀ (s : State) (cap : BitVec 32) (k : BitVec 3) (w : BusWord), s.env.issuer = .synthesisLoop →
    ∀ i ∈ [Instr.qInit cap, .qPop, .qIsEmpty, .cmCreate k, .devLoad k, .devUnload, .devGen, .olSwapchk, .olGetblk,
      .olFrame, .olSubmit, .hostStrobe w, .sinkReady, .hsRequest k], exec i s = .refused .notOwner) ∧
  (∀ (s : State) (v : Sample), s.env.issuer = .harness → s.sl.state ≠ .stopped →
    exec (.qPush v) s = .refused .notOwner) ∧
  (∀ s : State, s.env.issuer = .harness → consumed s →
    exec .qPop s = .refused .notOwner ∧ exec .devGen s = .refused .notOwner)

/-- R320, R27, R36: what the steps of each agent leave alone. The Synthesis Loop leaves the capacity, `tail`, the device,
the device manager, the Output Loop, the errors and the sink, never clears `full`, and of the pending words at most
takes the oldest. The Output Loop leaves the buffer and, while the Synthesis Loop is not STOPPED, `head` and all of `SL`
but its state, and never sets `full`. The host, the sink and the user each write one field. -/
def Obligations.EachLaneWritesItsOwnState : Prop :=
  ∀ (i : Instr) (s t : State), exec i s = .next t →
    (loopMay i = true →
      t.sq.cap = s.sq.cap ∧ t.sq.tail = s.sq.tail ∧ t.dev = s.dev ∧ t.dm = s.dm ∧ t.ol = s.ol ∧ t.err = s.err ∧
        t.sink = s.sink ∧ (s.sq.full = true → t.sq.full = true) ∧
        (t.bsr = s.bsr ∨ ∃ w, s.bsr.pending = w :: t.bsr.pending)) ∧
    (outputMay s.cfg i = true →
      t.sq.buf = s.sq.buf ∧ (t.sq.full = true → s.sq.full = true) ∧
        (s.sl.state ≠ .stopped → t.sq.head = s.sq.head ∧ t.sq.cap = s.sq.cap ∧
          t.sl = { s.sl with state := t.sl.state })) ∧
    (hostMay i = true →
      t = State.setReport { s with bsr := t.bsr } t.env.report) ∧
    (sinkMay i = true → t = State.setReport { s with sink := { s.sink with credit := t.sink.credit } } t.env.report) ∧
    (userMay i = true → t = State.setReport { s with dm := { s.dm with wanted := t.dm.wanted } } t.env.report)

/-- R50: `ERR.swap_failed` is sticky: no step clears it. -/
def Obligations.SwapFailedIsSticky : Prop :=
  ∀ s t : State, s.err.swapFailed = true → step s = .next t → t.err.swapFailed = true

/-- R47, R264, R359: the current device changes, and with it which device fills a block, only in SWAP. -/
def Obligations.DeviceChangesOnlyAtBlockBoundary : Prop :=
  ∀ s t : State, s.ol.phase ≠ .swap → step s = .next t → t.dm.current = s.dm.current

/-- R55, R281: in every step the pending words stay, lose their oldest one, are emptied, or, with sampling enabled, gain
one at the end: a word is delivered in capture order and at most once. -/
def Obligations.PendingWordsTakenInOrder : Prop :=
  ∀ s t : State, step s = .next t →
    t.bsr.pending = s.bsr.pending ∨ (∃ w, s.bsr.pending = w :: t.bsr.pending) ∨ t.bsr.pending = [] ∨
      (s.dev.samplingEn = true ∧ ∃ w, t.bsr.pending = s.bsr.pending ++ [w])

/-- R39: every step keeps it that a device without its handle has sampling disabled and its pins deinitialised. -/
def Obligations.ResourcesStayPaired : Prop :=
  ∀ s t : State, resourcesPaired s → step s = .next t → resourcesPaired t

/-- The canonical form of the stored entries (the model's representation, log 8) holds after reset and every step keeps
it. -/
def Obligations.StorageCanonicalKept : Prop :=
  storageCanonical State.reset ∧ ∀ s t : State, storageCanonical s → step s = .next t → storageCanonical t

/-- The invariants of the agents' own steps hold after reset (R30, R31, R39, R41, R42, R43, R47, R48, R340); that
`BLOCK_FRAMES` is at least 1 there is R9. -/
def Obligations.BlockSoundAtReset : Prop := BlockSound State.reset

/-- R31, R37, R39, R41, R42, R43, R47, R48, R212: every agent step keeps the invariants of the block: among them that
`OL.frame` is below `BLOCK_FRAMES`, that the frames generated so far are written, and that every entry of the block is
written when `OL.SUBMIT` reads it. -/
def Obligations.BlockSoundKept : Prop :=
  ∀ (i : Instr) (s t : State), isAgentStep i = true → BlockSound s → exec i s = .next t → BlockSound t

/-- R306: in a state with the block's invariants no agent step that its owner issues is refused; so also `OL.SWAPCHK`
where a short device table holds an SL family whose id is not below `NDEV`, which is the model's choice (log 22). -/
def Obligations.AgentStepsAreNeverRefused : Prop :=
  ∀ (i : Instr) (s : State) (r : Refusal), isAgentStep i = true → BlockSound s → owned i s → exec i s ≠ .refused r
end

