-- ==== Sys2Proof/Laws/Encoding.lean ====
section
/-!
SUPPORT. The two fields of a step word `{op, arg}` (30_encoding.md R101), bit by bit.
-/

namespace Sys2Proof

/-- Bit `j` of `{op, arg}`. -/
theorem stepWord_getLsbD (op : BitVec 8) (a : BitVec 32) (j : Nat) :
    BitVec.getLsbD (w := 40) (op ++ a) j = if j < 32 then a.getLsbD j else op.getLsbD (j - 32) :=
  BitVec.getLsbD_append ..

/-- The `op` field of `{op, arg}`. -/
theorem opField_append (op : BitVec 8) (a : BitVec 32) : opField (op ++ a) = op := by
  unfold opField
  apply BitVec.eq_of_getLsbD_eq
  intro i hi
  rw [BitVec.getLsbD_extractLsb', stepWord_getLsbD]
  simp [hi]

/-- The `arg` field of `{op, arg}`. -/
theorem argField_append (op : BitVec 8) (a : BitVec 32) : argField (op ++ a) = a := by
  unfold argField
  apply BitVec.eq_of_getLsbD_eq
  intro i hi
  rw [BitVec.getLsbD_extractLsb', stepWord_getLsbD]
  simp [hi]

/-- A step word is made of its two fields. -/
theorem stepWord_eq_fields (w : StepWord) : w = opField w ++ argField w := by
  apply BitVec.eq_of_getLsbD_eq
  intro i hi
  rw [stepWord_getLsbD]
  unfold opField argField
  rw [BitVec.getLsbD_extractLsb', BitVec.getLsbD_extractLsb']
  split
  · simp_all
  · rename_i h
    have h8 : i - 32 < 8 := by omega
    simp [h8, show 32 + (i - 32) = i by omega]

/-- Bit `j` of the operand of `CM.WRITE a, d` (R103). -/
theorem chipOperand_getLsbD (a : BitVec 16) (d : BitVec 8) (j : Nat) :
    BitVec.getLsbD (w := 32) ((0#8 ++ a) ++ d) j = if j < 8 then d.getLsbD j else a.getLsbD (j - 8) := by
  refine (BitVec.getLsbD_append (x := (0#8 ++ a)) (y := d) (i := j)).trans ?_
  rw [BitVec.getLsbD_append (x := 0#8) (y := a) (i := j - 8)]
  by_cases h8 : j < 8
  · simp [h8]
  · by_cases h : j - 8 < 16
    · simp [h]
    · rw [if_neg h8, if_neg h8, if_neg h, BitVec.getLsbD_of_ge a (j - 8) (by omega)]; simp

end Sys2Proof
end

