-- ==== Sys2Proof/Laws/Memory.lean ====
section
/-!
SUPPORT. The laws of an element-addressed space (20_memory.md R70): read after write, and the canonical form.
-/

namespace Sys2Proof.Machine

@[simp] theorem Memory.read?_nil (k : Nat) : Memory.read? [] k = none := rfl

theorem Memory.wf_nil : Memory.wf [] := List.Pairwise.nil

/-- Below every listed index nothing is listed. -/
theorem Memory.read?_of_lt_all (m : Memory) (k : Nat) (h : ∀ p ∈ m, k < p.1) : m.read? k = none := by
  induction m with
  | nil => rfl
  | cons p rest ih =>
    obtain ⟨a, x⟩ := p
    have ha : k < a := h (a, x) List.mem_cons_self
    rw [Memory.read?, if_neg (by omega)]
    exact ih fun q hq => h q (List.mem_cons_of_mem _ hq)

/-- Read after write: the written index gives the written sample, every other index what it gave. -/
theorem Memory.read?_write (m : Memory) (k j : Nat) (v : Sample) :
    (m.write k v).read? j = if j = k then some v else m.read? j := by
  induction m with
  | nil =>
    by_cases h : j = k
    · subst h; simp [Memory.write, Memory.read?]
    · simp [Memory.write, Memory.read?, h, Ne.symm h]
  | cons p rest ih =>
    obtain ⟨a, x⟩ := p
    rw [Memory.write]
    split
    · rename_i hk
      by_cases h : j = k
      · subst h; simp [Memory.read?]
      · rw [Memory.read?, if_neg (Ne.symm h), if_neg h]
    · split
      · rename_i _ hka
        subst hka
        by_cases h : j = k
        · subst h; simp [Memory.read?]
        · simp [Memory.read?, h, Ne.symm h]
      · rename_i hk hka
        by_cases h : a = j
        · subst h
          rw [Memory.read?, if_pos rfl, if_neg (Ne.symm hka), Memory.read?, if_pos rfl]
        · rw [Memory.read?, if_neg h, ih, Memory.read?, if_neg h]

/-- Every index a write lists was listed or is the written one. -/
theorem Memory.mem_write (m : Memory) (k : Nat) (v : Sample) (p : Entry) (hp : p ∈ m.write k v) :
    p = (k, v) ∨ p ∈ m := by
  induction m with
  | nil => simpa [Memory.write] using hp
  | cons q rest ih =>
    obtain ⟨a, x⟩ := q
    rw [Memory.write] at hp
    split at hp
    · rcases List.mem_cons.1 hp with h | h
      · exact .inl h
      · exact .inr h
    · split at hp
      · rcases List.mem_cons.1 hp with h | h
        · exact .inl h
        · exact .inr (List.mem_cons_of_mem _ h)
      · rcases List.mem_cons.1 hp with h | h
        · exact .inr (h ▸ List.mem_cons_self)
        · rcases ih h with h' | h'
          · exact .inl h'
          · exact .inr (List.mem_cons_of_mem _ h')

/-- A write keeps the canonical form. -/
theorem Memory.wf_write (m : Memory) (k : Nat) (v : Sample) (hm : m.wf) : (m.write k v).wf := by
  induction m with
  | nil => exact List.pairwise_singleton _ _
  | cons p rest ih =>
    obtain ⟨a, x⟩ := p
    have hrest : Memory.wf rest := List.Pairwise.of_cons hm
    have hlt : ∀ q ∈ rest, a < q.1 := (List.pairwise_cons.1 hm).1
    rw [Memory.write]
    split
    · rename_i hk
      refine List.pairwise_cons.2 ⟨fun q hq => ?_, hm⟩
      rcases List.mem_cons.1 hq with h | h
      · subst h; exact hk
      · exact Nat.lt_trans hk (hlt q h)
    · split
      · rename_i _ hka
        subst hka
        exact List.pairwise_cons.2 ⟨hlt, hrest⟩
      · rename_i hk hka
        refine List.pairwise_cons.2 ⟨fun q hq => ?_, ih hrest⟩
        rcases Memory.mem_write rest k v q hq with h | h
        · subst h; show a < k; omega
        · exact hlt q h

/-- A read gives the written sample, or the free value of an unwritten entry. -/
theorem Memory.read_eq (sp : Space) (m : Memory) (k : Nat) :
    m.read sp k = (m.read? k).getD (Config.unwritten sp k) := by
  unfold Memory.read
  split <;> simp_all

/-- A read of a written entry gives its sample. -/
theorem Memory.read_of_read? (sp : Space) (m : Memory) (k : Nat) (v : Sample) (h : m.read? k = some v) :
    m.read sp k = v := by
  rw [Memory.read_eq, h]; rfl

end Sys2Proof.Machine
end

