-- ==== Sys2Proof/Laws/State.lean ====
section
/-!
SUPPORT. One lemma for each field of the state under each update of it, so that no proof unfolds a record update.
-/

namespace Sys2Proof.Machine

@[simp] theorem State.setSq_sq (s : State) (x : Queue) : (s.setSq x).sq = x := rfl
@[simp] theorem State.setSq_sl (s : State) (x : Queue) : (s.setSq x).sl = s.sl := rfl
@[simp] theorem State.setSq_dev (s : State) (x : Queue) : (s.setSq x).dev = s.dev := rfl
@[simp] theorem State.setSq_dm (s : State) (x : Queue) : (s.setSq x).dm = s.dm := rfl
@[simp] theorem State.setSq_ol (s : State) (x : Queue) : (s.setSq x).ol = s.ol := rfl
@[simp] theorem State.setSq_err (s : State) (x : Queue) : (s.setSq x).err = s.err := rfl
@[simp] theorem State.setSq_bsr (s : State) (x : Queue) : (s.setSq x).bsr = s.bsr := rfl
@[simp] theorem State.setSq_sink (s : State) (x : Queue) : (s.setSq x).sink = s.sink := rfl
@[simp] theorem State.setSq_cfg (s : State) (x : Queue) : (s.setSq x).cfg = s.cfg := rfl
@[simp] theorem State.setSq_env (s : State) (x : Queue) : (s.setSq x).env = s.env := rfl

@[simp] theorem State.setSl_sq (s : State) (x : Synth) : (s.setSl x).sq = s.sq := rfl
@[simp] theorem State.setSl_sl (s : State) (x : Synth) : (s.setSl x).sl = x := rfl
@[simp] theorem State.setSl_dev (s : State) (x : Synth) : (s.setSl x).dev = s.dev := rfl
@[simp] theorem State.setSl_dm (s : State) (x : Synth) : (s.setSl x).dm = s.dm := rfl
@[simp] theorem State.setSl_ol (s : State) (x : Synth) : (s.setSl x).ol = s.ol := rfl
@[simp] theorem State.setSl_err (s : State) (x : Synth) : (s.setSl x).err = s.err := rfl
@[simp] theorem State.setSl_bsr (s : State) (x : Synth) : (s.setSl x).bsr = s.bsr := rfl
@[simp] theorem State.setSl_sink (s : State) (x : Synth) : (s.setSl x).sink = s.sink := rfl
@[simp] theorem State.setSl_cfg (s : State) (x : Synth) : (s.setSl x).cfg = s.cfg := rfl
@[simp] theorem State.setSl_env (s : State) (x : Synth) : (s.setSl x).env = s.env := rfl

@[simp] theorem State.setDev_sq (s : State) (x : Device) : (s.setDev x).sq = s.sq := rfl
@[simp] theorem State.setDev_sl (s : State) (x : Device) : (s.setDev x).sl = s.sl := rfl
@[simp] theorem State.setDev_dev (s : State) (x : Device) : (s.setDev x).dev = x := rfl
@[simp] theorem State.setDev_dm (s : State) (x : Device) : (s.setDev x).dm = s.dm := rfl
@[simp] theorem State.setDev_ol (s : State) (x : Device) : (s.setDev x).ol = s.ol := rfl
@[simp] theorem State.setDev_err (s : State) (x : Device) : (s.setDev x).err = s.err := rfl
@[simp] theorem State.setDev_bsr (s : State) (x : Device) : (s.setDev x).bsr = s.bsr := rfl
@[simp] theorem State.setDev_sink (s : State) (x : Device) : (s.setDev x).sink = s.sink := rfl
@[simp] theorem State.setDev_cfg (s : State) (x : Device) : (s.setDev x).cfg = s.cfg := rfl
@[simp] theorem State.setDev_env (s : State) (x : Device) : (s.setDev x).env = s.env := rfl

@[simp] theorem State.setDm_sq (s : State) (x : Manager) : (s.setDm x).sq = s.sq := rfl
@[simp] theorem State.setDm_sl (s : State) (x : Manager) : (s.setDm x).sl = s.sl := rfl
@[simp] theorem State.setDm_dev (s : State) (x : Manager) : (s.setDm x).dev = s.dev := rfl
@[simp] theorem State.setDm_dm (s : State) (x : Manager) : (s.setDm x).dm = x := rfl
@[simp] theorem State.setDm_ol (s : State) (x : Manager) : (s.setDm x).ol = s.ol := rfl
@[simp] theorem State.setDm_err (s : State) (x : Manager) : (s.setDm x).err = s.err := rfl
@[simp] theorem State.setDm_bsr (s : State) (x : Manager) : (s.setDm x).bsr = s.bsr := rfl
@[simp] theorem State.setDm_sink (s : State) (x : Manager) : (s.setDm x).sink = s.sink := rfl
@[simp] theorem State.setDm_cfg (s : State) (x : Manager) : (s.setDm x).cfg = s.cfg := rfl
@[simp] theorem State.setDm_env (s : State) (x : Manager) : (s.setDm x).env = s.env := rfl

@[simp] theorem State.setOl_sq (s : State) (x : OutLoop) : (s.setOl x).sq = s.sq := rfl
@[simp] theorem State.setOl_sl (s : State) (x : OutLoop) : (s.setOl x).sl = s.sl := rfl
@[simp] theorem State.setOl_dev (s : State) (x : OutLoop) : (s.setOl x).dev = s.dev := rfl
@[simp] theorem State.setOl_dm (s : State) (x : OutLoop) : (s.setOl x).dm = s.dm := rfl
@[simp] theorem State.setOl_ol (s : State) (x : OutLoop) : (s.setOl x).ol = x := rfl
@[simp] theorem State.setOl_err (s : State) (x : OutLoop) : (s.setOl x).err = s.err := rfl
@[simp] theorem State.setOl_bsr (s : State) (x : OutLoop) : (s.setOl x).bsr = s.bsr := rfl
@[simp] theorem State.setOl_sink (s : State) (x : OutLoop) : (s.setOl x).sink = s.sink := rfl
@[simp] theorem State.setOl_cfg (s : State) (x : OutLoop) : (s.setOl x).cfg = s.cfg := rfl
@[simp] theorem State.setOl_env (s : State) (x : OutLoop) : (s.setOl x).env = s.env := rfl

@[simp] theorem State.setErr_sq (s : State) (x : ErrState) : (s.setErr x).sq = s.sq := rfl
@[simp] theorem State.setErr_sl (s : State) (x : ErrState) : (s.setErr x).sl = s.sl := rfl
@[simp] theorem State.setErr_dev (s : State) (x : ErrState) : (s.setErr x).dev = s.dev := rfl
@[simp] theorem State.setErr_dm (s : State) (x : ErrState) : (s.setErr x).dm = s.dm := rfl
@[simp] theorem State.setErr_ol (s : State) (x : ErrState) : (s.setErr x).ol = s.ol := rfl
@[simp] theorem State.setErr_err (s : State) (x : ErrState) : (s.setErr x).err = x := rfl
@[simp] theorem State.setErr_bsr (s : State) (x : ErrState) : (s.setErr x).bsr = s.bsr := rfl
@[simp] theorem State.setErr_sink (s : State) (x : ErrState) : (s.setErr x).sink = s.sink := rfl
@[simp] theorem State.setErr_cfg (s : State) (x : ErrState) : (s.setErr x).cfg = s.cfg := rfl
@[simp] theorem State.setErr_env (s : State) (x : ErrState) : (s.setErr x).env = s.env := rfl

@[simp] theorem State.setBsr_sq (s : State) (x : BusSampler) : (s.setBsr x).sq = s.sq := rfl
@[simp] theorem State.setBsr_sl (s : State) (x : BusSampler) : (s.setBsr x).sl = s.sl := rfl
@[simp] theorem State.setBsr_dev (s : State) (x : BusSampler) : (s.setBsr x).dev = s.dev := rfl
@[simp] theorem State.setBsr_dm (s : State) (x : BusSampler) : (s.setBsr x).dm = s.dm := rfl
@[simp] theorem State.setBsr_ol (s : State) (x : BusSampler) : (s.setBsr x).ol = s.ol := rfl
@[simp] theorem State.setBsr_err (s : State) (x : BusSampler) : (s.setBsr x).err = s.err := rfl
@[simp] theorem State.setBsr_bsr (s : State) (x : BusSampler) : (s.setBsr x).bsr = x := rfl
@[simp] theorem State.setBsr_sink (s : State) (x : BusSampler) : (s.setBsr x).sink = s.sink := rfl
@[simp] theorem State.setBsr_cfg (s : State) (x : BusSampler) : (s.setBsr x).cfg = s.cfg := rfl
@[simp] theorem State.setBsr_env (s : State) (x : BusSampler) : (s.setBsr x).env = s.env := rfl

@[simp] theorem State.setSink_sq (s : State) (x : Sink) : (s.setSink x).sq = s.sq := rfl
@[simp] theorem State.setSink_sl (s : State) (x : Sink) : (s.setSink x).sl = s.sl := rfl
@[simp] theorem State.setSink_dev (s : State) (x : Sink) : (s.setSink x).dev = s.dev := rfl
@[simp] theorem State.setSink_dm (s : State) (x : Sink) : (s.setSink x).dm = s.dm := rfl
@[simp] theorem State.setSink_ol (s : State) (x : Sink) : (s.setSink x).ol = s.ol := rfl
@[simp] theorem State.setSink_err (s : State) (x : Sink) : (s.setSink x).err = s.err := rfl
@[simp] theorem State.setSink_bsr (s : State) (x : Sink) : (s.setSink x).bsr = s.bsr := rfl
@[simp] theorem State.setSink_sink (s : State) (x : Sink) : (s.setSink x).sink = x := rfl
@[simp] theorem State.setSink_cfg (s : State) (x : Sink) : (s.setSink x).cfg = s.cfg := rfl
@[simp] theorem State.setSink_env (s : State) (x : Sink) : (s.setSink x).env = s.env := rfl

@[simp] theorem State.setEnv_sq (s : State) (x : Env) : (s.setEnv x).sq = s.sq := rfl
@[simp] theorem State.setEnv_sl (s : State) (x : Env) : (s.setEnv x).sl = s.sl := rfl
@[simp] theorem State.setEnv_dev (s : State) (x : Env) : (s.setEnv x).dev = s.dev := rfl
@[simp] theorem State.setEnv_dm (s : State) (x : Env) : (s.setEnv x).dm = s.dm := rfl
@[simp] theorem State.setEnv_ol (s : State) (x : Env) : (s.setEnv x).ol = s.ol := rfl
@[simp] theorem State.setEnv_err (s : State) (x : Env) : (s.setEnv x).err = s.err := rfl
@[simp] theorem State.setEnv_bsr (s : State) (x : Env) : (s.setEnv x).bsr = s.bsr := rfl
@[simp] theorem State.setEnv_sink (s : State) (x : Env) : (s.setEnv x).sink = s.sink := rfl
@[simp] theorem State.setEnv_cfg (s : State) (x : Env) : (s.setEnv x).cfg = s.cfg := rfl
@[simp] theorem State.setEnv_env (s : State) (x : Env) : (s.setEnv x).env = x := rfl

@[simp] theorem State.setReport_sq (s : State) (r : Report) : (s.setReport r).sq = s.sq := rfl
@[simp] theorem State.setReport_sl (s : State) (r : Report) : (s.setReport r).sl = s.sl := rfl
@[simp] theorem State.setReport_dev (s : State) (r : Report) : (s.setReport r).dev = s.dev := rfl
@[simp] theorem State.setReport_dm (s : State) (r : Report) : (s.setReport r).dm = s.dm := rfl
@[simp] theorem State.setReport_ol (s : State) (r : Report) : (s.setReport r).ol = s.ol := rfl
@[simp] theorem State.setReport_err (s : State) (r : Report) : (s.setReport r).err = s.err := rfl
@[simp] theorem State.setReport_bsr (s : State) (r : Report) : (s.setReport r).bsr = s.bsr := rfl
@[simp] theorem State.setReport_sink (s : State) (r : Report) : (s.setReport r).sink = s.sink := rfl
@[simp] theorem State.setReport_cfg (s : State) (r : Report) : (s.setReport r).cfg = s.cfg := rfl
@[simp] theorem State.setReport_env (s : State) (r : Report) : (s.setReport r).env = { s.env with report := r } := rfl

end Sys2Proof.Machine
end

