-- ==== Sys2Proof/Laws/Ops.lean ====
section
/-!
SUPPORT. For each shared operation of Machine/Ops.lean, what it can do, said once: the cases of its result and the
fields it leaves alone.
-/

namespace Sys2Proof.Machine

/-! ### Endings -/

@[simp] theorem Act.bind_done_eq {α β : Type} (a : α) (k : α → Act β) : (Act.done a).bind k = k a := rfl
@[simp] theorem Act.bind_held_eq {α β : Type} (h : Hold) (k : α → Act β) : (Act.held h).bind k = .held h := rfl
@[simp] theorem Act.bind_notEnabled_eq {α β : Type} (k : α → Act β) : (Act.notEnabled).bind k = .notEnabled := rfl
@[simp] theorem Act.bind_refused_eq {α β : Type} (r : Refusal) (k : α → Act β) :
    (Act.refused r).bind k = .refused r := rfl
@[simp] theorem Act.bind_stuck_eq {α β : Type} (f : Fault) (k : α → Act β) : (Act.stuck f).bind k = .stuck f := rfl

/-- A sequence is done exactly when both parts are. -/
theorem Act.bind_done {α β : Type} {x : Act α} {k : α → Act β} {b : β} :
    x.bind k = .done b ↔ ∃ a, x = .done a ∧ k a = .done b := by
  cases x <;> simp

/-- A sequence is refused exactly when a part is. -/
theorem Act.bind_refused {α β : Type} {x : Act α} {k : α → Act β} {r : Refusal} :
    x.bind k = .refused r ↔ x = .refused r ∨ ∃ a, x = .done a ∧ k a = .refused r := by
  cases x <;> simp

/-- A step word that answers a next state was owned and ran, held, or was not enabled. -/
theorem perform_next {i : Instr} {s t : State} {a : Act (Report × State)} (h : perform i s a = .next t) :
    mayExecute s i = true ∧
      ((∃ r u, a = .done (r, u) ∧ t = u.setReport r) ∨ (∃ x, a = .held x ∧ t = s.setReport (.held x)) ∨
        (a = .notEnabled ∧ t = s.setReport .notEnabled)) := by
  unfold perform at h
  split at h
  · rename_i hm
    refine ⟨hm, ?_⟩
    split at h <;> try cases h
    · rename_i r; exact .inl ⟨r.1, r.2, rfl, rfl⟩
    · rename_i x; exact .inr (.inl ⟨x, rfl, rfl⟩)
    · exact .inr (.inr ⟨rfl, rfl⟩)
  · cases h

/-- A step word is refused for its issuer or because its body is. -/
theorem perform_refused {i : Instr} {s : State} {a : Act (Report × State)} {r : Refusal}
    (h : perform i s a = .refused r) :
    (mayExecute s i = false ∧ r = .notOwner) ∨
      (mayExecute s i = true ∧ a = .refused r) := by
  unfold perform at h
  split at h
  · rename_i hm
    split at h <;> try cases h
    exact .inr ⟨hm, rfl⟩
  · rename_i hm
    cases h
    exact .inl ⟨by simpa using hm, rfl⟩

theorem perform_done {i : Instr} {s u : State} {r : Report} (hm : mayExecute s i = true) :
    perform i s (.done (r, u)) = .next (u.setReport r) := by simp [perform, hm]

theorem perform_held {i : Instr} {s : State} {x : Hold} (hm : mayExecute s i = true) :
    perform i s (.held x) = .next (s.setReport (.held x)) := by simp [perform, hm]

theorem perform_notEnabled {i : Instr} {s : State} (hm : mayExecute s i = true) :
    perform i s .notEnabled = .next (s.setReport .notEnabled) := by simp [perform, hm]

theorem perform_refuse {i : Instr} {s : State} {r : Refusal} (hm : mayExecute s i = true) :
    perform i s (.refused r) = .refused r := by simp [perform, hm]

theorem perform_stuck {i : Instr} {s : State} {f : Fault} (hm : mayExecute s i = true) :
    perform i s (.stuck f) = .fault f := by simp [perform, hm]

theorem perform_notOwner {i : Instr} {s : State} {a : Act (Report × State)}
    (hm : mayExecute s i = false) : perform i s a = .refused .notOwner := by simp [perform, hm]

/-! ### The queue -/

/-- `Q.INIT` re-initialises, or changes nothing. -/
theorem Queue.init_cases (m : Nat) (cap : BitVec 32) (q : Queue) :
    (capAdmitted m cap = true ∧
      Queue.init m cap q = (true, { q with cap := some cap.toNat, head := 0, tail := 0, full := false })) ∨
    (capAdmitted m cap = false ∧ Queue.init m cap q = (false, q)) := by
  unfold Queue.init
  cases h : capAdmitted m cap <;> simp

/-- What a push that ends normally did. -/
theorem Queue.push_done {v : Sample} {q : Queue} {r : Bool × Queue} (h : Queue.push v q = .done r) :
    ∃ c, q.cap = some c ∧
      ((q.full = true ∧ r = (false, q)) ∨
       (q.full = false ∧ r = (true, { q with buf := q.buf.write q.head v, head := (q.head + 1) % c,
                                             full := decide ((q.head + 1) % c = q.tail) }))) := by
  unfold Queue.push at h
  split at h
  · cases h
  · rename_i c hc
    refine ⟨c, hc, ?_⟩
    split at h
    · rename_i hf; cases h; exact .inl ⟨hf, rfl⟩
    · rename_i hf
      have hf' : q.full = false := by simpa using hf
      cases h
      refine .inr ⟨hf', ?_⟩
      by_cases hh : (q.head + 1) % c = q.tail <;> simp [hh, hf']

/-- What a pop that ends normally did. -/
theorem Queue.pop_done {q : Queue} {r : Option Sample × Queue} (h : Queue.pop q = .done r) :
    ∃ c, q.cap = some c ∧
      ((q.isEmpty = true ∧ r = (none, q)) ∨
       (q.isEmpty = false ∧
        r = (some (q.buf.read .qbuf q.tail), { q with tail := (q.tail + 1) % c, full := false }))) := by
  unfold Queue.pop at h
  split at h
  · cases h
  · rename_i c hc
    refine ⟨c, hc, ?_⟩
    split at h
    · rename_i hf; cases h; exact .inl ⟨hf, rfl⟩
    · rename_i hf; cases h; exact .inr ⟨by simpa using hf, rfl⟩

/-- A push on an initialised queue is never refused. -/
theorem Queue.push_some {v : Sample} {q : Queue} {c : Nat} (h : q.cap = some c) :
    ∃ r, Queue.push v q = .done r := by
  unfold Queue.push
  rw [h]
  by_cases hf : q.full = true
  · exact ⟨_, by simp only [hf]; rfl⟩
  · exact ⟨_, by simp only [hf]; rfl⟩

/-- A query of an initialised queue gives its answer. -/
theorem Queue.query_done {q : Queue} {b x : Bool} (h : Queue.query q b = .done x) : q.cap.isSome = true ∧ x = b := by
  unfold Queue.query at h
  split at h
  · cases h
  · rename_i c hc; cases h; simp [hc]

/-! ### Draws, causes, bus words -/

@[simp] theorem drawBool_sq (s : State) : (drawBool s).2.sq = s.sq := by unfold drawBool; split <;> rfl
@[simp] theorem drawBool_sl (s : State) : (drawBool s).2.sl = s.sl := by unfold drawBool; split <;> rfl
@[simp] theorem drawBool_dev (s : State) : (drawBool s).2.dev = s.dev := by unfold drawBool; split <;> rfl
@[simp] theorem drawBool_dm (s : State) : (drawBool s).2.dm = s.dm := by unfold drawBool; split <;> rfl
@[simp] theorem drawBool_ol (s : State) : (drawBool s).2.ol = s.ol := by unfold drawBool; split <;> rfl
@[simp] theorem drawBool_err (s : State) : (drawBool s).2.err = s.err := by unfold drawBool; split <;> rfl
@[simp] theorem drawBool_bsr (s : State) : (drawBool s).2.bsr = s.bsr := by unfold drawBool; split <;> rfl
@[simp] theorem drawBool_sink (s : State) : (drawBool s).2.sink = s.sink := by unfold drawBool; split <;> rfl
@[simp] theorem drawBool_cfg (s : State) : (drawBool s).2.cfg = s.cfg := by unfold drawBool; split <;> rfl
@[simp] theorem drawBool_env_trace (s : State) : (drawBool s).2.env.trace = s.env.trace := by unfold drawBool; split <;> rfl
@[simp] theorem drawBool_env_turn (s : State) : (drawBool s).2.env.turn = s.env.turn := by unfold drawBool; split <;> rfl
@[simp] theorem drawBool_env_issuer (s : State) : (drawBool s).2.env.issuer = s.env.issuer := by unfold drawBool; split <;> rfl
@[simp] theorem drawBool_env_report (s : State) : (drawBool s).2.env.report = s.env.report := by unfold drawBool; split <;> rfl

@[simp] theorem drawByte_sq (s : State) : (drawByte s).2.sq = s.sq := by unfold drawByte; split <;> rfl
@[simp] theorem drawByte_sl (s : State) : (drawByte s).2.sl = s.sl := by unfold drawByte; split <;> rfl
@[simp] theorem drawByte_dev (s : State) : (drawByte s).2.dev = s.dev := by unfold drawByte; split <;> rfl
@[simp] theorem drawByte_dm (s : State) : (drawByte s).2.dm = s.dm := by unfold drawByte; split <;> rfl
@[simp] theorem drawByte_ol (s : State) : (drawByte s).2.ol = s.ol := by unfold drawByte; split <;> rfl
@[simp] theorem drawByte_err (s : State) : (drawByte s).2.err = s.err := by unfold drawByte; split <;> rfl
@[simp] theorem drawByte_bsr (s : State) : (drawByte s).2.bsr = s.bsr := by unfold drawByte; split <;> rfl
@[simp] theorem drawByte_sink (s : State) : (drawByte s).2.sink = s.sink := by unfold drawByte; split <;> rfl
@[simp] theorem drawByte_cfg (s : State) : (drawByte s).2.cfg = s.cfg := by unfold drawByte; split <;> rfl
@[simp] theorem drawByte_env_trace (s : State) : (drawByte s).2.env.trace = s.env.trace := by unfold drawByte; split <;> rfl
@[simp] theorem drawByte_env_turn (s : State) : (drawByte s).2.env.turn = s.env.turn := by unfold drawByte; split <;> rfl
@[simp] theorem drawByte_env_issuer (s : State) : (drawByte s).2.env.issuer = s.env.issuer := by unfold drawByte; split <;> rfl
@[simp] theorem drawByte_env_report (s : State) : (drawByte s).2.env.report = s.env.report := by unfold drawByte; split <;> rfl

/-- A draw changes the environment only. -/
theorem drawBool_state (s : State) : (drawBool s).2 = s.setEnv (drawBool s).2.env := by unfold drawBool; split <;> rfl

/-- A draw changes the environment only. -/
theorem drawByte_state (s : State) : (drawByte s).2 = s.setEnv (drawByte s).2.env := by unfold drawByte; split <;> rfl

@[simp] theorem raiseCause_err (c : Cause) (s : State) : (raiseCause c s).err = { s.err with cause := causeCode c } := rfl
@[simp] theorem raiseCause_sq (c : Cause) (s : State) : (raiseCause c s).sq = s.sq := rfl
@[simp] theorem raiseCause_sl (c : Cause) (s : State) : (raiseCause c s).sl = s.sl := rfl
@[simp] theorem raiseCause_dev (c : Cause) (s : State) : (raiseCause c s).dev = s.dev := rfl
@[simp] theorem raiseCause_dm (c : Cause) (s : State) : (raiseCause c s).dm = s.dm := rfl
@[simp] theorem raiseCause_ol (c : Cause) (s : State) : (raiseCause c s).ol = s.ol := rfl
@[simp] theorem raiseCause_bsr (c : Cause) (s : State) : (raiseCause c s).bsr = s.bsr := rfl
@[simp] theorem raiseCause_sink (c : Cause) (s : State) : (raiseCause c s).sink = s.sink := rfl
@[simp] theorem raiseCause_cfg (c : Cause) (s : State) : (raiseCause c s).cfg = s.cfg := rfl
@[simp] theorem raiseCause_env (c : Cause) (s : State) : (raiseCause c s).env = s.env := rfl

/-- A word is taken exactly when one is pending under a held handle; it is the oldest. -/
theorem takeWord_some {s t : State} {w : BusWord} (h : takeWord s = some (w, t)) :
    ∃ rest, s.dev.handle = .acquired ∧ s.bsr.pending = w :: rest ∧ t = s.setBsr { pending := rest } := by
  unfold takeWord at h
  split at h
  · rename_i w' rest hh hp
    cases h
    exact ⟨rest, hh, hp, rfl⟩
  · cases h

/-- No word is taken exactly when none is pending. -/
theorem takeWord_none {s : State} : takeWord s = none ↔ wordPending s = false := by
  unfold takeWord wordPending
  cases hh : s.dev.handle <;> cases hp : s.bsr.pending <;> simp

/-! ### The chip model -/

/-- `CM.WRITE` keeps the chip's family and changes the chip only. -/
theorem chipWrite_done {a : BitVec 16} {d : Byte} {s t : State} (h : chipWrite a d s = .done t) :
    ∃ x, s.sl.chip = some x ∧ t = s.setSl { s.sl with chip := some (chipAfterWrite s.cfg a d x) } := by
  unfold chipWrite at h
  split at h
  · cases h
  · rename_i x hx; cases h; exact ⟨x, hx, rfl⟩

@[simp] theorem chipAfterWrite_fam (c : Config) (a : BitVec 16) (d : Byte) (x : Chip) :
    (chipAfterWrite c a d x).fam = x.fam := by unfold chipAfterWrite; split <;> rfl

@[simp] theorem chipAfterSample_fam (c : Config) (x : Chip) : (chipAfterSample c x).fam = x.fam := rfl

/-- A write does not advance a sub-unit's clock (R182). -/
@[simp] theorem chipUnitAfter_samples (c : Config) (f : Family) (u : ChipUnits) (old : ChipUnit) (a : BitVec 16) (d : Byte) :
    (chipUnitAfter c f u old a d).samples = old.samples := by unfold chipUnitAfter; split <;> rfl

@[simp] theorem chipNew_fam (c : Config) (f : Family) : (chipNew c f).fam = f := by
  unfold chipNew; split <;> rfl

/-- `CM.SAMPLE` advances the chip only, and gives at least one sample. -/
theorem chipSample_done {s : State} {r : List Sample × State} (h : chipSample s = .done r) :
    ∃ x, s.sl.chip = some x ∧ r.2 = s.setSl { s.sl with chip := some (chipAfterSample s.cfg x) } ∧
      (((familyConfig s.cfg x.fam).nch = .mono ∧ r.1 = [(chipOut s.cfg x).1]) ∨
       ((familyConfig s.cfg x.fam).nch = .stereo ∧ r.1 = [(chipOut s.cfg x).1, (chipOut s.cfg x).2])) := by
  unfold chipSample at h
  split at h
  · cases h
  · rename_i x hx
    cases h
    refine ⟨x, hx, rfl, ?_⟩
    cases hn : (familyConfig s.cfg x.fam).nch <;> simp

/-- `CM.DESTROY` removes the chip only. -/
theorem chipDestroy_done {s t : State} (h : chipDestroy s = .done t) :
    ∃ x, s.sl.chip = some x ∧ t = s.setSl { s.sl with chip := none } := by
  unfold chipDestroy at h
  split at h
  · cases h
  · rename_i x hx; cases h; exact ⟨x, hx, rfl⟩

/-- `CM.CREATE` with a draw that succeeds. -/
theorem chipCreate_ok {f : Family} {s : State} (h : (drawBool s).1 = true) :
    chipCreate f s = (true, (drawBool s).2.setSl { s.sl with chip := some (chipNew s.cfg f) }) := by
  simp [chipCreate, h]

/-- `CM.CREATE` with a draw that fails. -/
theorem chipCreate_failed {f : Family} {s : State} (h : (drawBool s).1 = false) :
    chipCreate f s = (false, (drawBool s).2) := by
  simp [chipCreate, h]

/-! ### Applying a decoded write -/

/-- What applying a decoded write changes: one latch, or the chip by one `CM.WRITE`. -/
theorem applyWrite_done {d : BusWrite} {s t : State} (h : applyWrite d s = .done t) :
    (d.kind = .latch ∧ ∃ u, t = s.setSl (setCurReg u d.payload s.sl)) ∨
    (∃ a x, s.sl.chip = some x ∧ t = s.setSl { s.sl with chip := some (chipAfterWrite s.cfg a d.payload x) }) := by
  unfold applyWrite at h
  split at h
  · split at h
    · rename_i hk; cases h; exact .inl ⟨hk, _, rfl⟩
    · obtain ⟨x, hx, ht⟩ := chipWrite_done h; exact .inr ⟨_, x, hx, ht⟩
  · obtain ⟨x, hx, ht⟩ := chipWrite_done h; exact .inr ⟨_, x, hx, ht⟩
  · split at h
    · rename_i hk; cases h; exact .inl ⟨hk, _, rfl⟩
    · obtain ⟨x, hx, ht⟩ := chipWrite_done h; exact .inr ⟨_, x, hx, ht⟩
  · split at h
    · rename_i hk; cases h; exact .inl ⟨hk, _, rfl⟩
    · obtain ⟨x, hx, ht⟩ := chipWrite_done h; exact .inr ⟨_, x, hx, ht⟩

/-- With a chip model a decoded write is always applied. -/
theorem applyWrite_some {d : BusWrite} {s : State} {x : Chip} (h : s.sl.chip = some x) :
    ∃ t, applyWrite d s = .done t := by
  unfold applyWrite chipWrite
  rw [h]
  cases s.sl.fam <;> cases d.kind <;> exact ⟨_, rfl⟩

/-- The fields of `SL` that a latch write leaves alone. -/
@[simp] theorem setCurReg_state (u : Bool) (v : Byte) (l : Synth) : (setCurReg u v l).state = l.state := by
  cases u <;> rfl
@[simp] theorem setCurReg_phase (u : Bool) (v : Byte) (l : Synth) : (setCurReg u v l).phase = l.phase := by
  cases u <;> rfl
@[simp] theorem setCurReg_fam (u : Bool) (v : Byte) (l : Synth) : (setCurReg u v l).fam = l.fam := by
  cases u <;> rfl
@[simp] theorem setCurReg_chip (u : Bool) (v : Byte) (l : Synth) : (setCurReg u v l).chip = l.chip := by
  cases u <;> rfl
@[simp] theorem setCurReg_pend (u : Bool) (v : Byte) (l : Synth) : (setCurReg u v l).pend = l.pend := by
  cases u <;> rfl

/-- What draining one word did: the oldest word was applied as the wired decoder reads it. -/
theorem drainWord_some {s : State} {a : Act State} (h : drainWord s = some a) :
    ∃ w rest, s.dev.handle = .acquired ∧ s.bsr.pending = w :: rest ∧
      a = applyWrite (busDecode s.cfg s.dev.decFam w) (s.setBsr { pending := rest }) := by
  unfold drainWord at h
  split at h
  · cases h
  · rename_i w s1 hw
    obtain ⟨rest, hh, hp, rfl⟩ := takeWord_some hw
    cases h
    exact ⟨w, rest, hh, hp, rfl⟩

/-- No word is drained exactly when none is pending. -/
theorem drainWord_none {s : State} : drainWord s = none ↔ wordPending s = false := by
  rw [← takeWord_none]
  unfold drainWord
  cases h : takeWord s <;> simp

/-! ### Load and unload -/

@[simp] theorem claimDevice_sq (f : Family) (s : State) : (claimDevice f s).sq = s.sq := rfl
@[simp] theorem claimDevice_sl (f : Family) (s : State) : (claimDevice f s).sl = s.sl := rfl
@[simp] theorem claimDevice_dm (f : Family) (s : State) : (claimDevice f s).dm = s.dm := rfl
@[simp] theorem claimDevice_ol (f : Family) (s : State) : (claimDevice f s).ol = s.ol := rfl
@[simp] theorem claimDevice_err (f : Family) (s : State) : (claimDevice f s).err = s.err := rfl
@[simp] theorem claimDevice_sink (f : Family) (s : State) : (claimDevice f s).sink = s.sink := rfl
@[simp] theorem claimDevice_cfg (f : Family) (s : State) : (claimDevice f s).cfg = s.cfg := rfl
@[simp] theorem claimDevice_env (f : Family) (s : State) : (claimDevice f s).env = s.env := rfl
@[simp] theorem claimDevice_dev (f : Family) (s : State) :
    (claimDevice f s).dev = { s.dev with handle := .acquired, decFam := f, pinsInit := true } := rfl
@[simp] theorem claimDevice_bsr (f : Family) (s : State) : (claimDevice f s).bsr = { pending := [] } := rfl
@[simp] theorem releaseDevice_sq (s : State) : (releaseDevice s).sq = s.sq := rfl
@[simp] theorem releaseDevice_sl (s : State) : (releaseDevice s).sl = s.sl := rfl
@[simp] theorem releaseDevice_dm (s : State) : (releaseDevice s).dm = s.dm := rfl
@[simp] theorem releaseDevice_ol (s : State) : (releaseDevice s).ol = s.ol := rfl
@[simp] theorem releaseDevice_err (s : State) : (releaseDevice s).err = s.err := rfl
@[simp] theorem releaseDevice_sink (s : State) : (releaseDevice s).sink = s.sink := rfl
@[simp] theorem releaseDevice_cfg (s : State) : (releaseDevice s).cfg = s.cfg := rfl
@[simp] theorem releaseDevice_env (s : State) : (releaseDevice s).env = s.env := rfl
@[simp] theorem releaseDevice_dev (s : State) :
    (releaseDevice s).dev = { s.dev with samplingEn := false, handle := .none, pinsInit := false } := rfl
@[simp] theorem releaseDevice_bsr (s : State) : (releaseDevice s).bsr = { pending := [] } := rfl
@[simp] theorem openSampling_sq (s : State) : (openSampling s).sq = s.sq := rfl
@[simp] theorem openSampling_sl (s : State) : (openSampling s).sl = s.sl := rfl
@[simp] theorem openSampling_dm (s : State) : (openSampling s).dm = s.dm := rfl
@[simp] theorem openSampling_ol (s : State) : (openSampling s).ol = s.ol := rfl
@[simp] theorem openSampling_err (s : State) : (openSampling s).err = s.err := rfl
@[simp] theorem openSampling_bsr (s : State) : (openSampling s).bsr = s.bsr := rfl
@[simp] theorem openSampling_sink (s : State) : (openSampling s).sink = s.sink := rfl
@[simp] theorem openSampling_cfg (s : State) : (openSampling s).cfg = s.cfg := rfl
@[simp] theorem openSampling_env (s : State) : (openSampling s).env = s.env := rfl
@[simp] theorem openSampling_dev (s : State) :
    (openSampling s).dev = { s.dev with holdL := 0#16, holdR := 0#16, samplingEn := true } := rfl

/-- The two cases of the load of a synchronous family. -/
theorem loadSync_cases (f : Family) (s : State) :
    ((drawBool s).1 = true ∧ loadSync f s = (true, openSampling (claimDevice f (drawBool s).2))) ∨
    ((drawBool s).1 = false ∧ loadSync f s = (false, raiseCause .resourceExhausted (drawBool s).2)) := by
  cases h : (drawBool s).1 <;> simp [loadSync, h]

/-- The queue a load initialises. -/
theorem prepareLoop_acquired {f : Family} {s : State} (h : (drawBool s).1 = true) :
    prepareLoop f s =
      (true, (Queue.init s.cfg.cMax (familyConfig s.cfg f).cap s.sq).1,
        (claimDevice f (drawBool s).2).setSq (Queue.init s.cfg.cMax (familyConfig s.cfg f).cap s.sq).2) := by
  simp [prepareLoop, h]

theorem prepareLoop_failed {f : Family} {s : State} (h : (drawBool s).1 = false) :
    prepareLoop f s = (false, false, (drawBool s).2) := by
  simp [prepareLoop, h]

/-- The four endings of the load of an SL family (R232). -/
theorem loadSynth_cases (f : Family) (s : State) :
    ((drawBool s).1 = false ∧ loadSynth f s = (false, raiseCause .resourceExhausted (drawBool s).2)) ∨
    ((drawBool s).1 = true ∧ (prepareLoop f s).2.1 = false ∧
      loadSynth f s = failLoad .initFailure (prepareLoop f s).2.2) ∨
    ((drawBool s).1 = true ∧ (prepareLoop f s).2.1 = true ∧ (drawBool (prepareLoop f s).2.2).1 = false ∧
      loadSynth f s = failLoad .initFailure (drawBool (prepareLoop f s).2.2).2) ∨
    ((drawBool s).1 = true ∧ (prepareLoop f s).2.1 = true ∧ (drawBool (prepareLoop f s).2.2).1 = true ∧
      loadSynth f s = (true, startLoop f (chipCreate f (prepareLoop f s).2.2).2)) := by
  cases h : (drawBool s).1
  · exact .inl ⟨rfl, by simp [loadSynth, prepareLoop_failed h]⟩
  · have hp : (prepareLoop f s).1 = true := by rw [prepareLoop_acquired h]
    cases hq : (prepareLoop f s).2.1
    · exact .inr (.inl ⟨rfl, rfl, by simp [loadSynth, hp, hq]⟩)
    · cases hc : (drawBool (prepareLoop f s).2.2).1
      · exact .inr (.inr (.inl ⟨rfl, rfl, rfl, by simp [loadSynth, hp, hq, chipCreate_failed hc]⟩))
      · exact .inr (.inr (.inr ⟨rfl, rfl, rfl, by simp [loadSynth, hp, hq, chipCreate_ok hc]⟩))

/-- A load that is admitted and does not hold is that of an SL family beside no stray chip model, or of a synchronous
one. -/
theorem loadFamily_done {f : Family} {s : State} {r : Bool × State} (h : loadFamily f s = .done r) :
    (hasSL s.cfg f = true ∧ chipCreateRefused f s = false ∧ r = loadSynth f s) ∨
      (hasSL s.cfg f = false ∧ r = loadSync f s) := by
  unfold loadFamily at h
  split at h
  · rename_i hsl
    split at h
    · cases h
    · rename_i hr; cases h; exact .inl ⟨hsl, by simpa using hr, rfl⟩
  · rename_i hsl; cases h; exact .inr ⟨by simpa using hsl, rfl⟩

/-- A `DEV.LOAD` that ran is the load of the family `DEVTAB[i]` with nothing loaded and the loop STOPPED. -/
theorem deviceLoad_done {i : Nat} {s : State} {r : Bool × State} (h : deviceLoad i s = .done r) :
    ∃ f, devTabEntry s.cfg i = some f ∧ s.dm.current = none ∧ s.dev.handle = .none ∧ s.sl.state = .stopped ∧
      loadFamily f s = .done r := by
  unfold deviceLoad at h
  split at h
  · cases h
  · rename_i f hf
    split at h
    · cases h
    · rename_i hs
      split at h
      · cases h
      · rename_i hp
        refine ⟨f, hf, ?_, ?_, by simpa using hs, h⟩
        · cases hc : s.dm.current <;> simp_all
        · cases hc : s.dev.handle <;> simp_all

/-- An unload sends the stop signal to a RUNNING loop and releases the device; nothing else (R236). -/
theorem unloadDevice_eq (s : State) :
    unloadDevice s =
      releaseDevice (s.setSl { s.sl with state := if s.sl.state = .running then .stopping else s.sl.state }) := by
  unfold unloadDevice
  split <;> rfl

@[simp] theorem unloadDevice_sq (s : State) : (unloadDevice s).sq = s.sq := by rw [unloadDevice_eq]; rfl
@[simp] theorem unloadDevice_sl (s : State) :
    (unloadDevice s).sl = { s.sl with state := if s.sl.state = .running then .stopping else s.sl.state } := by
  rw [unloadDevice_eq]; rfl
@[simp] theorem unloadDevice_dev (s : State) :
    (unloadDevice s).dev = { s.dev with samplingEn := false, handle := .none, pinsInit := false } := by
  rw [unloadDevice_eq]; rfl
@[simp] theorem unloadDevice_dm (s : State) : (unloadDevice s).dm = s.dm := by rw [unloadDevice_eq]; rfl
@[simp] theorem unloadDevice_ol (s : State) : (unloadDevice s).ol = s.ol := by rw [unloadDevice_eq]; rfl
@[simp] theorem unloadDevice_err (s : State) : (unloadDevice s).err = s.err := by rw [unloadDevice_eq]; rfl
@[simp] theorem unloadDevice_bsr (s : State) : (unloadDevice s).bsr = { pending := [] } := by rw [unloadDevice_eq]; rfl
@[simp] theorem unloadDevice_sink (s : State) : (unloadDevice s).sink = s.sink := by rw [unloadDevice_eq]; rfl
@[simp] theorem unloadDevice_cfg (s : State) : (unloadDevice s).cfg = s.cfg := by rw [unloadDevice_eq]; rfl
@[simp] theorem unloadDevice_env (s : State) : (unloadDevice s).env = s.env := by rw [unloadDevice_eq]; rfl

/-- A `DEV.UNLOAD` that ran had a device to unload. -/
theorem deviceUnload_done {s t : State} (h : deviceUnload s = .done t) :
    s.dm.current.isSome = true ∧ s.dev.handle = .acquired ∧ t = unloadDevice s := by
  unfold deviceUnload at h
  split at h
  · cases h
  · rename_i hp
    cases h
    refine ⟨?_, ?_, rfl⟩
    · cases hc : s.dm.current <;> simp_all
    · cases hc : s.dev.handle <;> simp_all

/-! ### Generate -/

/-- A spin-waiting pop that ends took the oldest sample. -/
theorem popOrHold_done {s : State} {r : Sample × State} (h : popOrHold s = .done r) :
    ∃ c, s.sq.cap = some c ∧ s.sq.isEmpty = false ∧ r.1 = s.sq.buf.read .qbuf s.sq.tail ∧
      r.2 = s.setSq { s.sq with tail := (s.sq.tail + 1) % c, full := false } := by
  unfold popOrHold at h
  split at h
  · cases h
  · obtain ⟨a, ha, hk⟩ := Act.bind_done.1 h
    obtain ⟨c, hc, ⟨_, rfl⟩ | ⟨he, rfl⟩⟩ := Queue.pop_done ha
    · cases hk
    · cases hk; exact ⟨c, hc, he, rfl, rfl⟩

/-- A spin-waiting pop of an initialised, non-empty queue. -/
theorem popOrHold_some {s : State} {c : Nat} (hc : s.sq.cap = some c) (he : s.sq.isEmpty = false) :
    popOrHold s = .done (s.sq.buf.read .qbuf s.sq.tail,
      s.setSq { s.sq with tail := (s.sq.tail + 1) % c, full := false }) := by
  simp [popOrHold, Queue.pop, hc, he]

/-- A spin-waiting pop of an empty queue holds. -/
theorem popOrHold_empty {s : State} (he : s.sq.isEmpty = true) : popOrHold s = .held .queueEmpty := by
  simp [popOrHold, he]

/-- A synchronous `generate_sample` writes the hold registers and takes at most one word. -/
theorem genSyncMono_frame (f : Family) (s : State) :
    ∃ l p, (genSyncMono f s).2 = (s.setBsr { pending := p }).setDev { s.dev with holdL := l } ∧
      (p = s.bsr.pending ∨ ∃ w, s.bsr.pending = w :: p) := by
  unfold genSyncMono
  split
  · rename_i w s1 hw
    obtain ⟨rest, _, hp, rfl⟩ := takeWord_some hw
    exact ⟨_, rest, rfl, .inr ⟨w, hp⟩⟩
  · exact ⟨s.dev.holdL, s.bsr.pending, rfl, .inl rfl⟩

/-- A synchronous `generate_sample` writes the hold registers and takes at most one word. -/
theorem genSyncStereo_frame (f : Family) (s : State) :
    ∃ l r p, (genSyncStereo f s).2 = (s.setBsr { pending := p }).setDev { s.dev with holdL := l, holdR := r } ∧
      (p = s.bsr.pending ∨ ∃ w, s.bsr.pending = w :: p) := by
  unfold genSyncStereo
  split
  · rename_i w s1 hw
    obtain ⟨rest, _, hp, rfl⟩ := takeWord_some hw
    by_cases hd : (busDecode (s.setBsr { pending := rest }).cfg f w).chan = true
    · simp only [hd, if_true]; exact ⟨_, _, rest, rfl, .inr ⟨w, hp⟩⟩
    · simp only [hd]; exact ⟨_, _, rest, rfl, .inr ⟨w, hp⟩⟩
  · exact ⟨s.dev.holdL, s.dev.holdR, s.bsr.pending, rfl, .inl rfl⟩

/-- A queue-fed `generate_sample` of a mono family is one pop. -/
theorem genQueueMono_done {s : State} {r : Gen × State} (h : genQueueMono s = .done r) :
    ∃ c, s.sq.cap = some c ∧ s.sq.isEmpty = false ∧
      r = (.pair (s.sq.buf.read .qbuf s.sq.tail) (s.sq.buf.read .qbuf s.sq.tail),
        s.setSq { s.sq with tail := (s.sq.tail + 1) % c, full := false }) := by
  obtain ⟨a, ha, hk⟩ := Act.bind_done.1 h
  obtain ⟨c, hc, he, h1, h2⟩ := popOrHold_done ha
  cases hk
  exact ⟨c, hc, he, by rw [h1, h2]⟩

/-- The right pop of a stereo family. -/
theorem genRight_done {s : State} {r : Gen × State} (h : genRight s = .done r) :
    ∃ c, s.sq.cap = some c ∧ s.sq.isEmpty = false ∧
      r = (.pair s.ol.tmpL (s.sq.buf.read .qbuf s.sq.tail),
        (s.setSq { s.sq with tail := (s.sq.tail + 1) % c, full := false }).setOl { s.ol with chan := false }) := by
  obtain ⟨a, ha, hk⟩ := Act.bind_done.1 h
  obtain ⟨c, hc, he, h1, h2⟩ := popOrHold_done ha
  cases hk
  exact ⟨c, hc, he, by rw [h1, h2]; rfl⟩

/-- A queue-fed `generate_sample` of a stereo family: the right pop of a frame begun before, the left pop alone, or
both. -/
theorem genQueueStereo_done {s : State} {r : Gen × State} (h : genQueueStereo s = .done r) :
    ∃ c, s.sq.cap = some c ∧ s.sq.isEmpty = false ∧
      ((s.ol.chan = true ∧ genRight s = .done r) ∨
       (s.ol.chan = false ∧ ∃ s1, s1 = (s.setSq { s.sq with tail := (s.sq.tail + 1) % c, full := false }).setOl
            { s.ol with tmpL := s.sq.buf.read .qbuf s.sq.tail, chan := true } ∧
          ((s1.sq.isEmpty = true ∧ r = (.leftOnly, s1)) ∨ (s1.sq.isEmpty = false ∧ genRight s1 = .done r)))) := by
  unfold genQueueStereo at h
  split at h
  · rename_i hc
    obtain ⟨c, hcap, he, _⟩ := genRight_done h
    exact ⟨c, hcap, he, .inl ⟨hc, h⟩⟩
  · rename_i hch
    obtain ⟨a, ha, hk⟩ := Act.bind_done.1 h
    obtain ⟨c, hc, he, h1, h2⟩ := popOrHold_done ha
    refine ⟨c, hc, he, .inr ⟨by simpa using hch, _, rfl, ?_⟩⟩
    rw [h1, h2] at hk
    dsimp only at hk
    split at hk
    · rename_i hem; cases hk; exact .inl ⟨hem, rfl⟩
    · rename_i hem; exact .inr ⟨by simpa using hem, hk⟩

/-- What a `generate_sample` may write: the read side of the queue, the hold registers, `OL.chan` and `OL.tmp_l`, and
the pending list, from which it takes at most one word. -/
theorem deviceGen_frame {s : State} {r : Gen × State} (h : deviceGen s = .done r) :
    ∃ tl fl hl hr ch tm p,
      r.2 = (((s.setSq { s.sq with tail := tl, full := fl }).setDev { s.dev with holdL := hl, holdR := hr }).setOl
        { s.ol with chan := ch, tmpL := tm }).setBsr { pending := p } ∧
      (p = s.bsr.pending ∨ ∃ w, s.bsr.pending = w :: p) ∧ (fl = true → s.sq.full = true) := by
  unfold deviceGen at h
  split at h
  · cases h
  · rename_i f hf
    split at h
    · split at h
      · obtain ⟨c, _, _, rfl⟩ := genQueueMono_done h
        exact ⟨_, _, s.dev.holdL, s.dev.holdR, s.ol.chan, s.ol.tmpL, s.bsr.pending, rfl, .inl rfl, by simp⟩
      · obtain ⟨c, _, _, ⟨_, hr⟩ | ⟨_, s1, rfl, ⟨_, rfl⟩ | ⟨_, hr⟩⟩⟩ := genQueueStereo_done h
        · obtain ⟨c', _, _, rfl⟩ := genRight_done hr
          exact ⟨_, _, s.dev.holdL, s.dev.holdR, false, s.ol.tmpL, s.bsr.pending, rfl, .inl rfl, by simp⟩
        · exact ⟨(s.sq.tail + 1) % c, false, s.dev.holdL, s.dev.holdR, true, s.sq.buf.read .qbuf s.sq.tail,
            s.bsr.pending, rfl, .inl rfl, by simp⟩
        · obtain ⟨c', _, _, rfl⟩ := genRight_done hr
          exact ⟨((s.sq.tail + 1) % c + 1) % c', false, s.dev.holdL, s.dev.holdR, false,
            s.sq.buf.read .qbuf s.sq.tail, s.bsr.pending, rfl, .inl rfl, by simp⟩
    · split at h
      · obtain ⟨l, rr, p, he, hp⟩ := genSyncStereo_frame .stereoOnOne s
        cases h
        exact ⟨s.sq.tail, s.sq.full, l, rr, s.ol.chan, s.ol.tmpL, p, by rw [he]; rfl, hp, id⟩
      · rename_i g _
        obtain ⟨l, p, he, hp⟩ := genSyncMono_frame f s
        cases h
        exact ⟨s.sq.tail, s.sq.full, l, s.dev.holdR, s.ol.chan, s.ol.tmpL, p, by rw [he]; rfl, hp, id⟩

end Sys2Proof.Machine
end

