-- ==== Sys2Proof/Laws/Exec.lean ====
section
/-!
SUPPORT. For each meaning, what it did if it answers a next state: the cases, so that no proof unfolds a meaning again.
A step word that holds or is not enabled leaves everything but the report (`Waited`).
-/

namespace Sys2Proof.Machine

/-- `t` is `s` with a report that the step word held or was not enabled. -/
def Waited (s t : State) : Prop := (∃ x, t = s.setReport (.held x)) ∨ t = s.setReport .notEnabled

/-- `t` is `u` with the report `r`, and `s` answered it in the one way an operation can: its body was done. -/
theorem perform_ran_or_waited {i : Instr} {s t : State} {a : Act (Report × State)} (h : perform i s a = .next t) :
    (∃ r u, a = .done (r, u) ∧ t = u.setReport r) ∨ Waited s t := by
  obtain ⟨_, h1 | ⟨x, _, h2⟩ | ⟨_, h3⟩⟩ := perform_next h
  · exact .inl h1
  · exact .inr (.inl ⟨x, h2⟩)
  · exact .inr (.inr h3)

theorem execQInit_next {cap : BitVec 32} {s t : State} (h : execQInit cap s = .next t) :
    Waited s t ∨ (s.sl.state = .stopped ∧ consumerActive s = false ∧
      t = (s.setSq (Queue.init s.cfg.cMax cap s.sq).2).setReport
        (.returned (Queue.init s.cfg.cMax cap s.sq).1 none)) := by
  obtain ⟨r, u, ha, rfl⟩ | hw := perform_ran_or_waited h
  · split at ha
    · cases ha
    · rename_i hs
      simp only [Bool.or_eq_true, not_or, Bool.not_eq_true] at hs
      cases ha; exact .inr ⟨by simpa [producerActive] using hs.1, hs.2, rfl⟩
  · exact .inl hw

theorem execQPush_next {v : Sample} {s t : State} (h : execQPush v s = .next t) :
    Waited s t ∨ ∃ r, Queue.push v s.sq = .done r ∧ t = (s.setSq r.2).setReport (.returned r.1 none) := by
  obtain ⟨r, u, ha, rfl⟩ | hw := perform_ran_or_waited h
  · obtain ⟨q, hq, hk⟩ := Act.bind_done.1 ha
    cases hk; exact .inr ⟨_, hq, rfl⟩
  · exact .inl hw

theorem execQPop_next {s t : State} (h : execQPop s = .next t) :
    Waited s t ∨ ∃ r, Queue.pop s.sq = .done r ∧
      ((r.1 = none ∧ t = (s.setSq r.2).setReport (.returned false none)) ∨
       ∃ v, r.1 = some v ∧ t = (s.setSq r.2).setReport (.returned true (some (packOne v)))) := by
  obtain ⟨r, u, ha, rfl⟩ | hw := perform_ran_or_waited h
  · obtain ⟨q, hq, hk⟩ := Act.bind_done.1 ha
    refine .inr ⟨q, hq, ?_⟩
    split at hk
    · rename_i hn; cases hk; exact .inl ⟨hn, rfl⟩
    · rename_i v hv; cases hk; exact .inr ⟨v, hv, rfl⟩
  · exact .inl hw

/-- A queue query, a decoder operation: only the report changes. -/
theorem execQIsFull_next {s t : State} (h : execQIsFull s = .next t) : ∃ r, t = s.setReport r := by
  obtain ⟨r, u, ha, rfl⟩ | ⟨x, rfl⟩ | rfl := perform_ran_or_waited h
  · obtain ⟨b, _, hk⟩ := Act.bind_done.1 ha
    cases hk; exact ⟨_, rfl⟩
  · exact ⟨_, rfl⟩
  · exact ⟨_, rfl⟩

theorem execQIsEmpty_next {s t : State} (h : execQIsEmpty s = .next t) : ∃ r, t = s.setReport r := by
  obtain ⟨r, u, ha, rfl⟩ | ⟨x, rfl⟩ | rfl := perform_ran_or_waited h
  · obtain ⟨b, _, hk⟩ := Act.bind_done.1 ha
    cases hk; exact ⟨_, rfl⟩
  · exact ⟨_, rfl⟩
  · exact ⟨_, rfl⟩

/-- A step word whose body only returns a value at the same state. -/
theorem perform_answerVal_next {i : Instr} {s t : State} {v : BitVec 32} (h : perform i s (answerVal v s) = .next t) :
    ∃ r, t = s.setReport r := by
  obtain ⟨r, u, ha, rfl⟩ | ⟨x, rfl⟩ | rfl := perform_ran_or_waited h
  · cases ha; exact ⟨_, rfl⟩
  · exact ⟨_, rfl⟩
  · exact ⟨_, rfl⟩

theorem execCmCreate_next {k : BitVec 3} {s t : State} (h : execCmCreate k s = .next t) :
    Waited s t ∨ ∃ f, familyOfId k.toNat = some f ∧ hasSL s.cfg f = true ∧ s.sl.chip = none ∧ s.sl.state = .stopped ∧
      t = (chipCreate f s).2.setReport (.returned (chipCreate f s).1 none) := by
  obtain ⟨r, u, ha, rfl⟩ | hw := perform_ran_or_waited h
  · split at ha
    · cases ha
    · rename_i f hf
      split at ha
      · cases ha
      · rename_i hb
        split at ha
        · cases ha
        · rename_i hc
          cases ha
          refine .inr ⟨f, hf, ?_, ?_, ?_, rfl⟩
          · cases hh : hasSL s.cfg f <;> simp_all
          · cases hh : s.sl.chip <;> simp_all [chipCreatable]
          · simp_all [chipCreatable]
  · exact .inl hw

theorem execCmWrite_next {a : BitVec 16} {d : Byte} {s t : State} (h : execCmWrite a d s = .next t) :
    Waited s t ∨ ∃ x, s.sl.chip = some x ∧
      t = (s.setSl { s.sl with chip := some (chipAfterWrite s.cfg a d x) }).setReport (.returned true none) := by
  obtain ⟨r, u, ha, rfl⟩ | hw := perform_ran_or_waited h
  · obtain ⟨q, hq, hk⟩ := Act.bind_done.1 ha
    obtain ⟨x, hx, rfl⟩ := chipWrite_done hq
    cases hk; exact .inr ⟨x, hx, rfl⟩
  · exact .inl hw

theorem execCmSample_next {s t : State} (h : execCmSample s = .next t) :
    Waited s t ∨ ∃ x v, s.sl.chip = some x ∧
      t = (s.setSl { s.sl with chip := some (chipAfterSample s.cfg x) }).setReport (.returned true (some v)) := by
  obtain ⟨r, u, ha, rfl⟩ | hw := perform_ran_or_waited h
  · obtain ⟨q, hq, hk⟩ := Act.bind_done.1 ha
    obtain ⟨x, hx, hq2, _⟩ := chipSample_done hq
    cases hk; exact .inr ⟨x, _, hx, by rw [hq2]⟩
  · exact .inl hw

theorem execCmDestroy_next {s t : State} (h : execCmDestroy s = .next t) :
    Waited s t ∨ t = (s.setSl { s.sl with chip := none }).setReport (.returned true none) := by
  obtain ⟨r, u, ha, rfl⟩ | hw := perform_ran_or_waited h
  · obtain ⟨q, hq, hk⟩ := Act.bind_done.1 ha
    obtain ⟨x, hx, rfl⟩ := chipDestroy_done hq
    cases hk; exact .inr rfl
  · exact .inl hw

theorem execSlHead_next {s t : State} (h : execSlHead s = .next t) :
    Waited s t ∨ (s.sl.state = .running ∧ s.sl.phase = .head ∧
      t = (s.setSl { s.sl with phase := .drain }).setReport .nothing) := by
  obtain ⟨r, u, ha, rfl⟩ | hw := perform_ran_or_waited h
  · split at ha
    · rename_i hc; cases ha; exact .inr ⟨hc.1, hc.2, rfl⟩
    · cases ha
  · exact .inl hw

/-- What a pending word that the loop takes changes. -/
theorem drainWord_ran {s t : State} {a : Act State} {r : Report} (hd : drainWord s = some a)
    (h : a.bind ran = .done (r, t)) :
    r = .nothing ∧ ∃ w rest, s.dev.handle = .acquired ∧ s.bsr.pending = w :: rest ∧
      (((busDecode s.cfg s.dev.decFam w).kind = .latch ∧
          ∃ u v, t = (s.setBsr { pending := rest }).setSl (setCurReg u v s.sl)) ∨
       (∃ a d x, s.sl.chip = some x ∧
          t = (s.setBsr { pending := rest }).setSl { s.sl with chip := some (chipAfterWrite s.cfg a d x) })) := by
  obtain ⟨w, rest, hh, hp, rfl⟩ := drainWord_some hd
  obtain ⟨q, hq, hk⟩ := Act.bind_done.1 h
  cases hk
  refine ⟨rfl, w, rest, hh, hp, ?_⟩
  obtain ⟨hl, u, rfl⟩ | ⟨a, x, hx, rfl⟩ := applyWrite_done hq
  · exact .inl ⟨hl, u, _, rfl⟩
  · exact .inr ⟨a, _, x, hx, rfl⟩

theorem execSlDrain_next {s t : State} (h : execSlDrain s = .next t) :
    Waited s t ∨ (s.sl.state = .running ∧ s.sl.phase = .drain ∧
      ((wordPending s = false ∧ t = (s.setSl { s.sl with phase := .sample }).setReport .nothing) ∨
       ∃ a u, drainWord s = some a ∧ a.bind ran = .done (.nothing, u) ∧ t = u.setReport .nothing)) := by
  obtain ⟨r, u, ha, rfl⟩ | hw := perform_ran_or_waited h
  · split at ha
    · rename_i hc
      refine .inr ⟨hc.1, hc.2, ?_⟩
      split at ha
      · rename_i a hd
        obtain ⟨rfl, _⟩ := drainWord_ran hd ha
        exact .inr ⟨a, u, hd, ha, rfl⟩
      · rename_i hd
        cases ha
        exact .inl ⟨drainWord_none.1 hd, rfl⟩
    · cases ha
  · exact .inl hw

theorem execSlSample_next {s t : State} (h : execSlSample s = .next t) :
    Waited s t ∨ (s.sl.state ≠ .stopped ∧ s.sl.phase = .sample ∧ ∃ x vals, s.sl.chip = some x ∧
      chipSample s = .done (vals, s.setSl { s.sl with chip := some (chipAfterSample s.cfg x) }) ∧ vals ≠ [] ∧
      t = (s.setSl { s.sl with chip := some (chipAfterSample s.cfg x), pend := vals, phase := .stall }).setReport
        .nothing) := by
  obtain ⟨r, u, ha, rfl⟩ | hw := perform_ran_or_waited h
  · split at ha
    · rename_i hc
      obtain ⟨q, hq, hk⟩ := Act.bind_done.1 ha
      obtain ⟨x, hx, hq2, hv⟩ := chipSample_done hq
      obtain ⟨v, u'⟩ := q
      dsimp only at hq2 hv
      subst hq2
      cases hk
      refine .inr ⟨by simpa [loopAlive] using hc.1, hc.2, x, v, hx, hq, ?_, rfl⟩
      obtain ⟨_, rfl⟩ | ⟨_, rfl⟩ := hv <;> simp
    · cases ha
  · exact .inl hw

theorem execSlStall_next {s t : State} (h : execSlStall s = .next t) :
    Waited s t ∨ (s.sl.state ≠ .stopped ∧ s.sl.phase = .stall ∧
      ((s.sq.full = false ∧ t = (s.setSl { s.sl with phase := .push }).setReport .nothing) ∨
       (s.sq.full = true ∧ s.sl.state ≠ .stopping ∧
        ∃ a u, drainWord s = some a ∧ a.bind ran = .done (.nothing, u) ∧ t = u.setReport .nothing))) := by
  obtain ⟨r, u, ha, rfl⟩ | hw := perform_ran_or_waited h
  · split at ha
    · rename_i hc
      refine .inr ⟨by simpa [loopAlive] using hc.1, hc.2, ?_⟩
      split at ha
      · rename_i hf; cases ha; exact .inl ⟨by simpa [Queue.isFull] using hf, rfl⟩
      · rename_i hf
        split at ha
        · cases ha
        · rename_i hst
          split at ha
          · rename_i a hd
            obtain ⟨rfl, _⟩ := drainWord_ran hd ha
            exact .inr ⟨by simpa [Queue.isFull] using hf, by simpa [stopSignal] using hst, a, u, hd, ha, rfl⟩
          · cases ha
    · cases ha
  · exact .inl hw

/-- Reading the first pending sample changes at most the count of free values. -/
theorem firstPending_state (s : State) :
    ∃ n, (s.sl.pend ≠ [] → n = s.env.drawn) ∧ (firstPending s).2 = s.setEnv { s.env with drawn := n } := by
  unfold firstPending
  split
  · exact ⟨s.env.drawn, fun _ => rfl, rfl⟩
  · rename_i hp; exact ⟨s.env.drawn + 1, fun h => absurd hp h, rfl⟩

/-- With a sample pending, the first one is read and nothing changes. -/
theorem firstPending_cons {s : State} {v : Sample} {rest : List Sample} (h : s.sl.pend = v :: rest) :
    firstPending s = (v, s) := by
  simp [firstPending, h]

/-- With a sample pending, `SL.pend` and `SL.phase` after a push. -/
theorem dropPending_cons {l : Synth} {v : Sample} {rest : List Sample} (h : l.pend = v :: rest) :
    dropPending l = { l with pend := rest, phase := if rest.isEmpty then .head else .stall } := by
  simp [dropPending, h]

@[simp] theorem dropPending_state (l : Synth) : (dropPending l).state = l.state := rfl
@[simp] theorem dropPending_chip (l : Synth) : (dropPending l).chip = l.chip := rfl
@[simp] theorem dropPending_fam (l : Synth) : (dropPending l).fam = l.fam := rfl

theorem execSlPush_next {s t : State} (h : execSlPush s = .next t) :
    Waited s t ∨ (s.sl.state ≠ .stopped ∧ s.sl.phase = .push ∧ ∃ r n, Queue.push (firstPending s).1 s.sq = .done r ∧
      (s.sl.pend ≠ [] → n = s.env.drawn) ∧
      t = (((s.setEnv { s.env with drawn := n }).setSq r.2).setSl (dropPending s.sl)).setReport .nothing) := by
  obtain ⟨r, u, ha, rfl⟩ | hw := perform_ran_or_waited h
  · split at ha
    · rename_i hc
      obtain ⟨n, hn, he⟩ := firstPending_state s
      rw [he] at ha
      obtain ⟨q, hq, hk⟩ := Act.bind_done.1 ha
      cases hk
      exact .inr ⟨by simpa [loopAlive] using hc.1, hc.2, q, n, hq, hn, rfl⟩
    · cases ha
  · exact .inl hw

theorem execSlExit_next {s t : State} (h : execSlExit s = .next t) :
    Waited s t ∨ (exitEnabled s = true ∧ s.sl.state = .stopping ∧
      t = (s.setSl { s.sl with chip := none, pend := [], phase := .head, state := .stopped }).setReport .nothing) := by
  obtain ⟨r, u, ha, rfl⟩ | hw := perform_ran_or_waited h
  · split at ha
    · rename_i hc
      cases ha
      refine .inr ⟨hc, ?_, rfl⟩
      simp [exitEnabled, stopSignal] at hc; exact hc.1
    · cases ha
  · exact .inl hw

theorem execDevLoad_next {k : BitVec 3} {s t : State} (h : execDevLoad k s = .next t) :
    Waited s t ∨ ∃ r, deviceLoad k.toNat s = .done r ∧ t = r.2.setReport (.returned r.1 none) := by
  obtain ⟨r, u, ha, rfl⟩ | hw := perform_ran_or_waited h
  · obtain ⟨q, hq, hk⟩ := Act.bind_done.1 ha
    cases hk; exact .inr ⟨_, hq, rfl⟩
  · exact .inl hw

theorem execDevUnload_next {s t : State} (h : execDevUnload s = .next t) :
    Waited s t ∨ ∃ u, deviceUnload s = .done u ∧ t = u.setReport (.returned true none) := by
  obtain ⟨r, u, ha, rfl⟩ | hw := perform_ran_or_waited h
  · obtain ⟨q, hq, hk⟩ := Act.bind_done.1 ha
    cases hk; exact .inr ⟨_, hq, rfl⟩
  · exact .inl hw

theorem execDevGen_next {s t : State} (h : execDevGen s = .next t) :
    Waited s t ∨ ∃ r x, deviceGen s = .done r ∧ t = r.2.setReport x := by
  obtain ⟨r, u, ha, rfl⟩ | hw := perform_ran_or_waited h
  · obtain ⟨q, hq, hk⟩ := Act.bind_done.1 ha
    split at hk
    · cases hk; exact .inr ⟨_, _, hq, rfl⟩
    · cases hk; exact .inr ⟨_, _, hq, rfl⟩
  · exact .inl hw

/-- Outside FAULT an Output Loop step is its own body. -/
theorem unlessFault_done {s : State} {a : Act (Report × State)} {r : Report × State} (h : unlessFault s a = .done r) :
    s.ol.phase ≠ .fault ∧ a = .done r := by
  unfold unlessFault at h
  split at h
  · cases h
  · rename_i hf; exact ⟨hf, h⟩

theorem execOlSwapchk_next {s t : State} (h : execOlSwapchk s = .next t) :
    Waited s t ∨ (s.ol.phase = .swap ∧
      ((∃ i, s.dm.current = some i ∧ i = s.dm.wanted ∧
          t = (s.setOl { s.ol with phase := .getblk }).setReport .nothing) ∨
       (∃ i, s.dm.current = some i ∧ i ≠ s.dm.wanted ∧
          t = ((unloadDevice s).setDm { s.dm with current := none }).setReport .nothing) ∨
       (∃ r, s.dm.current = none ∧ deviceLoad s.dm.wanted s = .done r ∧
          t = (afterLoad s.dm.wanted r.1 r.2).setReport .nothing))) := by
  obtain ⟨r, u, ha, rfl⟩ | hw := perform_ran_or_waited h
  · obtain ⟨_, ha⟩ := unlessFault_done ha
    split at ha
    · rename_i hp
      refine .inr ⟨hp, ?_⟩
      split at ha
      · rename_i i hi
        split at ha
        · rename_i hs
          cases ha
          refine .inr (.inl ⟨i, hi, ?_, rfl⟩)
          simpa [swapPending, hi] using hs
        · rename_i hs
          cases ha
          refine .inl ⟨i, hi, ?_, rfl⟩
          simpa [swapPending, hi] using hs
      · rename_i hn
        obtain ⟨q, hq, hk⟩ := Act.bind_done.1 ha
        cases hk
        exact .inr (.inr ⟨q, hn, hq, rfl⟩)
    · cases ha
  · exact .inl hw

theorem execOlGetblk_next {s t : State} (h : execOlGetblk s = .next t) :
    Waited s t ∨ (s.ol.phase = .getblk ∧ s.sink.credit ≠ 0 ∧
      t = ((s.setSink { s.sink with credit := s.sink.credit - 1 }).setOl
        { s.ol with frame := 0, chan := false, phase := .fill }).setReport .nothing) := by
  obtain ⟨r, u, ha, rfl⟩ | hw := perform_ran_or_waited h
  · obtain ⟨_, ha⟩ := unlessFault_done ha
    split at ha
    · rename_i hp
      split at ha
      · cases ha
      · rename_i hc; cases ha; exact .inr ⟨hp, hc, rfl⟩
    · cases ha
  · exact .inl hw

theorem execOlFrame_next {s t : State} (h : execOlFrame s = .next t) :
    Waited s t ∨ (s.ol.phase = .fill ∧ (loadedFamily s).isSome = true ∧ ∃ g u, deviceGen s = .done (g, u) ∧
      ((∃ l r, g = .pair l r ∧ t = (writeFrame l r u).setReport .nothing) ∨
       (g = .leftOnly ∧ t = u.setReport .nothing))) := by
  obtain ⟨r, u, ha, rfl⟩ | hw := perform_ran_or_waited h
  · obtain ⟨_, ha⟩ := unlessFault_done ha
    split at ha
    · rename_i hp
      obtain ⟨⟨g, v⟩, hq, hk⟩ := Act.bind_done.1 ha
      refine .inr ⟨hp.1, hp.2, g, v, hq, ?_⟩
      cases g with
      | pair l r => cases hk; exact .inl ⟨l, r, rfl, rfl⟩
      | leftOnly => cases hk; exact .inr ⟨rfl, rfl⟩
    · cases ha
  · exact .inl hw

theorem execOlSubmit_next {s t : State} (h : execOlSubmit s = .next t) :
    Waited s t ∨ (s.ol.phase = .submit ∧
      t = ((s.setSink { s.sink with out := s.sink.out ++ [blockCopy s] }).setOl { s.ol with phase := .swap }).setReport
        .nothing) := by
  obtain ⟨r, u, ha, rfl⟩ | hw := perform_ran_or_waited h
  · obtain ⟨_, ha⟩ := unlessFault_done ha
    split at ha
    · rename_i hp; cases ha; exact .inr ⟨hp, rfl⟩
    · cases ha
  · exact .inl hw

theorem execHostStrobe_next {w : BusWord} {s t : State} (h : execHostStrobe w s = .next t) :
    Waited s t ∨ (s.dev.samplingEn = true ∧
      t = (s.setBsr { pending := s.bsr.pending ++ [w] }).setReport .nothing) := by
  obtain ⟨r, u, ha, rfl⟩ | hw := perform_ran_or_waited h
  · split at ha
    · rename_i hs; cases ha; exact .inr ⟨hs, rfl⟩
    · cases ha
  · exact .inl hw

theorem execSinkReady_next {s t : State} (h : execSinkReady s = .next t) :
    Waited s t ∨ t = (s.setSink { s.sink with credit := s.sink.credit + 1 }).setReport .nothing := by
  obtain ⟨r, u, ha, rfl⟩ | hw := perform_ran_or_waited h
  · cases ha; exact .inr rfl
  · exact .inl hw

theorem execHsRequest_next {k : BitVec 3} {s t : State} (h : execHsRequest k s = .next t) :
    Waited s t ∨ (k.toNat < nDev s.cfg ∧ t = (s.setDm { s.dm with wanted := k.toNat }).setReport .nothing) ∨
      (nDev s.cfg ≤ k.toNat ∧ t = s.setReport .nothing) := by
  obtain ⟨r, u, ha, rfl⟩ | hw := perform_ran_or_waited h
  · split at ha
    · rename_i hk; cases ha; exact .inr (.inl ⟨hk, rfl⟩)
    · rename_i hk; cases ha; exact .inr (.inr ⟨by omega, rfl⟩)
  · exact .inl hw

/-- Every arm is one `perform` of its own instruction at the state it is given, so the owner check comes first. -/
theorem exec_eq_perform (i : Instr) (s : State) : ∃ a, exec i s = perform i s a := by
  cases i <;> simp only [exec, execDecCovox, execDecStereo1, execDecDss, execDecFtl, execDecOpl2, execDecTandy,
    execDecCms, execSinkReady] <;> exact ⟨_, rfl⟩

/-- A step that answers a next state ran a decoded instruction at the state after the fetch. -/
theorem step_next {s t : State} (h : step s = .next t) :
    ∃ i, decode (nextWord s) = .ok i ∧ exec i (afterFetch s) = .next t := by
  unfold step at h
  split at h
  · rename_i i hi; exact ⟨i, hi, h⟩
  · cases h

@[simp] theorem afterFetch_sq (s : State) : (afterFetch s).sq = s.sq := by unfold afterFetch; split <;> rfl
@[simp] theorem afterFetch_sl (s : State) : (afterFetch s).sl = s.sl := by unfold afterFetch; split <;> rfl
@[simp] theorem afterFetch_dev (s : State) : (afterFetch s).dev = s.dev := by unfold afterFetch; split <;> rfl
@[simp] theorem afterFetch_dm (s : State) : (afterFetch s).dm = s.dm := by unfold afterFetch; split <;> rfl
@[simp] theorem afterFetch_ol (s : State) : (afterFetch s).ol = s.ol := by unfold afterFetch; split <;> rfl
@[simp] theorem afterFetch_err (s : State) : (afterFetch s).err = s.err := by unfold afterFetch; split <;> rfl
@[simp] theorem afterFetch_bsr (s : State) : (afterFetch s).bsr = s.bsr := by unfold afterFetch; split <;> rfl
@[simp] theorem afterFetch_sink (s : State) : (afterFetch s).sink = s.sink := by unfold afterFetch; split <;> rfl
@[simp] theorem afterFetch_cfg (s : State) : (afterFetch s).cfg = s.cfg := by unfold afterFetch; split <;> rfl

end Sys2Proof.Machine
end

