-- ==== Sys2Proof/Laws/PerInstr.lean ====
section
/-!
SUPPORT. Statements about every instruction as syntax, one lemma for each constructor, and the canonical form of the
two storage spaces after reset.
-/

namespace Sys2Proof.Machine

/-- Nothing is written after reset, so both spaces are in canonical form (10_state.md R26, R43). -/
theorem reset_buf_wf : State.reset.sq.buf.wf := Memory.wf_nil

/-- Nothing is written after reset, so both spaces are in canonical form (10_state.md R26, R43). -/
theorem reset_blk_wf : State.reset.ol.blk.wf := Memory.wf_nil

/-- The two writes of a frame keep the canonical form of the block (45_output_loop.md R264). -/
theorem Memory.wf_write_two (m : Memory) (k j : Nat) (v w : Sample) (h : m.wf) : ((m.write k v).write j w).wf :=
  Memory.wf_write _ _ _ (Memory.wf_write _ _ _ h)

end Sys2Proof.Machine

namespace Sys2Proof.Laws.EncodedFields

/-- The encoding of an instruction has its operation code in `op`, its operand in `arg`, and 0 in every bit of `arg`
that R103 gives it no field for (R101). -/
def Statement (i : Instr) : Prop :=
  opField (encode i) = opcode i ∧ argField (encode i) = argument i ∧ argument i &&& ~~~usedArgBits i = 0#32

/-- The first two parts hold of any instruction; the third is left. -/
theorem of_unused {i : Instr} (h : argument i &&& ~~~usedArgBits i = 0#32) : Statement i :=
  ⟨opField_append _ _, argField_append _ _, h⟩

/-- An operand that fills `arg` leaves no bit unused. -/
theorem full_operand (w : BitVec 32) : w &&& ~~~0xFFFFFFFF#32 = 0#32 := by
  rw [show ~~~0xFFFFFFFF#32 = 0#32 by decide, BitVec.and_zero]

/-- An operand of three bits. -/
theorem index_operand (k : BitVec 3) : k.setWidth 32 &&& ~~~0x00000007#32 = 0#32 := by
  revert k; decide

/-- An operand of sixteen bits. -/
theorem sample_operand (v : BitVec 16) : v.setWidth 32 &&& ~~~0x0000FFFF#32 = 0#32 := by
  apply BitVec.eq_of_getLsbD_eq
  intro j hj
  rw [BitVec.getLsbD_and, BitVec.getLsbD_setWidth]
  have hmask : ∀ n : Fin 32, (~~~0x0000FFFF#32).getLsbD n.1 = decide (16 ≤ n.1) := by decide
  rw [hmask ⟨j, hj⟩]
  by_cases h : 16 ≤ j
  · simp [BitVec.getLsbD_of_ge v j h]
  · simp [h]

/-- The operand of `CM.WRITE`: 24 bits. -/
theorem chip_operand (a : BitVec 16) (d : Byte) : ((0#8 ++ a) ++ d : BitVec 32) &&& ~~~0x00FFFFFF#32 = 0#32 := by
  apply BitVec.eq_of_getLsbD_eq
  intro j hj
  rw [BitVec.getLsbD_and, chipOperand_getLsbD]
  have hmask : ∀ n : Fin 32, (~~~0x00FFFFFF#32).getLsbD n.1 = decide (24 ≤ n.1) := by decide
  rw [hmask ⟨j, hj⟩]
  by_cases h : 24 ≤ j
  · rw [if_neg (by omega), BitVec.getLsbD_of_ge a (j - 8) (by omega)]; simp
  · simp [h]

theorem qInit (cap : BitVec 32) : Statement (.qInit cap) := of_unused (full_operand cap)
theorem qPush (v : Sample) : Statement (.qPush v) := of_unused (sample_operand v)
theorem qPop : Statement .qPop := of_unused (by decide)
theorem qIsFull : Statement .qIsFull := of_unused (by decide)
theorem qIsEmpty : Statement .qIsEmpty := of_unused (by decide)
theorem decCovox (w : BusWord) : Statement (.decCovox w) := of_unused (full_operand w)
theorem decStereo1 (w : BusWord) : Statement (.decStereo1 w) := of_unused (full_operand w)
theorem decDss (w : BusWord) : Statement (.decDss w) := of_unused (full_operand w)
theorem decFtl (w : BusWord) : Statement (.decFtl w) := of_unused (full_operand w)
theorem decOpl2 (w : BusWord) : Statement (.decOpl2 w) := of_unused (full_operand w)
theorem decTandy (w : BusWord) : Statement (.decTandy w) := of_unused (full_operand w)
theorem decCms (w : BusWord) : Statement (.decCms w) := of_unused (full_operand w)
theorem cmCreate (k : BitVec 3) : Statement (.cmCreate k) := of_unused (index_operand k)
theorem cmWrite (a : BitVec 16) (d : Byte) : Statement (.cmWrite a d) := of_unused (chip_operand a d)
theorem cmSample : Statement .cmSample := of_unused (by decide)
theorem cmDestroy : Statement .cmDestroy := of_unused (by decide)
theorem slHead : Statement .slHead := of_unused (by decide)
theorem slDrain : Statement .slDrain := of_unused (by decide)
theorem slSample : Statement .slSample := of_unused (by decide)
theorem slStall : Statement .slStall := of_unused (by decide)
theorem slPush : Statement .slPush := of_unused (by decide)
theorem slExit : Statement .slExit := of_unused (by decide)
theorem devLoad (k : BitVec 3) : Statement (.devLoad k) := of_unused (index_operand k)
theorem devUnload : Statement .devUnload := of_unused (by decide)
theorem devGen : Statement .devGen := of_unused (by decide)
theorem olSwapchk : Statement .olSwapchk := of_unused (by decide)
theorem olGetblk : Statement .olGetblk := of_unused (by decide)
theorem olFrame : Statement .olFrame := of_unused (by decide)
theorem olSubmit : Statement .olSubmit := of_unused (by decide)
theorem hostStrobe (w : BusWord) : Statement (.hostStrobe w) := of_unused (full_operand w)
theorem sinkReady : Statement .sinkReady := of_unused (by decide)
theorem hsRequest (k : BitVec 3) : Statement (.hsRequest k) := of_unused (index_operand k)

end Sys2Proof.Laws.EncodedFields
end

