-- ==== Sys2Proof/Tests/Slice0.lean ====
section
/-!
SUPPORT. The model's own tests: the smoke test of WellFormed, one written-out word for each constructor, one-step tests
whose expected values are those of 95_test_vectors.md, and for each statement with hypotheses a state and operands that
meet them.
-/

open Sys2Proof Sys2Proof.Machine Sys2Proof.Claims

namespace Sys2Proof.Tests

/-! ### Well-formedness: each check with a term it refuses and one it admits -/

theorem test_wf_load_index_out_of_table : Instr.wellFormed Config.default (.devLoad 7#3) = false := by decide
theorem test_wf_load_last_index : Instr.wellFormed Config.default (.devLoad 6#3) = true := by decide
theorem test_wf_create_id_out_of_table : Instr.wellFormed Config.default (.cmCreate 7#3) = false := by decide
theorem test_wf_create_last_id : Instr.wellFormed Config.default (.cmCreate 6#3) = true := by decide
theorem test_wf_request_may_be_out_of_table : Instr.wellFormed Config.default (.hsRequest 7#3) = true := by decide
theorem test_wf_init_capacity_is_free : Instr.wellFormed Config.default (.qInit 3#32) = true := by decide

theorem test_wf_layout :
    Layout.default.wellFormed = true ∧ Layout.wellFormed { dataLsb := 0, ctlA := 8, ctlB := 9 } = true := by decide
theorem test_wf_layout_refused :
    [{ dataLsb := 25, ctlA := 0, ctlB := 1 }, { dataLsb := 0, ctlA := 32, ctlB := 9 }, { dataLsb := 0, ctlA := 8, ctlB := 32 },
      { dataLsb := 24, ctlA := 31, ctlB := 22 }, { dataLsb := 24, ctlA := 23, ctlB := 24 },
      { dataLsb := 24, ctlA := 23, ctlB := 23 : Layout }].all (fun l => !l.wellFormed) = true := by decide

/-! ### Decoding: words written out from 30_encoding.md R101, R103 and the step words of 95_test_vectors.md -/

theorem test_decode_qInit : decode 0x0000000800#40 = .ok (.qInit 2048#32) := by decide
theorem test_decode_qPush : decode 0x01ABCD0005#40 = .ok (.qPush 5#16) := by decide
theorem test_decode_qPop : decode 0x0200000000#40 = .ok .qPop := by decide
theorem test_decode_qIsFull : decode 0x0300000000#40 = .ok .qIsFull := by decide
theorem test_decode_qIsEmpty : decode 0x0400000000#40 = .ok .qIsEmpty := by decide
theorem test_decode_decCovox : decode 0x1080FFFFFF#40 = .ok (.decCovox 0x80FFFFFF#32) := by decide
theorem test_decode_decStereo1 : decode 0x1140800000#40 = .ok (.decStereo1 0x40800000#32) := by decide
theorem test_decode_decDss : decode 0x127F000000#40 = .ok (.decDss 0x7F000000#32) := by decide
theorem test_decode_decFtl : decode 0x1301000000#40 = .ok (.decFtl 0x01000000#32) := by decide
theorem test_decode_decOpl2 : decode 0x1420800000#40 = .ok (.decOpl2 0x20800000#32) := by decide
theorem test_decode_decTandy : decode 0x159F000000#40 = .ok (.decTandy 0x9F000000#32) := by decide
theorem test_decode_decCms : decode 0x161CC00000#40 = .ok (.decCms 0x1CC00000#32) := by decide
theorem test_decode_cmCreate : decode 0x2000000005#40 = .ok (.cmCreate 5#3) := by decide
theorem test_decode_cmWrite : decode 0x2100003902#40 = .ok (.cmWrite 0x0039#16 0x02#8) := by decide
theorem test_decode_cmSample : decode 0x2200000000#40 = .ok .cmSample := by decide
theorem test_decode_cmDestroy : decode 0x2300000000#40 = .ok .cmDestroy := by decide
theorem test_decode_slHead : decode 0x3000000000#40 = .ok .slHead := by decide
theorem test_decode_slDrain : decode 0x3100000000#40 = .ok .slDrain := by decide
theorem test_decode_slSample : decode 0x3200000000#40 = .ok .slSample := by decide
theorem test_decode_slStall : decode 0x3300000000#40 = .ok .slStall := by decide
theorem test_decode_slPush : decode 0x3400000000#40 = .ok .slPush := by decide
theorem test_decode_slExit : decode 0x3500000000#40 = .ok .slExit := by decide
theorem test_decode_devLoad : decode 0x4000000006#40 = .ok (.devLoad 6#3) := by decide
theorem test_decode_devUnload : decode 0x4100000000#40 = .ok .devUnload := by decide
theorem test_decode_devGen : decode 0x4200000000#40 = .ok .devGen := by decide
theorem test_decode_olSwapchk : decode 0x5000000000#40 = .ok .olSwapchk := by decide
theorem test_decode_olGetblk : decode 0x5100000000#40 = .ok .olGetblk := by decide
theorem test_decode_olFrame : decode 0x5200000000#40 = .ok .olFrame := by decide
theorem test_decode_olSubmit : decode 0x5300000000#40 = .ok .olSubmit := by decide
theorem test_decode_hostStrobe : decode 0x60FF000000#40 = .ok (.hostStrobe 0xFF000000#32) := by decide
theorem test_decode_sinkReady : decode 0x6100000000#40 = .ok .sinkReady := by decide
theorem test_decode_hsRequest : decode 0x6200000007#40 = .ok (.hsRequest 7#3) := by decide

/-- The illegal step words of 95_test_vectors.md section 3.6. -/
theorem test_decode_illegal_words :
    [0x0500000000#40, 0x1700000000#40, 0x2400000000#40, 0x3600000000#40, 0x4300000000#40, 0x5400000000#40,
      0x6300000000#40, 0x7000000000#40, 0xFFFFFFFFFF#40].all
        (fun w => decide (decode w = .error .illegalOp)) = true := by decide

theorem test_table_word : decodeTableWord 40 0x4000000006 = some (.devLoad 6#3) := by decide
theorem test_table_word_above_word_bits : decodeTableWord 48 0x4000000006 = none := by decide

/-! ### Small states -/

/-- The parameters of the vectors of 95_test_vectors.md: the defaults, capacity 4, the stub chip. -/
def labFamily (sl : Bool) (n : Channels) : FamilyConfig :=
  { hasSL := sl, hold := true, nch := n, cap := 4#32, layout := Layout.default, polA := false, polB := false, chip := .stub }

/-- The configuration of the vectors: `C_MAX = 2048`, `BLOCK_FRAMES = 2`. -/
def labCfg : Config :=
  { cMax := 2048, devTab := [.covox, .stereoOnOne, .dss, .ftl, .opl2lpt, .tandy, .gameBlaster], blockFrames := 2, fs := 96000
    covox := labFamily false .mono, stereoOnOne := labFamily false .mono, dss := labFamily false .mono
    ftl := labFamily false .mono, opl2lpt := labFamily true .mono, tandy := labFamily true .mono
    gameBlaster := labFamily true .stereo }

theorem test_wf_config : labCfg.wellFormed = true := by decide
theorem test_wf_config_refused :
    [{ labCfg with cMax := 3 }, { labCfg with cMax := 2 }, { labCfg with blockFrames := 0 }, { labCfg with devTab := [] },
      { labCfg with dss := { labCfg.dss with cap := 0#32 } }, { labCfg with tandy := { labCfg.tandy with cap := 3#32 } },
      { labCfg with covox := { labCfg.covox with cap := 4096#32 } },
      { labCfg with ftl := { labCfg.ftl with layout := { dataLsb := 24, ctlA := 23, ctlB := 23 } } }].all
        (fun c => !c.wellFormed) = true := by decide

/-- The reset state under that configuration, with placed draws. -/
def lab (draws : List Bool) : State :=
  { State.reset with cfg := labCfg, env := { State.reset.env with bools := draws, bytes := [0x11#8, 0x22#8] } }

/-- A queue of capacity 4. -/
def labQueue (head tail : Nat) (full : Bool) (buf : Memory) : Queue :=
  { cap := some 4, head := head, tail := tail, full := full, buf := buf }

/-- The lab state with that queue. -/
def withQueue (head tail : Nat) (full : Bool) (buf : Memory) : State := (lab []).setSq (labQueue head tail full buf)

/-- The full queue `[10, 11, 12, 13]` of E2. -/
def fullQueue : State := withQueue 0 0 true [(0, 10#16), (1, 11#16), (2, 12#16), (3, 13#16)]

/-- A synchronous device of the table loaded, with pending words. -/
def syncOn (i : Nat) (f : Family) (words : List BusWord) : State :=
  { lab [] with
    dm := { current := some i, wanted := i }
    dev := { handle := .acquired, samplingEn := true, pinsInit := true, decFam := f, holdL := 0#16, holdR := 0#16 }
    bsr := { pending := words } }

/-- The stub unit `{last, n}` written as one number, `last` in its upper half. -/
def packed (x : Nat) : ChipUnit := { code := x / 65536, samples := x % 65536 }

/-- A synthesis device loaded: the loop in a state and phase, with pending samples and the chip's unit codes. -/
def synthOn (i : Nat) (f : Family) (st : LoopState) (ph : LoopPhase) (pend : List Sample) (u0 u1 : Nat) : State :=
  { syncOn i f [] with
    sq := labQueue 0 0 false []
    sl := { state := st, phase := ph, fam := f, curReg0 := 0x20#8, curReg1 := 0x1C#8,
            chip := some { fam := f, units := { unit0 := packed u0, unit1 := packed u1 } }, pend := pend } }

/-- Tandy loaded (95_test_vectors.md section 3.4). -/
def tandyOn (st : LoopState) (ph : LoopPhase) (pend : List Sample) : State := synthOn 5 .tandy st ph pend 0 0

/-- The state with pending bus words. -/
def words (ws : List BusWord) (s : State) : State := s.setBsr { pending := ws }

/-- The state in a phase of the Output Loop, frame 0. -/
def phase (p : OutPhase) (s : State) : State := s.setOl { s.ol with phase := p, tmpL := 0#16 }

/-- The next state, if there is one. -/
def after (o : Host.Outcome State Fault Refusal) : Option State :=
  match o with
  | .next t => some t
  | _ => none

/-- The report of the next state. -/
def reportOf (o : Host.Outcome State Fault Refusal) : Option Report := (after o).map fun t => t.env.report

/-- The refusal, if it is one. -/
def refusalOf (o : Host.Outcome State Fault Refusal) : Option Refusal :=
  match o with
  | .refused r => some r
  | _ => none

/-! ### One step each (95_test_vectors.md) -/

theorem test_qInit_keeps_buffer :
    (after (exec (.qInit 8#32) (withQueue 2 0 false [(0, 5#16), (1, 6#16)]))).map (fun t => t.sq) =
      some { cap := some 8, head := 0, tail := 0, full := false, buf := [(0, 5#16), (1, 6#16)] } := by decide
theorem test_qInit_above_max :
    reportOf (exec (.qInit 4096#32) (lab [])) = some (.returned false none) := by decide
theorem test_qPush_wraps_to_full :
    (after (exec (.qPush 13#16) (withQueue 3 0 false [(0, 10#16), (1, 11#16), (2, 12#16)]))).map (fun t => t.sq) =
      some (labQueue 0 0 true [(0, 10#16), (1, 11#16), (2, 12#16), (3, 13#16)]) := by decide
theorem test_qPush_before_init : refusalOf (exec (.qPush 1#16) (lab [])) = some .queueUninit := by decide
theorem test_qPop_oldest :
    (after (exec .qPop (withQueue 3 0 false [(0, 1#16), (1, 2#16), (2, 3#16)]))).map
        (fun t => (t.env.report, t.sq.tail, t.sq.head)) = some (.returned true (some 1#32), 1, 3) := by decide
theorem test_qPop_negative_sample :
    reportOf (exec .qPop (withQueue 1 0 false [(0, 0xFFFF#16)])) = some (.returned true (some 0x0000FFFF#32)) := by decide
theorem test_qIsFull_wrapped : reportOf (exec .qIsFull fullQueue) = some (.returned true none) := by decide
theorem test_qIsEmpty_wrapped : reportOf (exec .qIsEmpty fullQueue) = some (.returned false none) := by decide

theorem test_decCovox_low_bits_ignored :
    reportOf (exec (.decCovox 0x80FFFFFF#32) (lab [])) = some (.returned true (some 0x00000080#32)) := by decide
theorem test_decStereo1_right :
    reportOf (exec (.decStereo1 0x40C00000#32) (lab [])) = some (.returned true (some 0x00000440#32)) := by decide
theorem test_decDss : reportOf (exec (.decDss 0x7F800000#32) (lab [])) = some (.returned true (some 0x0000007F#32)) := by decide
theorem test_decFtl : reportOf (exec (.decFtl 0x01000000#32) (lab [])) = some (.returned true (some 0x00000001#32)) := by decide
theorem test_decOpl2_latch :
    reportOf (exec (.decOpl2 0xB0C00000#32) (lab [])) = some (.returned true (some 0x000001B0#32)) := by decide
theorem test_decTandy : reportOf (exec (.decTandy 0x9F800000#32) (lab [])) = some (.returned true (some 0x0000009F#32)) := by decide
theorem test_decCms_latch_unit_1 :
    reportOf (exec (.decCms 0x1CFFFFFF#32) (lab [])) = some (.returned true (some 0x0000031C#32)) := by decide
theorem test_decCms_data_unit_1 :
    reportOf (exec (.decCms 0x05400000#32) (lab [])) = some (.returned true (some 0x00000205#32)) := by decide

theorem test_cmCreate_draw_true :
    (after (exec (.cmCreate 5#3) (lab [true]))).map (fun t => (t.sl.chip, t.env.report)) =
      some (some { fam := .tandy, units := { unit0 := packed 0, unit1 := packed 0 } }, .returned true none) := by decide
theorem test_cmCreate_of_dac_family : refusalOf (exec (.cmCreate 0#3) (lab [true])) = some .badIndex := by decide
theorem test_cmWrite_unit_1 :
    (after (exec (.cmWrite 0x0039#16 0x02#8) (synthOn 6 .gameBlaster .running .sample [] 0 0))).map (fun t => t.sl.chip) =
      some (some { fam := .gameBlaster, units := { unit0 := packed 0, unit1 := packed 0x1C020000 } }) := by decide
theorem test_cmWrite_keeps_count :
    (after (exec (.cmWrite 0x0020#16 0x01#8) (synthOn 5 .tandy .running .sample [] 0x009F0002 0))).map (fun t => t.sl.chip) =
      some (some { fam := .tandy, units := { unit0 := packed 0x20010002, unit1 := packed 0 } }) := by decide
theorem test_cmSample_two_channels :
    (after (exec .cmSample (synthOn 6 .gameBlaster .running .sample [] 0x1C050001 0x1C020001))).map
        (fun t => t.env.report) = some (.returned true (some 0x1C041C07#32)) := by decide
theorem test_cmSample_wraps :
    reportOf (exec .cmSample (synthOn 5 .tandy .running .sample [] 0xFFFF0000 0)) = some (.returned true (some 0#32)) := by decide
theorem test_cmDestroy :
    (after (exec .cmDestroy (tandyOn .running .head []))).map (fun t => t.sl.chip) = some none := by decide

theorem test_slHead :
    (after (exec .slHead (tandyOn .running .head []))).map (fun t => t.sl.phase) = some .drain := by decide
theorem test_slHead_when_stopping :
    reportOf (exec .slHead (tandyOn .stopping .head [])) = some .notEnabled := by decide
theorem test_slDrain_applies_word :
    (after (exec .slDrain (words [0x9F000000#32] (tandyOn .running .drain [])))).map
        (fun t => (t.sl.chip, t.bsr.pending, t.sl.phase)) =
      some (some { fam := .tandy, units := { unit0 := packed 0x009F0000, unit1 := packed 0 } }, [], .drain) := by decide
theorem test_slDrain_latches_unit_1 :
    (after (exec .slDrain (words [0x05C00000#32] (synthOn 6 .gameBlaster .running .drain [] 0 0)))).map
        (fun t => (t.sl.curReg0, t.sl.curReg1)) = some (0x20#8, 0x05#8) := by decide
theorem test_slSample_two_samples :
    (after (exec .slSample (synthOn 6 .gameBlaster .running .sample [] 0 0x1C020000))).map
        (fun t => (t.sl.pend, t.sl.phase)) = some ([1#16, 7171#16], .stall) := by decide
theorem test_slSample_when_stopping :
    (after (exec .slSample (tandyOn .stopping .sample []))).map (fun t => t.sl.pend) = some [1#16] := by decide
theorem test_slStall_backpressure_keeps_pending :
    (after (exec .slStall (words [0x10000000#32]
        ((tandyOn .running .stall [9#16]).setSq fullQueue.sq)))).map (fun t => (t.sl.pend, t.sl.phase, t.sl.chip)) =
      some ([9#16], .stall, some { fam := .tandy, units := { unit0 := packed 0x00100000, unit1 := packed 0 } }) := by decide
theorem test_slStall_holds :
    reportOf (exec .slStall ((tandyOn .running .stall [9#16]).setSq fullQueue.sq)) = some (.held .queueFull) := by decide
theorem test_slPush_last_sample :
    (after (exec .slPush (tandyOn .running .push [160#16]))).map (fun t => (t.sq, t.sl.pend, t.sl.phase)) =
      some (labQueue 1 0 false [(0, 160#16)], [], .head) := by decide
theorem test_slPush_left_sample :
    (after (exec .slPush (synthOn 6 .gameBlaster .running .push [1#16, 7171#16] 0 0))).map
        (fun t => (t.sl.pend, t.sl.phase)) = some ([7171#16], .stall) := by decide
theorem test_slExit_in_full_stall :
    (after (exec .slExit ((tandyOn .stopping .stall [9#16]).setSq fullQueue.sq))).map
        (fun t => (t.sl.state, t.sl.phase, t.sl.chip, t.sl.pend)) = some (.stopped, .head, none, []) := by decide
theorem test_slExit_not_in_sample :
    reportOf (exec .slExit (tandyOn .stopping .sample [])) = some .notEnabled := by decide

theorem test_devLoad_synth :
    (after (exec (.devLoad 5#3) (lab [true, true]))).map (fun t => (t.sq, t.sl)) =
      some (labQueue 0 0 false [],
        { state := .running, phase := .head, fam := .tandy, curReg0 := 0x11#8, curReg1 := 0x22#8,
          chip := some { fam := .tandy, units := { unit0 := packed 0, unit1 := packed 0 } }, pend := [] }) := by decide
theorem test_devLoad_chip_fails :
    (after (exec (.devLoad 5#3) (lab [true, false]))).map (fun t => (t.err.cause, t.dev.handle, t.dev.decFam, t.sq.cap)) =
      some (5#3, .none, .tandy, some 4) := by decide
theorem test_devUnload_stops_loop :
    (after (exec .devUnload (words [1#32] (tandyOn .running .stall [9#16])))).map
        (fun t => (t.sl.state, t.sl.phase, t.sl.pend, t.bsr.pending)) = some (.stopping, .stall, [9#16], []) := by decide
theorem test_devUnload_sync :
    (after (exec .devUnload (syncOn 0 .covox []))).map (fun t => (t.sl.state, t.dev.samplingEn, t.dev.pinsInit)) =
      some (.stopped, false, false) := by decide
theorem test_devGen_covox :
    (after (exec .devGen (syncOn 0 .covox [0xFF000000#32, 0x00000000#32]))).map
        (fun t => (t.env.report, t.dev.holdL, t.bsr.pending)) =
      some (.returned true (some 0x7F007F00#32), 32512#16, [0#32]) := by decide
theorem test_devGen_stereo_queue :
    (after (exec .devGen (issuedBy .outputLoop ((synthOn 6 .gameBlaster .running .head [] 0 0).setSq
        (labQueue 2 0 false [(0, 10#16), (1, 0xFFF6#16)]))))).map (fun t => (t.env.report, t.sq.tail, t.ol.chan)) =
      some (.returned true (some 0xFFF6000A#32), 2, false) := by decide

theorem test_olSwapchk_unloads :
    (after (exec .olSwapchk ((tandyOn .running .head []).setDm { current := some 5, wanted := 6 }))).map
        (fun t => (t.dm.current, t.sl.state, t.dev.handle, t.ol.phase)) = some (none, .stopping, .none, .swap) := by decide
theorem test_olSwapchk_default_fails :
    (after (exec .olSwapchk (lab [false]))).map (fun t => (t.err, t.ol.phase)) =
      some ({ cause := 1#3, swapFailed := true }, .fault) := by decide
theorem test_olGetblk :
    (after (exec .olGetblk (phase .getblk ((lab []).setSink { credit := 2, out := [] })))).map
        (fun t => (t.sink.credit, t.ol.frame, t.ol.phase)) = some (1, 0, .fill) := by decide
theorem test_olGetblk_holds : reportOf (exec .olGetblk (phase .getblk (lab []))) = some (.held .noCredit) := by decide
theorem test_olFrame_first :
    (after (exec .olFrame (phase .fill ((tandyOn .running .head []).setSq (labQueue 2 0 false [(0, 7#16), (1, 8#16)]))))).map
        (fun t => (t.ol.blk, t.ol.frame, t.ol.phase)) = some ([(0, 7#16), (1, 7#16)], 1, .fill) := by decide
theorem test_olFrame_last :
    (after (exec .olFrame ((syncOn 0 .covox []).setOl
        { phase := .fill, frame := 1, chan := false, tmpL := 0#16, blk := [(0, 7#16), (1, 7#16)] }))).map
        (fun t => (t.ol.blk, t.ol.frame, t.ol.phase)) =
      some ([(0, 7#16), (1, 7#16), (2, 0#16), (3, 0#16)], 1, .submit) := by decide
theorem test_olSubmit :
    (after (exec .olSubmit ((lab []).setOl { phase := .submit, frame := 1, chan := false, tmpL := 0#16
                                             blk := [(0, 7#16), (1, 7#16), (2, 8#16), (3, 8#16)] }))).map
        (fun t => (t.sink.out, t.ol.phase)) = some ([[7#16, 7#16, 8#16, 8#16]], .swap) := by decide
theorem test_hostStrobe :
    (after (exec (.hostStrobe 0x80000000#32) (syncOn 0 .covox [1#32]))).map (fun t => t.bsr.pending) =
      some [1#32, 0x80000000#32] := by decide
theorem test_sinkReady : (after (exec .sinkReady (lab []))).map (fun t => t.sink.credit) = some 1 := by decide
theorem test_hsRequest : (after (exec (.hsRequest 5#3) (syncOn 0 .covox []))).map (fun t => t.dm) =
    some { current := some 0, wanted := 5 } := by decide
theorem test_hsRequest_ignored : (after (exec (.hsRequest 7#3) (syncOn 5 .covox []))).map (fun t => t.dm.wanted) =
    some 5 := by decide

/-- The very next step after `withFetchWord` runs the placed word, also from reset. -/
theorem test_step_runs_placed_word :
    (after (step (State.reset.withFetchWord 40 0x6100000000))).map (fun t => t.sink.credit) = some 1 := by decide
theorem test_step_refuses_illegal_word :
    refusalOf (step (State.reset.withFetchWord 40 0x0500000000)) = some .illegalOp := by decide


/-! ### Witnesses: for each statement with hypotheses, a state and operands that meet them, clause by clause -/

/-- The state with a step word placed by the harness. -/
def placed (w : StepWord) (s : State) : State := placeWord w s

/-- A sound queue, from a check of its entries. -/
theorem sound_of_entries {m c : Nat} {q : Queue} (hc : q.cap = some c)
    (h : c ≠ 0 ∧ c &&& (c - 1) = 0 ∧ c ≤ m ∧ q.head < c ∧ q.tail < c ∧ (q.full = true → q.head = q.tail))
    (he : (List.range q.count).all (fun j => (q.buf.read? (slotIndex q c j)).isSome) = true) : Queue.sound m q := by
  intro c' hc'
  rw [hc] at hc'
  cases hc'
  obtain ⟨h1, h2, h3, h4, h5, h6⟩ := h
  exact ⟨h1, h2, h3, h4, h5, h6, fun j hj => List.all_eq_true.1 he j (List.mem_range.2 hj)⟩

theorem fullQueue_sound : queueSound fullQueue := sound_of_entries (c := 4) rfl (by decide) (by decide)
theorem emptyQueue_sound : queueSound (withQueue 0 0 false []) := sound_of_entries (c := 4) rfl (by decide) (by decide)
/-- Three samples, the free entry the last one of the buffer. -/
def threeQueue : State := withQueue 3 0 false [(0, 1#16), (1, 2#16), (2, 3#16)]
theorem threeQueue_sound : queueSound threeQueue := sound_of_entries (c := 4) rfl (by decide) (by decide)

theorem witness_EncodeRestoresDecodedWord : decode 0x21FF003902#40 = .ok (.cmWrite 0x0039#16 0x02#8) := by decide

theorem witness_StepRunsDecodedInstr :
    decode (nextWord (placed 0x01ABCD0005#40 (lab []))) = .ok (.qPush 5#16) ∧
    (placed 0x01ABCD0005#40 (lab [])).env.trace = { issuer := .harness, word := 0x01ABCD0005#40 } :: [] ∧
    State.reset.env.trace = [] := by decide

theorem not_good_zero (m : Nat) : ¬ goodCapacity m 0#32 := by
  rintro ⟨⟨k, hk⟩, _⟩
  have := Nat.two_pow_pos k
  simp at hk
  omega

/-- Tandy current, its loop stopped (a harness unloaded it): the consumer alone is active, here in SWAP. -/
def consumedOnly : State := synthOn 5 .tandy .stopped .head [] 0 0

theorem lab_not_consumed (draws : List Bool) : ¬ consumed (lab draws) := by
  rintro ⟨_, _, h, _⟩
  cases h

theorem witness_QInitReinitialisesOrFails :
    owned (.qInit 2048#32) (lab []) ∧ (lab []).sl.state = .stopped ∧ ¬ consumed (lab []) ∧
    (owned (.qInit 4#32) (tandyOn .running .head []) ∧ (tandyOn .running .head []).sl.state ≠ .stopped) ∧
    (owned (.qInit 4#32) consumedOnly ∧ consumedOnly.sl.state = .stopped ∧ consumed consumedOnly) ∧
    goodCapacity (lab []).cfg.cMax 1#32 ∧ goodCapacity (lab []).cfg.cMax 2048#32 ∧
    ¬ goodCapacity (lab []).cfg.cMax 0#32 ∧ ¬ goodCapacity (lab []).cfg.cMax 4096#32 :=
  ⟨by decide, by decide, lab_not_consumed _, by decide, ⟨by decide, by decide, 5, .tandy, rfl, rfl, rfl⟩,
    ⟨⟨0, rfl⟩, by decide⟩, ⟨⟨11, rfl⟩, by decide⟩, not_good_zero _,
    fun h => absurd h.2 (by decide)⟩

theorem witness_QPushStoresAtHead :
    owned (.qPush 7#16) (lab []) ∧ (lab []).sq.cap = none ∧
    owned (.qPush 7#16) fullQueue ∧ fullQueue.sq.cap = some 4 ∧ fullQueue.sq.full = true ∧
    owned (.qPush 7#16) threeQueue ∧ threeQueue.sq.cap = some 4 ∧ threeQueue.sq.full = false ∧ threeQueue.sq.head = 3 := by decide

theorem witness_QPopReturnsOldest :
    owned .qPop (lab []) ∧ (lab []).sq.cap = none ∧ owned .qPop fullQueue ∧ fullQueue.sq.cap = some 4 ∧
    ((withQueue 3 3 false []).sq.head = (withQueue 3 3 false []).sq.tail ∧ (withQueue 3 3 false []).sq.full = false) ∧
    ¬ (fullQueue.sq.head = fullQueue.sq.tail ∧ fullQueue.sq.full = false) ∧
    fullQueue.sq.buf.read? fullQueue.sq.tail = some 10#16 := by decide

theorem witness_QueuePredicatesAnswer :
    (lab []).sq.cap = none ∧ owned .qIsFull (lab []) ∧ owned .qIsEmpty (lab []) ∧
    fullQueue.sq.cap = some 4 ∧ owned .qIsFull fullQueue ∧ owned .qIsEmpty fullQueue := by decide

theorem witness_QueueCountTracksOperations :
    (queueSound threeQueue ∧ threeQueue.sq.cap = some 4 ∧
      ∃ t, exec (.qPush 4#16) threeQueue = .next t ∧ t.env.report = .returned true none) ∧
    (queueSound fullQueue ∧ fullQueue.sq.cap = some 4 ∧
      ∃ t, exec .qPop fullQueue = .next t ∧ t.env.report = .returned true (some 10#32)) :=
  ⟨⟨threeQueue_sound, rfl, _, rfl, rfl⟩, fullQueue_sound, rfl, _, rfl, rfl⟩

theorem witness_QueueSoundKept : queueSound (placed 0x0200000000#40 fullQueue) ∧
    ∃ t, step (placed 0x0200000000#40 fullQueue) = .next t := ⟨fullQueue_sound, _, rfl⟩

theorem witness_QueueRefinesFifoList :
    (queueSound threeQueue ∧ ∃ t, exec (.qPush 4#16) threeQueue = .next t ∧ t.env.report = .returned true none) ∧
    (queueSound fullQueue ∧ ∃ t, exec .qPop fullQueue = .next t ∧ t.env.report = .returned true (some 10#32)) :=
  ⟨⟨threeQueue_sound, _, rfl, rfl⟩, fullQueue_sound, _, rfl, rfl⟩

theorem witness_QueueFifoLaw :
    queueSound (withQueue 0 0 false []) ∧ (withQueue 0 0 false []).sq.cap.isSome = true ∧
    (withQueue 0 0 false []).sq.count = 0 :=
  ⟨emptyQueue_sound, by decide⟩

theorem witness_DecodersReturnDecodedWrite :
    owned (.decCovox 0#32) (lab []) ∧ owned (.decStereo1 0#32) (lab []) ∧ owned (.decDss 0#32) (lab []) ∧
    owned (.decFtl 0#32) (lab []) ∧ owned (.decOpl2 0#32) (lab []) ∧ owned (.decTandy 0#32) (lab []) ∧
    owned (.decCms 0xFFFFFFFF#32) (lab []) := by decide

theorem witness_DecoderFieldLaws :
    let l := (familyConfig labCfg .gameBlaster).layout
    (∀ j, j < 8 → (0x1C000000#32).getLsbD (l.dataLsb + j) = (0x1CFFFFFF#32).getLsbD (l.dataLsb + j)) ∧
    (0x1CC00000#32).getLsbD l.ctlA = (0x1CFFFFFF#32).getLsbD l.ctlA ∧
    (0x1CC00000#32).getLsbD l.ctlB = (0x1CFFFFFF#32).getLsbD l.ctlB ∧
    familyConfig { labCfg with gameBlaster := { labCfg.gameBlaster with polA := true } } .gameBlaster =
      { familyConfig labCfg .gameBlaster with polA := !(familyConfig labCfg .gameBlaster).polA } ∧
    l.wellFormed = true ∧
    (∀ w w' : BusWord, Family.covox ∈ [Family.stereoOnOne, .opl2lpt, .gameBlaster] →
      w.getLsbD l.ctlA = w'.getLsbD l.ctlA) ∧
    Family.opl2lpt ∈ [Family.stereoOnOne, .opl2lpt, .gameBlaster] ∧ Family.opl2lpt ≠ .gameBlaster :=
  ⟨by decide, by decide, by decide, by decide, by decide, (fun _ _ h => by simp at h), by decide, by decide⟩

theorem witness_CmCreateConstructsOrFails :
    (owned (.cmCreate 7#3) (lab []) ∧
      ∀ f, familyId f = (7#3).toNat → nDev (lab []).cfg ≤ (7#3).toNat ∨ hasSL (lab []).cfg f = false) ∧
    (owned (.cmCreate 6#3) (tandyOn .running .head []) ∧ familyId .gameBlaster = (6#3).toNat ∧
      (6#3).toNat < nDev (lab []).cfg ∧ hasSL (lab []).cfg .gameBlaster = true ∧
      ¬ ((tandyOn .running .head []).sl.chip = none ∧ (tandyOn .running .head []).sl.state = .stopped)) ∧
    ((lab [true]).sl.chip = none ∧ (lab [true]).sl.state = .stopped ∧ (drawBool (lab [true])).1 = true ∧
      (drawBool (lab [false])).1 = false) :=
  ⟨⟨by decide, fun _ _ => .inl (by decide)⟩, by decide, by decide⟩

theorem witness_CmWriteAndDestroyTouchChipOnly :
    (tandyOn .running .head []).sl.chip = some { fam := .tandy, units := { unit0 := packed 0, unit1 := packed 0 } } ∧
    owned (.cmWrite 0xFFFF#16 0xFF#8) (tandyOn .running .head []) ∧ owned .cmDestroy (tandyOn .running .head []) ∧
    (lab []).sl.chip = none ∧ owned (.cmWrite 0#16 0#8) (lab []) ∧ owned .cmDestroy (lab []) := by decide

theorem witness_CmSampleAdvancesChip :
    owned .cmSample (lab []) ∧ (lab []).sl.chip = none ∧ owned .cmSample (synthOn 6 .gameBlaster .running .sample [] 0 0) ∧
    (synthOn 6 .gameBlaster .running .sample [] 0 0).sl.chip =
      some { fam := .gameBlaster, units := { unit0 := packed 0, unit1 := packed 0 } } := by decide

/-- GameBlaster loaded with the external chip model. -/
def externalOn : State :=
  { synthOn 6 .gameBlaster .running .head [] 0 0 with
    cfg := { labCfg with gameBlaster := { labCfg.gameBlaster with chip := .external } } }

theorem witness_DualChipWriteChangesOneUnit :
    externalOn.sl.chip = some { fam := .gameBlaster, units := { unit0 := packed 0, unit1 := packed 0 } } ∧
    externalOn.cfg.gameBlaster.chip = .external ∧ (0x0038#16).getLsbD 0 = false ∧ (0x0039#16).getLsbD 0 = true ∧
    (∃ t, exec (.cmWrite 0x0038#16 5#8) externalOn = .next t) ∧ ∃ t, exec (.cmWrite 0x0039#16 5#8) externalOn = .next t :=
  ⟨rfl, rfl, by decide, by decide, ⟨_, rfl⟩, _, rfl⟩

theorem witness_StubChipFollowsItsDefinition :
    (familyConfig labCfg .tandy).chip = .stub ∧ (familyConfig labCfg .tandy).nch = .mono ∧
    (familyConfig labCfg .gameBlaster).chip = .stub ∧ (familyConfig labCfg .gameBlaster).nch = .stereo ∧
    (0x0038#16).getLsbD 0 = false ∧ (0x0039#16).getLsbD 0 = true := by decide

theorem witness_SlHeadAndIdleDrainAdvancePhase :
    ((tandyOn .running .head []).sl.state = .running ∧ (tandyOn .running .head []).sl.phase = .head ∧
      owned .slHead (tandyOn .running .head [])) ∧
    ((tandyOn .running .drain []).sl.state = .running ∧ (tandyOn .running .drain []).sl.phase = .drain ∧
      (tandyOn .running .drain []).bsr.pending = [] ∧ owned .slDrain (tandyOn .running .drain [])) := by decide

theorem witness_PendingWordIsApplied :
    let s := words [0x10000000#32] (tandyOn .running .drain [])
    let u := words [0x10000000#32] ((tandyOn .running .stall [9#16]).setSq fullQueue.sq)
    (s.sl.state = .running ∧ s.sl.fam ∈ [Family.opl2lpt, .tandy, .gameBlaster] ∧ s.dev.handle = .acquired ∧
      s.bsr.pending = 0x10000000#32 :: [] ∧ s.sl.chip = some { fam := .tandy, units := { unit0 := packed 0, unit1 := packed 0 } } ∧
      s.sl.phase = .drain ∧ owned .slDrain s) ∧
    (u.sl.state = .running ∧ u.sl.phase = .stall ∧ u.sq.full = true ∧ u.bsr.pending = 0x10000000#32 :: [] ∧
      u.dev.handle = .acquired ∧ u.sl.chip = some { fam := .tandy, units := { unit0 := packed 0, unit1 := packed 0 } } ∧
      owned .slStall u) := by decide

theorem witness_LatchWriteNeverReachesChip :
    let s := words [0x1CC00000#32] (synthOn 6 .gameBlaster .running .drain [] 0 0)
    let u := words [0x20800000#32] ((synthOn 4 .opl2lpt .running .stall [9#16] 0 0).setSq fullQueue.sq)
    (s.sl.fam = .gameBlaster ∧ s.bsr.pending = 0x1CC00000#32 :: [] ∧
      (busDecode s.cfg s.dev.decFam 0x1CC00000#32).kind = .latch ∧ ∃ t, exec .slDrain s = .next t) ∧
    (u.sl.fam = .opl2lpt ∧ u.bsr.pending = 0x20800000#32 :: [] ∧
      (busDecode u.cfg u.dev.decFam 0x20800000#32).kind = .latch ∧ ∃ t, exec .slStall u = .next t) :=
  ⟨⟨rfl, rfl, rfl, _, rfl⟩, rfl, rfl, rfl, _, rfl⟩

theorem witness_SlSampleFillsPending :
    let s := synthOn 6 .gameBlaster .stopping .sample [] 0 0
    owned .slSample s ∧ s.sl.state ≠ .stopped ∧ s.sl.phase = .sample ∧
    s.sl.chip = some { fam := .gameBlaster, units := { unit0 := packed 0, unit1 := packed 0 } } ∧ Family.gameBlaster = s.sl.fam := by decide

theorem witness_SlStallPushesOrHolds :
    let s := tandyOn .stopping .stall [9#16]
    let u := (tandyOn .running .stall [9#16]).setSq fullQueue.sq
    (owned .slStall s ∧ s.sl.phase = .stall ∧ s.sl.state ≠ .stopped ∧ s.sq.full = false) ∧
    (owned .slStall u ∧ u.sl.phase = .stall ∧ u.sl.state = .running ∧ u.sq.full = true ∧ u.bsr.pending = []) := by decide

theorem witness_SlPushMovesPendingSample :
    let s := tandyOn .running .push [9#16]
    let u := (synthOn 6 .gameBlaster .stopping .push [9#16, 8#16] 0 0).setSq fullQueue.sq
    (owned .slPush s ∧ s.sl.state ≠ .stopped ∧ s.sl.phase = .push ∧ s.sl.pend = 9#16 :: [] ∧ s.sq.cap = some 4 ∧
      s.sq.full = false) ∧
    (owned .slPush u ∧ u.sl.state ≠ .stopped ∧ u.sl.phase = .push ∧ u.sl.pend = 9#16 :: [8#16] ∧ u.sq.cap = some 4 ∧
      u.sq.full = true) ∧
    (let e := tandyOn .running .push [];
      owned .slPush e ∧ e.sl.state ≠ .stopped ∧ e.sl.phase = .push ∧ e.sl.pend = [] ∧ e.sq.cap = some 4 ∧ e.sq.full = false) ∧
    (let n := (tandyOn .running .push [9#16]).setSq (lab []).sq;
      owned .slPush n ∧ n.sl.state ≠ .stopped ∧ n.sl.phase = .push ∧ n.sq.cap = none) := by decide

theorem witness_SlExitStopsLoop :
    let c : Chip := { fam := .tandy, units := { unit0 := packed 0, unit1 := packed 0 } }
    let s := tandyOn .stopping .head []
    let d := tandyOn .stopping .drain []
    let u := (tandyOn .stopping .stall [9#16]).setSq fullQueue.sq
    (owned .slExit s ∧ s.sl.state = .stopping ∧ s.sl.phase = .head ∧ s.sl.chip = some c) ∧
    (owned .slExit d ∧ d.sl.state = .stopping ∧ d.sl.phase = .drain ∧ d.sl.chip = some c) ∧
    (owned .slExit u ∧ u.sl.state = .stopping ∧ u.sl.phase = .stall ∧ u.sq.full = true ∧ u.sl.chip = some c) := by decide

theorem witness_StepsNotEnabledChangeNothing :
    let s := lab []
    let u := (tandyOn .stopping .stall [9#16]).setSq fullQueue.sq
    (¬ (s.sl.state = .running ∧ s.sl.phase = .head) ∧ owned .slHead s) ∧
    (¬ (s.sl.state = .running ∧ s.sl.phase = .drain) ∧ owned .slDrain s) ∧
    (¬ (s.sl.state ≠ .stopped ∧ s.sl.phase = .sample) ∧ owned .slSample s) ∧
    (¬ (u.sl.state ≠ .stopped ∧ u.sl.phase = .stall ∧ (u.sl.state = .running ∨ u.sq.full = false)) ∧ owned .slStall u) ∧
    (¬ (s.sl.state ≠ .stopped ∧ s.sl.phase = .push) ∧ owned .slPush s) ∧
    (¬ (s.sl.state = .stopping ∧
        (s.sl.phase = .head ∨ s.sl.phase = .drain ∨ (s.sl.phase = .stall ∧ s.sq.full = true))) ∧ owned .slExit s) ∧
    ((phase .getblk s).ol.phase ≠ .fault ∧ (phase .getblk s).ol.phase ≠ .swap ∧ owned .olSwapchk (phase .getblk s)) ∧
    (s.ol.phase ≠ .fault ∧ s.ol.phase ≠ .getblk ∧ owned .olGetblk s) ∧
    (s.ol.phase ≠ .fault ∧ s.ol.phase ≠ .fill ∧ owned .olFrame s) ∧
    ((phase .fill s).ol.phase ≠ .fault ∧ loadedFamily (phase .fill s) = none ∧ owned .olFrame (phase .fill s)) ∧
    (s.ol.phase ≠ .fault ∧ s.ol.phase ≠ .submit ∧ owned .olSubmit s) ∧
    (s.dev.samplingEn = false ∧ owned (.hostStrobe 0#32) s) := by decide

theorem witness_LoopStateTransitions : ∃ t, step (placed 0x4100000000#40 (tandyOn .running .head [])) = .next t := ⟨_, rfl⟩

theorem labCap_good (f : Family) : goodCapacity (lab []).cfg.cMax (familyConfig labCfg f).cap := by
  cases f <;> exact ⟨⟨2, rfl⟩, by decide⟩

theorem witness_LoadStartsSynthesisLoop :
    let s := lab [true, true]
    owned (.devLoad 6#3) s ∧ s.cfg.devTab[(6#3).toNat]? = some .gameBlaster ∧ hasSL s.cfg .gameBlaster = true ∧
    s.dm.current = none ∧ s.dev.handle = .none ∧ s.sl.state = .stopped ∧ s.sl.chip = none ∧
    goodCapacity s.cfg.cMax (familyConfig s.cfg .gameBlaster).cap ∧ (drawBool s).1 = true ∧
    (drawBool (drawBool s).2).1 = true :=
  ⟨by decide, rfl, rfl, rfl, rfl, rfl, rfl, labCap_good _, rfl, rfl⟩

/-- The lab state with a capacity that `Q.INIT` does not admit. -/
def badCapacity : State :=
  { lab [true] with cfg := { labCfg with gameBlaster := { labCfg.gameBlaster with cap := 0#32 } } }

/-- The lab state with a chip model that a harness created. -/
def strayChip : State :=
  (lab [true]).setSl { (lab [true]).sl with chip := some { fam := .tandy, units := { unit0 := packed 0, unit1 := packed 0 } } }

theorem witness_FailedLoadReleasesEverything :
    (let s := lab [false];
      owned (.devLoad 0#3) s ∧ s.cfg.devTab[(0#3).toNat]? = some .covox ∧ s.dm.current = none ∧ s.dev.handle = .none ∧
      s.sl.state = .stopped ∧ (drawBool s).1 = false) ∧
    (let s := badCapacity;
      s.cfg.devTab[(6#3).toNat]? = some .gameBlaster ∧ hasSL s.cfg .gameBlaster = true ∧ (drawBool s).1 = true ∧
      ¬ goodCapacity s.cfg.cMax (familyConfig s.cfg .gameBlaster).cap) ∧
    (let s := lab [true, false];
      goodCapacity s.cfg.cMax (familyConfig s.cfg .gameBlaster).cap ∧ s.sl.chip = none ∧ (drawBool s).1 = true ∧
      (drawBool (drawBool s).2).1 = false) ∧
    (let s := strayChip;
      s.sl.state = .stopped ∧ s.dev.handle = .none ∧ s.dm.current = none ∧ (drawBool s).1 = true ∧ s.sl.chip ≠ none ∧
      goodCapacity s.cfg.cMax (familyConfig s.cfg .gameBlaster).cap) :=
  ⟨by decide, ⟨rfl, rfl, rfl, not_good_zero _⟩, ⟨labCap_good _, rfl, rfl, rfl⟩, rfl, rfl, rfl, rfl, by decide, labCap_good _⟩

theorem witness_LoadSynchronousFamily :
    let s := lab [true]
    owned (.devLoad 3#3) s ∧ s.cfg.devTab[(3#3).toNat]? = some .ftl ∧ hasSL s.cfg .ftl = false ∧ s.dm.current = none ∧
    s.dev.handle = .none ∧ s.sl.state = .stopped ∧ (drawBool s).1 = true := by decide

/-- Tandy unloaded, its loop not yet stopped. -/
def stoppingOn : State :=
  { tandyOn .stopping .head [] with
    dm := { current := none, wanted := 6 }
    dev := { handle := .none, samplingEn := false, pinsInit := false, decFam := .tandy, holdL := 0#16, holdR := 0#16 } }

theorem witness_LoadAdmission :
    (owned (.devLoad 7#3) (lab []) ∧ nDev (lab []).cfg ≤ (7#3).toNat) ∧
    (owned (.devLoad 6#3) (syncOn 0 .covox []) ∧ (6#3).toNat < nDev labCfg ∧ (syncOn 0 .covox []).sl.state = .stopped ∧
      (syncOn 0 .covox []).dm.current ≠ none) ∧
    (owned (.devLoad 0#3) stoppingOn ∧ (0#3).toNat < nDev stoppingOn.cfg ∧ stoppingOn.sl.state ≠ .stopped) := by decide

theorem witness_UnloadReleasesDevice :
    owned .devUnload (tandyOn .running .stall [9#16]) ∧ (tandyOn .running .stall [9#16]).dm.current = some 5 ∧
    (tandyOn .running .stall [9#16]).dev.handle = .acquired := by decide

theorem witness_UnloadAndGenerateNeedDevice :
    (lab []).dm.current = none ∧ (lab []).dev.handle = .none ∧ owned .devUnload (lab []) ∧ owned .devGen (lab []) := by decide

theorem witness_GenerateSynchronousMono :
    let s := syncOn 3 .ftl [0x00000000#32]
    let u := syncOn 0 .covox []
    (owned .devGen s ∧ loadedFamily s = some .ftl ∧ Family.ftl ∈ [Family.covox, .dss, .ftl] ∧ hasSL s.cfg .ftl = false ∧
      s.dev.handle = .acquired ∧ s.bsr.pending = 0#32 :: []) ∧
    (owned .devGen u ∧ loadedFamily u = some .covox ∧ hasSL u.cfg .covox = false ∧ u.bsr.pending = []) := by decide

theorem witness_GenerateSynchronousStereo :
    let s := syncOn 1 .stereoOnOne [0x40000000#32]
    let u := syncOn 1 .stereoOnOne [0x40800000#32]
    let v := syncOn 1 .stereoOnOne []
    (owned .devGen s ∧ loadedFamily s = some .stereoOnOne ∧ hasSL s.cfg .stereoOnOne = false ∧ s.dev.handle = .acquired ∧
      s.bsr.pending = 0x40000000#32 :: [] ∧ logicalA s.cfg.stereoOnOne 0x40000000#32 = false) ∧
    (u.bsr.pending = 0x40800000#32 :: [] ∧ logicalA u.cfg.stereoOnOne 0x40800000#32 = true) ∧
    (owned .devGen v ∧ loadedFamily v = some .stereoOnOne ∧ v.bsr.pending = []) := by decide

/-- Tandy with the three samples of `threeQueue`, a step of the Output Loop. -/
def tandyQueue : State := issuedBy .outputLoop ((tandyOn .running .head []).setSq threeQueue.sq)

theorem witness_GenerateQueueMono :
    (owned .devGen tandyQueue ∧ loadedFamily tandyQueue = some .tandy ∧ hasSL tandyQueue.cfg .tandy = true ∧
      (familyConfig tandyQueue.cfg .tandy).nch = .mono ∧ tandyQueue.sq.cap = some 4 ∧ tandyQueue.sq.count ≠ 0 ∧
      tandyQueue.sq.buf.read? tandyQueue.sq.tail = some 1#16) ∧ queueSound tandyQueue ∧
    (let s := issuedBy .outputLoop (tandyOn .running .head []);
      owned .devGen s ∧ hasSL s.cfg .tandy = true ∧ (familyConfig s.cfg .tandy).nch = .mono ∧ loadedFamily s = some .tandy ∧ s.sq.head = s.sq.tail ∧ s.sq.full = false) :=
  ⟨by decide, threeQueue_sound, by decide⟩

/-- GameBlaster with a queue and `OL.chan`, a step of the Output Loop. -/
def blasterQueue (ch : Bool) (q : Queue) : State :=
  issuedBy .outputLoop (((synthOn 6 .gameBlaster .running .head [] 0 0).setSq q).setOl
    { phase := .fill, frame := 0, chan := ch, tmpL := 5#16, blk := [] })

/-- One sample in the queue. -/
def oneSample : Queue := labQueue 1 0 false [(0, 10#16)]

/-- Two samples in the queue. -/
def twoSamples : Queue := labQueue 2 0 false [(0, 10#16), (1, 0xFFF6#16)]

theorem oneSample_sound : Queue.sound 2048 oneSample := sound_of_entries (c := 4) rfl (by decide) (by decide)
theorem twoSamples_sound : Queue.sound 2048 twoSamples := sound_of_entries (c := 4) rfl (by decide) (by decide)

theorem witness_GenerateQueueStereo :
    (owned .devGen (blasterQueue false oneSample) ∧ loadedFamily (blasterQueue false oneSample) = some .gameBlaster ∧
      hasSL (blasterQueue false oneSample).cfg .gameBlaster = true ∧
      (familyConfig (blasterQueue false oneSample).cfg .gameBlaster).nch = .stereo ∧ oneSample.cap = some 4) ∧
    queueSound (blasterQueue false oneSample) ∧ queueSound (blasterQueue true oneSample) ∧
    queueSound (blasterQueue false twoSamples) ∧ queueSound (synthOn 6 .gameBlaster .running .head [] 0 0) ∧
    (synthOn 6 .gameBlaster .running .head [] 0 0).sq.count = 0 ∧
    ((blasterQueue true oneSample).ol.chan = true ∧ oneSample.count ≠ 0 ∧ oneSample.buf.read? oneSample.tail = some 10#16) ∧
    ((blasterQueue false oneSample).ol.chan = false ∧ oneSample.count = 1) ∧
    (2 ≤ twoSamples.count ∧ twoSamples.buf.read? twoSamples.tail = some 10#16 ∧
      twoSamples.buf.read? ((twoSamples.tail + 1) % 4) = some 0xFFF6#16) :=
  ⟨by decide, oneSample_sound, oneSample_sound, twoSamples_sound, emptyQueue_sound, by decide⟩

theorem witness_SwapchkKeepsOrUnloads :
    let s := tandyOn .running .head []
    let u := s.setDm { current := some 5, wanted := 6 }
    (owned .olSwapchk s ∧ s.ol.phase = .swap ∧ s.dm.current = some 5 ∧ 5 = s.dm.wanted) ∧
    (owned .olSwapchk u ∧ u.ol.phase = .swap ∧ u.dm.current = some 5 ∧ 5 ≠ u.dm.wanted) := by decide

/-- Tandy loaded by a harness: its handle is held and its loop runs, and no device is current. -/
def directLoad : State := (tandyOn .running .head []).setDm { current := none, wanted := 6 }

/-- Device 6 wanted, none loaded. -/
def wantsBlaster (draws : List Bool) : State := (lab draws).setDm { current := none, wanted := 6 }

theorem witness_SwapchkLoadsWantedDevice :
    (owned .olSwapchk stoppingOn ∧ stoppingOn.ol.phase = .swap ∧ stoppingOn.dm.current = none ∧
      stoppingOn.dm.wanted = (6#3).toNat ∧ (6#3).toNat < nDev stoppingOn.cfg ∧ stoppingOn.sl.state ≠ .stopped) ∧
    (owned .olSwapchk directLoad ∧ directLoad.ol.phase = .swap ∧ directLoad.dm.current = none ∧
      directLoad.dev.handle = .acquired ∧ directLoad.sl.state ≠ .stopped) ∧
    ((wantsBlaster [true, true]).dm.wanted = (6#3).toNat ∧ (wantsBlaster [true, true]).sl.state = .stopped ∧
      (wantsBlaster [true, true]).dev.handle = .none ∧ (wantsBlaster [true, true]).sl.chip = none ∧
      reportOf (exec (.devLoad 6#3) (wantsBlaster [true, true])) = some (.returned true none) ∧
      reportOf (exec (.devLoad 6#3) (wantsBlaster [false])) = some (.returned false none) ∧ (6#3) ≠ 0#3) ∧
    ((lab [false]).dm.wanted = (0#3).toNat ∧ (0#3).toNat < nDev (lab [false]).cfg ∧ (lab [false]).dm.current = none ∧
      reportOf (exec (.devLoad 0#3) (lab [false])) = some (.returned false none)) := by decide

theorem witness_GetblkTakesBlockOrHolds :
    let s := phase .getblk ((lab []).setSink { credit := 1, out := [] })
    (owned .olGetblk s ∧ s.ol.phase = .getblk ∧ s.sink.credit = 0 + 1) ∧
    (owned .olGetblk (phase .getblk (lab [])) ∧ (phase .getblk (lab [])).sink.credit = 0) := by decide

theorem witness_FrameStoresGeneratedPair :
    let s := phase .fill (syncOn 0 .covox [0xFF000000#32])
    let u := blasterQueue false oneSample
    let v := blasterQueue false (labQueue 0 0 false [])
    let w := blasterQueue false twoSamples
    let r := blasterQueue true oneSample
    let m := phase .fill tandyQueue
    (owned .olFrame s ∧ s.ol.phase = .fill ∧ loadedFamily s = some .covox ∧ hasSL s.cfg .covox = false) ∧
    (owned .olFrame u ∧ u.ol.phase = .fill ∧ loadedFamily u = some .gameBlaster ∧ u.sq.cap = some 4 ∧
      reportOf (exec .devGen (issuedBy .outputLoop u)) = some .unfinished) ∧
    (v.sq.cap = some 4 ∧ reportOf (exec .devGen (issuedBy .outputLoop v)) = some (.held .queueEmpty)) ∧
    (2 ≤ w.sq.count ∧ w.sq.cap = some 4) ∧ (r.sq.count ≠ 0 ∧ r.ol.chan = true) ∧
    (owned .olFrame m ∧ m.ol.phase = .fill ∧ loadedFamily m = some .tandy ∧ m.sq.count ≠ 0 ∧
      (familyConfig m.cfg .tandy).nch = .mono) ∧
    queueSound u ∧ queueSound v ∧ queueSound w ∧ queueSound r ∧ queueSound m :=
  ⟨by decide, by decide, by decide, by decide, by decide, by decide, oneSample_sound, emptyQueue_sound, twoSamples_sound,
    oneSample_sound, threeQueue_sound⟩

theorem witness_SubmitAppendsBlock :
    let s := (lab []).setOl { phase := .submit, frame := 1, chan := false, tmpL := 0#16
                              blk := [(0, 7#16), (1, 7#16), (2, 8#16), (3, 8#16)] }
    owned .olSubmit s ∧ s.ol.phase = .submit ∧ 3 < 2 * s.cfg.blockFrames ∧ s.ol.blk.read? 3 = some 8#16 ∧ frameSound s :=
  ⟨by decide, by decide, by decide, by decide, by decide, (fun h => by cases h), fun _ k hk => by
    have : k < 4 := hk
    interval_cases k <;> rfl⟩

theorem witness_OutputLoopStuckInFault :
    let s := phase .fault (lab [])
    owned .olSwapchk s ∧ owned .olGetblk s ∧ owned .olFrame s ∧ owned .olSubmit s ∧ s.ol.phase = .fault := by decide

theorem witness_FaultIsNeverLeft :
    (placed 0x6100000000#40 (phase .fault (lab []))).ol.phase = .fault ∧
    ∃ t, step (placed 0x6100000000#40 (phase .fault (lab []))) = .next t := ⟨rfl, _, rfl⟩

theorem witness_ExternalAgentSteps :
    (owned (.hostStrobe 0#32) (syncOn 0 .covox []) ∧ (syncOn 0 .covox []).dev.samplingEn = true) ∧
    owned .sinkReady (lab []) ∧ (owned (.hsRequest 6#3) (lab []) ∧ (6#3).toNat < nDev (lab []).cfg) ∧
    (owned (.hsRequest 7#3) (lab []) ∧ nDev (lab []).cfg ≤ (7#3).toNat) := by decide

theorem witness_ConfigurationNeverWritten : ∃ t, step (placed 0x4000000005#40 (lab [true, true])) = .next t := ⟨_, rfl⟩

theorem witness_NotOwnerRefused :
    ¬ owned .qPop (issuedBy .synthesisLoop (lab [])) ∧ (issuedBy .outputLoop (lab [])).env.issuer = .outputLoop ∧
    (issuedBy .synthesisLoop (lab [])).env.issuer = .synthesisLoop ∧ (issuedBy .host (lab [])).env.issuer = .host ∧
    (issuedBy .sink (lab [])).env.issuer = .sink ∧ (issuedBy .user (lab [])).env.issuer = .user ∧
    ((tandyOn .running .head []).env.issuer = .harness ∧ (tandyOn .running .head []).sl.state ≠ .stopped) ∧
    (consumed (tandyOn .running .head []) ∧ (tandyOn .running .head []).ol.phase = .swap) ∧
    consumed (phase .fill (tandyOn .running .head [])) :=
  ⟨by decide, by decide, by decide, by decide, by decide, by decide, by decide,
    ⟨⟨5, .tandy, rfl, rfl, rfl⟩, rfl⟩, 5, .tandy, rfl, rfl, rfl⟩

theorem witness_EachLaneWritesItsOwnState :
    (loopMay .slPush = true ∧ ∃ t, exec .slPush (tandyOn .running .push [9#16]) = .next t) ∧
    (outputMay labCfg .olFrame = true ∧ ∃ t, exec .olFrame (phase .fill tandyQueue) = .next t) ∧
    (hostMay (.hostStrobe 0#32) = true ∧ ∃ t, exec (.hostStrobe 0#32) (syncOn 0 .covox []) = .next t) ∧
    (sinkMay .sinkReady = true ∧ ∃ t, exec .sinkReady (lab []) = .next t) ∧
    (userMay (.hsRequest 6#3) = true ∧ ∃ t, exec (.hsRequest 6#3) (lab []) = .next t) :=
  ⟨⟨rfl, _, rfl⟩, ⟨by decide, _, rfl⟩, ⟨rfl, _, rfl⟩, ⟨rfl, _, rfl⟩, rfl, _, rfl⟩

theorem witness_SwapFailedIsSticky :
    let s := placed 0x5000000000#40 ((lab [true]).setErr { cause := 1#3, swapFailed := true })
    s.err.swapFailed = true ∧ ∃ t, step s = .next t := ⟨rfl, _, rfl⟩

theorem witness_DeviceChangesOnlyAtBlockBoundary :
    (placed 0x5200000000#40 (phase .fill (syncOn 0 .covox []))).ol.phase ≠ .swap ∧
    ∃ t, step (placed 0x5200000000#40 (phase .fill (syncOn 0 .covox []))) = .next t := ⟨by decide, _, rfl⟩

theorem witness_PendingWordsTakenInOrder :
    (∃ t, step (placed 0x6080000000#40 (syncOn 0 .covox [1#32])) = .next t ∧ t.bsr.pending = [1#32, 0x80000000#32]) ∧
    ∃ t, step (placed 0x4200000000#40 (syncOn 0 .covox [1#32, 2#32])) = .next t ∧ t.bsr.pending = [2#32] :=
  ⟨⟨_, rfl, rfl⟩, _, rfl, rfl⟩

theorem witness_ResourcesStayPaired :
    resourcesPaired (placed 0x4100000000#40 (syncOn 0 .covox [])) ∧
    ∃ t, step (placed 0x4100000000#40 (syncOn 0 .covox [])) = .next t := ⟨(fun h => by cases h), _, rfl⟩

theorem witness_StorageCanonicalKept :
    storageCanonical (placed 0x0100000007#40 threeQueue) ∧
    ∃ t, step (placed 0x0100000007#40 threeQueue) = .next t := ⟨⟨by decide, by decide⟩, _, rfl⟩

/-- Tandy loaded and running, at the start of a block, with its invariants. -/
theorem tandyOn_sound : BlockSound (tandyOn .running .head []) where
  loop := ⟨(fun h => by cases h), fun _ => ⟨⟨_, rfl, rfl⟩, by decide, rfl⟩⟩
  manager := ⟨fun i hi => by cases hi; exact ⟨.tandy, rfl, rfl, rfl, fun _ => ⟨rfl, rfl⟩, (fun h => by cases h)⟩,
    fun h => by cases h⟩
  wanted := by show 5 < nDev labCfg; decide
  chan := fun h => by cases h
  frame := ⟨by show 0 < 2; decide, (fun h => by cases h), fun h => by cases h⟩
  resources := fun h => by cases h

theorem witness_BlockSoundKept :
    isAgentStep .slHead = true ∧ isAgentStep .olSwapchk = true ∧ BlockSound (tandyOn .running .head []) ∧
    (∃ t, exec .slHead (tandyOn .running .head []) = .next t) ∧ ∃ t, exec .olSwapchk (tandyOn .running .head []) = .next t :=
  ⟨rfl, rfl, tandyOn_sound, ⟨_, rfl⟩, _, rfl⟩

theorem witness_AgentStepsAreNeverRefused :
    isAgentStep .olSwapchk = true ∧ BlockSound (tandyOn .running .head []) ∧ owned .olSwapchk (tandyOn .running .head []) :=
  ⟨rfl, tandyOn_sound, rfl⟩

end Sys2Proof.Tests
end

section
/-!
SUPPORT. The scope of the block (00_scope.md): the configuration after reset meets the constraints of R9 and R111, no
step word writes the configuration (20_memory.md R85), and the invariants of the agents' own steps hold after reset.
-/

namespace Sys2Proof.Machine

/-! ### The configuration after reset -/

theorem powerOfTwo_two_pow (k : Nat) : powerOfTwo (2 ^ k) = true := by
  simp [powerOfTwo, Nat.log2_two_pow]

/-- The exponent is at most 31, so the power of two is not cut off by the 32 bits of `CAP[f]`. -/
theorem openCap_toNat (f : Family) :
    (Config.openCap f).toNat = 2 ^ min (Config.openCapLog f) (min 31 (Config.openCMaxLog + 2)) := by
  rw [Config.openCap, BitVec.toNat_ofNat]
  exact Nat.mod_eq_of_lt (Nat.pow_lt_pow_right (by decide) (by omega))

theorem openCap_le_openCMax (f : Family) : (Config.openCap f).toNat ≤ Config.openCMax := by
  rw [openCap_toNat, Config.openCMax]
  exact Nat.pow_le_pow_right (by decide) (by omega)

theorem four_le_openCMax : 4 ≤ Config.openCMax := by
  have : 0 < 2 ^ Config.openCMaxLog := Nat.two_pow_pos _
  rw [Config.openCMax, Nat.pow_add]
  omega

theorem familyConfig_default_wellFormed (f : Family) (sl : Bool) (n : Channels) :
    (FamilyConfig.default f sl n).wellFormed Config.openCMax = true := by
  have hlayout : Layout.default.wellFormed = true := by decide
  have hpow : powerOfTwo (Config.openCap f).toNat = true := by rw [openCap_toNat, powerOfTwo_two_pow]
  simp [FamilyConfig.wellFormed, FamilyConfig.default, hlayout, hpow, openCap_le_openCMax]

theorem config_default_wellFormed : Config.default.wellFormed = true := by
  have hpow : powerOfTwo Config.openCMax = true := powerOfTwo_two_pow _
  simp [Config.wellFormed, Config.families, Config.default, Config.defaultIndex, hpow, four_le_openCMax,
    familyConfig_default_wellFormed]

/-! ### The shared operations leave the configuration -/

@[simp] theorem prepareLoop_cfg (f : Family) (s : State) : (prepareLoop f s).2.2.cfg = s.cfg := by
  cases h : (drawBool s).1
  · simp [prepareLoop_failed h]
  · simp [prepareLoop_acquired h]

@[simp] theorem chipCreate_cfg (f : Family) (s : State) : (chipCreate f s).2.cfg = s.cfg := by
  cases h : (drawBool s).1
  · simp [chipCreate_failed h]
  · simp [chipCreate_ok h]

@[simp] theorem startLoop_cfg (f : Family) (s : State) : (startLoop f s).cfg = s.cfg := by
  simp [startLoop]

@[simp] theorem failLoad_cfg (c : Cause) (s : State) : (failLoad c s).2.cfg = s.cfg := rfl

@[simp] theorem loadSync_cfg (f : Family) (s : State) : (loadSync f s).2.cfg = s.cfg := by
  obtain ⟨_, h⟩ | ⟨_, h⟩ := loadSync_cases f s <;> simp [h]

@[simp] theorem loadSynth_cfg (f : Family) (s : State) : (loadSynth f s).2.cfg = s.cfg := by
  obtain ⟨_, h⟩ | ⟨_, _, h⟩ | ⟨_, _, _, h⟩ | ⟨_, _, _, h⟩ := loadSynth_cases f s <;> simp [h]

theorem deviceLoad_cfg {i : Nat} {s : State} {r : Bool × State} (h : deviceLoad i s = .done r) :
    r.2.cfg = s.cfg := by
  obtain ⟨f, _, _, _, _, hf⟩ := deviceLoad_done h
  obtain ⟨_, _, rfl⟩ | ⟨_, rfl⟩ := loadFamily_done hf
  · exact loadSynth_cfg f s
  · exact loadSync_cfg f s

theorem deviceGen_cfg {s : State} {r : Gen × State} (h : deviceGen s = .done r) : r.2.cfg = s.cfg := by
  obtain ⟨_, _, _, _, _, _, _, hr, _⟩ := deviceGen_frame h
  rw [hr]; rfl

theorem drainWord_cfg {s t : State} {a : Act State} {r : Report} (hd : drainWord s = some a)
    (h : a.bind ran = .done (r, t)) : t.cfg = s.cfg := by
  obtain ⟨_, _, _, _, _, ⟨_, _, _, rfl⟩ | ⟨_, _, _, _, rfl⟩⟩ := drainWord_ran hd h <;> rfl

@[simp] theorem afterLoad_cfg (i : Nat) (ok : Bool) (s : State) : (afterLoad i ok s).cfg = s.cfg := by
  unfold afterLoad
  split
  · rfl
  · dsimp only; split <;> rfl

@[simp] theorem writeFrame_cfg (l r : Sample) (s : State) : (writeFrame l r s).cfg = s.cfg := by
  unfold writeFrame
  dsimp only; split <;> rfl

theorem Waited.cfg_eq {s t : State} (h : Waited s t) : t.cfg = s.cfg := by
  obtain ⟨_, rfl⟩ | rfl := h <;> rfl

theorem perform_answerVal_cfg {i : Instr} {s t : State} {v : BitVec 32}
    (h : perform i s (answerVal v s) = .next t) : t.cfg = s.cfg := by
  obtain ⟨_, rfl⟩ := perform_answerVal_next h; rfl

/-! ### No step writes the configuration -/

/-- R85, word by word: what each meaning did is one of the cases of its law, and each of them leaves the
configuration. -/
theorem exec_cfg {i : Instr} {s t : State} (h : exec i s = .next t) : t.cfg = s.cfg := by
  cases i with
  | qInit cap =>
    obtain hw | ⟨_, _, rfl⟩ := execQInit_next h
    · exact hw.cfg_eq
    · rfl
  | qPush v =>
    obtain hw | ⟨_, _, rfl⟩ := execQPush_next h
    · exact hw.cfg_eq
    · rfl
  | qPop =>
    obtain hw | ⟨_, _, ⟨_, rfl⟩ | ⟨_, _, rfl⟩⟩ := execQPop_next h
    · exact hw.cfg_eq
    · rfl
    · rfl
  | qIsFull => obtain ⟨_, rfl⟩ := execQIsFull_next h; rfl
  | qIsEmpty => obtain ⟨_, rfl⟩ := execQIsEmpty_next h; rfl
  | decCovox w => exact perform_answerVal_cfg h
  | decStereo1 w => exact perform_answerVal_cfg h
  | decDss w => exact perform_answerVal_cfg h
  | decFtl w => exact perform_answerVal_cfg h
  | decOpl2 w => exact perform_answerVal_cfg h
  | decTandy w => exact perform_answerVal_cfg h
  | decCms w => exact perform_answerVal_cfg h
  | cmCreate k =>
    obtain hw | ⟨f, _, _, _, _, rfl⟩ := execCmCreate_next h
    · exact hw.cfg_eq
    · exact chipCreate_cfg f s
  | cmWrite a d =>
    obtain hw | ⟨_, _, rfl⟩ := execCmWrite_next h
    · exact hw.cfg_eq
    · rfl
  | cmSample =>
    obtain hw | ⟨_, _, _, rfl⟩ := execCmSample_next h
    · exact hw.cfg_eq
    · rfl
  | cmDestroy =>
    obtain hw | rfl := execCmDestroy_next h
    · exact hw.cfg_eq
    · rfl
  | slHead =>
    obtain hw | ⟨_, _, rfl⟩ := execSlHead_next h
    · exact hw.cfg_eq
    · rfl
  | slDrain =>
    obtain hw | ⟨_, _, ⟨_, rfl⟩ | ⟨_, u, hd, ha, rfl⟩⟩ := execSlDrain_next h
    · exact hw.cfg_eq
    · rfl
    · exact drainWord_cfg (t := u) hd ha
  | slSample =>
    obtain hw | ⟨_, _, _, _, _, _, _, rfl⟩ := execSlSample_next h
    · exact hw.cfg_eq
    · rfl
  | slStall =>
    obtain hw | ⟨_, _, ⟨_, rfl⟩ | ⟨_, _, _, u, hd, ha, rfl⟩⟩ := execSlStall_next h
    · exact hw.cfg_eq
    · rfl
    · exact drainWord_cfg (t := u) hd ha
  | slPush =>
    obtain hw | ⟨_, _, _, _, _, _, rfl⟩ := execSlPush_next h
    · exact hw.cfg_eq
    · rfl
  | slExit =>
    obtain hw | ⟨_, _, rfl⟩ := execSlExit_next h
    · exact hw.cfg_eq
    · rfl
  | devLoad k =>
    obtain hw | ⟨_, hr, rfl⟩ := execDevLoad_next h
    · exact hw.cfg_eq
    · exact deviceLoad_cfg hr
  | devUnload =>
    obtain hw | ⟨_, hu, rfl⟩ := execDevUnload_next h
    · exact hw.cfg_eq
    · obtain ⟨_, _, rfl⟩ := deviceUnload_done hu
      exact unloadDevice_cfg s
  | devGen =>
    obtain hw | ⟨_, _, hg, rfl⟩ := execDevGen_next h
    · exact hw.cfg_eq
    · exact deviceGen_cfg hg
  | olSwapchk =>
    obtain hw | ⟨_, ⟨_, _, _, rfl⟩ | ⟨_, _, _, rfl⟩ | ⟨r, _, hr, rfl⟩⟩ := execOlSwapchk_next h
    · exact hw.cfg_eq
    · rfl
    · exact unloadDevice_cfg s
    · calc (afterLoad s.dm.wanted r.1 r.2).cfg = r.2.cfg := afterLoad_cfg ..
        _ = s.cfg := deviceLoad_cfg hr
  | olGetblk =>
    obtain hw | ⟨_, _, rfl⟩ := execOlGetblk_next h
    · exact hw.cfg_eq
    · rfl
  | olFrame =>
    obtain hw | ⟨_, _, _, u, hg, ⟨l, r, _, rfl⟩ | ⟨_, rfl⟩⟩ := execOlFrame_next h
    · exact hw.cfg_eq
    · calc (writeFrame l r u).cfg = u.cfg := writeFrame_cfg ..
        _ = s.cfg := deviceGen_cfg hg
    · exact deviceGen_cfg hg
  | olSubmit =>
    obtain hw | ⟨_, rfl⟩ := execOlSubmit_next h
    · exact hw.cfg_eq
    · rfl
  | hostStrobe w =>
    obtain hw | ⟨_, rfl⟩ := execHostStrobe_next h
    · exact hw.cfg_eq
    · rfl
  | sinkReady =>
    obtain hw | rfl := execSinkReady_next h
    · exact hw.cfg_eq
    · rfl
  | hsRequest k =>
    obtain hw | ⟨_, rfl⟩ | ⟨_, rfl⟩ := execHsRequest_next h
    · exact hw.cfg_eq
    · rfl
    · rfl

theorem step_cfg {s t : State} (h : step s = .next t) : t.cfg = s.cfg := by
  obtain ⟨_, _, hexec⟩ := step_next h
  rw [exec_cfg hexec, afterFetch_cfg]

/-- Settles O50: the reset configuration is the default one, whose OPEN values are well formed by construction, and the
fetch and every step word leave the configuration. -/
theorem configurationNeverWritten : Obligations.ConfigurationNeverWritten :=
  ⟨config_default_wellFormed, fun _ _ => step_cfg⟩

/-! ### The invariants after reset -/

/-- R31, R207: the loop starts STOPPED, at its head, with no chip model and nothing pending. -/
theorem loopSound_reset : loopSound State.reset :=
  ⟨fun _ => ⟨rfl, rfl, rfl⟩, fun hrun => absurd rfl hrun⟩

/-- R47: no device is current, nothing is claimed, and the Output Loop is in SWAP. -/
theorem managerSound_reset : managerSound State.reset := by
  refine ⟨fun i hi => ?_, fun _ => ⟨rfl, ?_, .inl rfl⟩⟩
  · cases hi
  · exact LoopState.noConfusion

/-- R48: `DEFAULT_INDEX` is an index of the default device table of seven families. -/
theorem wantedInTable_reset : wantedInTable State.reset := by
  show Config.defaultIndex < Config.default.devTab.length
  decide

theorem chanSound_reset : chanSound State.reset := fun hchan => Bool.noConfusion hchan

/-- R41, R9: frame 0 is below `BLOCK_FRAMES`, which is at least 1; nothing is filled or submitted in SWAP. -/
theorem frameSound_reset : frameSound State.reset :=
  ⟨Nat.succ_pos Config.openBlockFramesPred, fun hfill => OutPhase.noConfusion hfill,
    fun hsubmit => OutPhase.noConfusion hsubmit⟩

theorem resourcesPaired_reset : resourcesPaired State.reset := fun _ => ⟨rfl, rfl⟩

/-- Settles O58, one invariant after another. -/
theorem blockSoundAtReset : Obligations.BlockSoundAtReset where
  loop := loopSound_reset
  manager := managerSound_reset
  wanted := wantedInTable_reset
  chan := chanSound_reset
  frame := frameSound_reset
  resources := resourcesPaired_reset

end Sys2Proof.Machine
end

section
/-!
SUPPORT. The Bounded Sample Queue as a window of entries (10_state.md R23): `Queue.Window` ties head, tail and full bit
to an occupancy, and each queue operation moves the window. From it: the queue invariants after an operation, the
occupancy count and the list of queued samples.
-/

namespace Sys2Proof.Machine

/-! ### The window of occupied entries -/

/-- The queue after a push that found room (R132). -/
def Queue.pushed (c : Nat) (v : Sample) (q : Queue) : Queue :=
  { q with buf := q.buf.write q.head v, head := (q.head + 1) % c, full := decide ((q.head + 1) % c = q.tail) }

/-- The queue after a pop that found a sample (R133). -/
def Queue.popped (c : Nat) (q : Queue) : Queue := { q with tail := (q.tail + 1) % c, full := false }

/-- The `n` entries from `tail` on, and no others, are occupied in a queue of capacity `c` (R22, R23 (b), (c)). -/
structure Queue.Window (q : Queue) (c n : Nat) : Prop where
  tail_lt : q.tail < c
  le : n ≤ c
  head_eq : q.head = slotIndex q c n
  full_iff : q.full = true ↔ n = c

/-- Every one of the `n` oldest entries is written (R23 (d), R26). -/
def Queue.Written (q : Queue) (c n : Nat) : Prop := ∀ j, j < n → (q.buf.read? (slotIndex q c j)).isSome = true

/-- A capacity that `Q.INIT` admits, as a number (R21, R131). -/
structure GoodCap (m c : Nat) : Prop where
  ne_zero : c ≠ 0
  power : c &&& (c - 1) = 0
  le : c ≤ m

theorem goodCap_of_capAdmitted {m : Nat} {cap : BitVec 32} (h : capAdmitted m cap = true) : GoodCap m cap.toNat := by
  simp only [capAdmitted, Bool.and_eq_true, decide_eq_true_eq] at h
  obtain ⟨⟨hne, hpow⟩, hle⟩ := h
  have hpos : cap.toNat ≠ 0 := fun h0 => hne (BitVec.eq_of_toNat_eq h0)
  have hsub : (cap - 1#32).toNat = cap.toNat - 1 := by
    have := cap.isLt
    bv_omega
  refine ⟨hpos, ?_, hle⟩
  rw [← hsub, ← BitVec.toNat_and, hpow]
  rfl

/-- Two entries less than a full turn apart are different entries. -/
theorem slotIndex_ne (q : Queue) {c j k : Nat} (hjk : j < k) (hkc : k < j + c) :
    slotIndex q c j ≠ slotIndex q c k := by
  intro h
  have hdvd : (q.tail + k - (q.tail + j)) % c = 0 := Nat.sub_mod_eq_zero_of_mod_eq h.symm
  rw [Nat.mod_eq_of_lt (by omega)] at hdvd
  omega

theorem slotIndex_succ (q : Queue) (c j : Nat) : slotIndex q c (j + 1) = (slotIndex q c j + 1) % c := by
  rw [slotIndex, slotIndex, Nat.mod_add_mod, Nat.add_assoc]

/-- A pop renumbers the entries by one. -/
theorem slotIndex_popped (q : Queue) (c j : Nat) : slotIndex (q.popped c) c j = slotIndex q c (j + 1) := by
  rw [slotIndex, slotIndex, Queue.popped, Nat.mod_add_mod, Nat.add_assoc, Nat.add_comm 1]

namespace Queue.Window

variable {q : Queue} {c n : Nat}

theorem slotIndex_zero (w : q.Window c n) : slotIndex q c 0 = q.tail := Nat.mod_eq_of_lt w.tail_lt

/-- The occupancy of R23 (c) is the width of the window. -/
theorem count_eq (w : q.Window c n) (hc : q.cap = some c) : q.count = n := by
  obtain ⟨htail, hle, hhead, hfull⟩ := w
  simp only [Queue.count, hc]
  split
  · rename_i hf; exact (hfull.1 hf).symm
  · rename_i hf
    have hlt : n < c := Nat.lt_of_le_of_ne hle (mt hfull.2 hf)
    rw [hhead, slotIndex, Nat.add_mod_eq_ite, Nat.mod_eq_of_lt htail, Nat.mod_eq_of_lt hlt]
    split
    · rw [show q.tail + n - c + c - q.tail = n by omega, Nat.mod_eq_of_lt hlt]
    · rw [show q.tail + n + c - q.tail = n + c by omega, Nat.add_mod_right, Nat.mod_eq_of_lt hlt]

theorem full_eq_false_iff (w : q.Window c n) : q.full = false ↔ n < c := by
  rw [← Bool.not_eq_true, w.full_iff]
  have := w.le
  omega

/-- The empty reading of R24 is an empty window. -/
theorem isEmpty_iff (w : q.Window c n) : q.isEmpty = true ↔ n = 0 := by
  have hc : 0 < c := Nat.zero_lt_of_lt w.tail_lt
  simp only [Queue.isEmpty, Bool.and_eq_true, decide_eq_true_eq, Bool.not_eq_true', w.full_eq_false_iff]
  constructor
  · rintro ⟨hht, hlt⟩
    by_contra hn
    refine slotIndex_ne q (c := c) (Nat.pos_of_ne_zero hn) (by omega) ?_
    rw [w.slotIndex_zero, ← w.head_eq, hht]
  · rintro rfl
    exact ⟨by rw [w.head_eq, w.slotIndex_zero], hc⟩

theorem isEmpty_eq_false_iff (w : q.Window c n) : q.isEmpty = false ↔ 0 < n := by
  rw [← Bool.not_eq_true, w.isEmpty_iff, Nat.pos_iff_ne_zero]

/-- A push that finds room widens the window at the head. -/
theorem pushed (w : q.Window c n) (hn : n < c) (v : Sample) : (q.pushed c v).Window c (n + 1) where
  tail_lt := w.tail_lt
  le := hn
  head_eq := by rw [slotIndex_succ]; exact congrArg (fun h => (h + 1) % c) w.head_eq
  full_iff := by
    have hhead : (q.head + 1) % c = slotIndex q c (n + 1) := by rw [slotIndex_succ, w.head_eq]
    simp only [Queue.pushed, decide_eq_true_eq, hhead]
    constructor
    · intro h
      by_contra hne
      exact slotIndex_ne q (c := c) (Nat.succ_pos n) (by omega) (w.slotIndex_zero.trans h.symm)
    · rintro rfl
      rw [slotIndex, Nat.add_mod_right, Nat.mod_eq_of_lt w.tail_lt]

/-- A pop narrows the window at the tail. -/
theorem popped (w : q.Window c (n + 1)) : (q.popped c).Window c n where
  tail_lt := Nat.mod_lt _ (Nat.zero_lt_of_lt w.tail_lt)
  le := Nat.le_of_succ_le w.le
  head_eq := by rw [slotIndex_popped]; exact w.head_eq
  full_iff := by
    have := w.le
    simp only [Queue.popped, Bool.false_eq_true, false_iff]
    omega

/-- The entry a push writes is none of the occupied ones. -/
theorem slotIndex_ne_head (w : q.Window c n) (hn : n < c) {j : Nat} (hj : j < n) : slotIndex q c j ≠ q.head := by
  rw [w.head_eq]
  exact slotIndex_ne q hj (by omega)

end Queue.Window

/-- What a push and a pop do to the written entries (R26). -/
theorem Queue.Written.pushed {q : Queue} {c n : Nat} (h : q.Written c n) (w : q.Window c n) (v : Sample) :
    (q.pushed c v).Written c (n + 1) := by
  intro j hj
  show ((q.buf.write q.head v).read? (slotIndex q c j)).isSome = true
  rw [Memory.read?_write]
  split
  · rfl
  · rename_i hne
    refine h j (Nat.lt_of_le_of_ne (Nat.le_of_lt_succ hj) ?_)
    rintro rfl
    exact hne w.head_eq.symm

theorem Queue.Written.popped {q : Queue} {c n : Nat} (h : q.Written c (n + 1)) : (q.popped c).Written c n := by
  intro j hj
  rw [slotIndex_popped]
  exact h (j + 1) (Nat.succ_lt_succ hj)

/-! ### The queue invariants -/

/-- A sound initialised queue has an admitted capacity, and its occupancy is a window of written entries. -/
theorem Queue.sound.window {m c : Nat} {q : Queue} (h : q.sound m) (hc : q.cap = some c) :
    GoodCap m c ∧ q.Window c q.count ∧ q.Written c q.count := by
  obtain ⟨hne, hpow, hle, hhead, htail, hfull, hwritten⟩ := h c hc
  refine ⟨⟨hne, hpow, hle⟩, ?_, hwritten⟩
  simp only [Queue.count, hc]
  cases hf : q.full with
  | true =>
    refine ⟨htail, Nat.le_refl c, ?_, by simp [hf]⟩
    rw [hfull hf]
    simp [slotIndex, Nat.mod_eq_of_lt htail]
  | false =>
    have hlt : (q.head + c - q.tail) % c < c := Nat.mod_lt _ (Nat.pos_of_ne_zero hne)
    refine ⟨htail, Nat.le_of_lt hlt, ?_, by simp [hf, Nat.ne_of_lt hlt]⟩
    rw [if_neg Bool.false_ne_true, slotIndex, Nat.add_mod_mod, show q.tail + (q.head + c - q.tail) = q.head + c by omega,
      Nat.add_mod_right, Nat.mod_eq_of_lt hhead]

/-- Conversely a window of written entries is a sound queue. -/
theorem Queue.Window.sound {m c n : Nat} {q : Queue} (w : q.Window c n) (hc : q.cap = some c) (hg : GoodCap m c)
    (hwritten : q.Written c n) : q.sound m := by
  intro c' hc'
  obtain rfl : c = c' := Option.some.inj (hc.symm.trans hc')
  refine ⟨hg.ne_zero, hg.power, hg.le, ?_, w.tail_lt, fun hf => ?_, ?_⟩
  · rw [w.head_eq]; exact Nat.mod_lt _ (Nat.pos_of_ne_zero hg.ne_zero)
  · rw [w.head_eq, w.full_iff.1 hf, slotIndex, Nat.add_mod_right, Nat.mod_eq_of_lt w.tail_lt]
  · rw [w.count_eq hc]; exact hwritten

/-- `Q.INIT` leaves an empty sound queue, or the queue as it was (R131). -/
theorem Queue.sound.init {m : Nat} {q : Queue} (h : q.sound m) (cap : BitVec 32) : (Queue.init m cap q).2.sound m := by
  obtain ⟨hcap, he⟩ | ⟨_, he⟩ := Queue.init_cases m cap q
  · rw [he]
    have hg : GoodCap m cap.toNat := goodCap_of_capAdmitted hcap
    have w : Queue.Window { q with cap := some cap.toNat, head := 0, tail := 0, full := false } cap.toNat 0 :=
      ⟨Nat.pos_of_ne_zero hg.ne_zero, Nat.zero_le _, by simp [slotIndex], by simpa using hg.ne_zero.symm⟩
    exact w.sound rfl hg fun j hj => absurd hj (Nat.not_lt_zero j)
  · rw [he]; exact h

/-- A push that found room, and one that did not. -/
theorem Queue.push_pushed {v : Sample} {q : Queue} {r : Bool × Queue} (h : Queue.push v q = .done r) :
    r = (false, q) ∨ ∃ c, q.cap = some c ∧ q.full = false ∧ r = (true, q.pushed c v) := by
  obtain ⟨c, hc, ⟨_, hr⟩ | ⟨hf, hr⟩⟩ := Queue.push_done h
  · exact .inl hr
  · exact .inr ⟨c, hc, hf, hr⟩

/-- A pop that found a sample, and one that did not. -/
theorem Queue.pop_popped {q : Queue} {r : Option Sample × Queue} (h : Queue.pop q = .done r) :
    r = (none, q) ∨
      ∃ c, q.cap = some c ∧ q.isEmpty = false ∧ r = (some (q.buf.read .qbuf q.tail), q.popped c) := by
  obtain ⟨c, hc, ⟨_, hr⟩ | ⟨he, hr⟩⟩ := Queue.pop_done h
  · exact .inl hr
  · exact .inr ⟨c, hc, he, hr⟩

theorem Queue.sound.push {m : Nat} {v : Sample} {q : Queue} {r : Bool × Queue} (h : q.sound m)
    (hr : Queue.push v q = .done r) : r.2.sound m := by
  obtain rfl | ⟨c, hc, hf, rfl⟩ := Queue.push_pushed hr
  · exact h
  · obtain ⟨hg, w, hwritten⟩ := h.window hc
    exact (w.pushed (w.full_eq_false_iff.1 hf) v).sound hc hg (hwritten.pushed w v)

theorem Queue.sound.popped {m c : Nat} {q : Queue} (h : q.sound m) (hc : q.cap = some c) (he : q.isEmpty = false) :
    (q.popped c).sound m := by
  obtain ⟨hg, w, hwritten⟩ := h.window hc
  obtain ⟨n, hn⟩ := Nat.exists_eq_add_one.2 (w.isEmpty_eq_false_iff.1 he)
  rw [hn] at w hwritten
  exact w.popped.sound hc hg hwritten.popped

theorem Queue.sound.pop {m : Nat} {q : Queue} {r : Option Sample × Queue} (h : q.sound m)
    (hr : Queue.pop q = .done r) : r.2.sound m := by
  obtain rfl | ⟨c, hc, he, rfl⟩ := Queue.pop_popped hr
  · exact h
  · exact h.popped hc he

/-! ### The occupancy and the queued samples -/

theorem Memory.read_write (sp : Space) (m : Memory) (k j : Nat) (v : Sample) :
    (m.write k v).read sp j = if j = k then v else m.read sp j := by
  rw [Memory.read_eq, Memory.read_eq, Memory.read?_write]
  split <;> rfl

theorem Queue.Window.contents_eq {q : Queue} {c n : Nat} (w : q.Window c n) (hc : q.cap = some c) :
    q.contents = (List.range n).map fun j => q.buf.read .qbuf (slotIndex q c j) := by
  simp only [Queue.contents, hc, w.count_eq hc]

/-- R23 (d), R132: a push appends to the queued samples. -/
theorem Queue.Window.contents_pushed {q : Queue} {c n : Nat} (w : q.Window c n) (hc : q.cap = some c) (hn : n < c)
    (v : Sample) : (q.pushed c v).contents = q.contents ++ [v] := by
  have hread : ∀ j, (q.pushed c v).buf.read .qbuf (slotIndex (q.pushed c v) c j) =
      if slotIndex q c j = q.head then v else q.buf.read .qbuf (slotIndex q c j) := fun j => Memory.read_write ..
  rw [(w.pushed hn v).contents_eq hc, w.contents_eq hc, List.range_succ, List.map_append]
  congr 1
  · refine List.map_congr_left fun j hj => ?_
    rw [hread, if_neg (w.slotIndex_ne_head hn (List.mem_range.1 hj))]
  · rw [List.map_singleton, hread, if_pos w.head_eq.symm]

/-- R23 (d), R133: a pop takes the oldest of the queued samples. -/
theorem Queue.Window.contents_popped {q : Queue} {c n : Nat} (w : q.Window c (n + 1)) (hc : q.cap = some c) :
    q.contents = q.buf.read .qbuf q.tail :: (q.popped c).contents := by
  rw [w.popped.contents_eq hc, w.contents_eq hc, List.range_succ_eq_map, List.map_cons, List.map_map,
    w.slotIndex_zero]
  congr 1
  refine List.map_congr_left fun j _ => ?_
  rw [slotIndex_popped]
  rfl

theorem Waited.report_ne {s t : State} (h : Waited s t) (ok : Bool) (val : Option (BitVec 32)) :
    t.env.report ≠ .returned ok val := by
  obtain ⟨_, rfl⟩ | rfl := h <;> exact Report.noConfusion

/-- A `Q.PUSH` that reports success found room and pushed. -/
theorem qPush_succeeded {v : Sample} {s t : State} (h : exec (.qPush v) s = .next t)
    (hr : t.env.report = .returned true none) :
    ∃ c, s.sq.cap = some c ∧ s.sq.full = false ∧ t.sq = s.sq.pushed c v := by
  obtain hw | ⟨r, hpush, rfl⟩ := execQPush_next h
  · exact absurd hr (hw.report_ne _ _)
  · obtain rfl | ⟨c, hc, hf, rfl⟩ := Queue.push_pushed hpush
    · cases hr
    · exact ⟨c, hc, hf, rfl⟩

/-- A `Q.POP` that reports a sample found one and popped it. -/
theorem qPop_succeeded {x : BitVec 32} {s t : State} (h : exec .qPop s = .next t)
    (hr : t.env.report = .returned true (some x)) :
    ∃ c, s.sq.cap = some c ∧ s.sq.isEmpty = false ∧ t.sq = s.sq.popped c ∧
      x = packOne (s.sq.buf.read .qbuf s.sq.tail) := by
  obtain hw | ⟨r, hpop, ⟨_, rfl⟩ | ⟨v, hv, rfl⟩⟩ := execQPop_next h
  · exact absurd hr (hw.report_ne _ _)
  · cases hr
  · obtain rfl | ⟨c, hc, he, rfl⟩ := Queue.pop_popped hpop
    · cases hv
    · cases hv; cases hr
      exact ⟨c, hc, he, rfl, rfl⟩

theorem packOne_setWidth (v : Sample) : (packOne v).setWidth 16 = v := by
  rw [packOne, BitVec.setWidth_setWidth_of_le _ (by decide), BitVec.setWidth_eq]

/-- Settles O10: the occupancy of a sound queue is the width of its window, which a push widens and a pop narrows. -/
theorem queueCountTracksOperations : Obligations.QueueCountTracksOperations := by
  intro s c hs hc
  obtain ⟨_, w, _⟩ := hs.window hc
  refine ⟨w.le, w.full_iff, w.isEmpty_iff, fun v t h hr => ?_, fun x t h hr => ?_⟩
  · obtain ⟨c', hc', hf, ht⟩ := qPush_succeeded h hr
    obtain rfl : c = c' := Option.some.inj (hc.symm.trans hc')
    rw [ht]
    exact ⟨(w.pushed (w.full_eq_false_iff.1 hf) v).count_eq hc, rfl⟩
  · obtain ⟨c', hc', he, ht, _⟩ := qPop_succeeded h hr
    obtain rfl : c = c' := Option.some.inj (hc.symm.trans hc')
    obtain ⟨n, hn⟩ := Nat.exists_eq_add_one.2 (w.isEmpty_eq_false_iff.1 he)
    rw [ht]
    rw [hn] at w ⊢
    exact ⟨congrArg (· + 1) (w.popped.count_eq hc), rfl⟩

/-- Settles O13: the queued samples are the entries of the window in order. -/
theorem queueRefinesFifoList : Obligations.QueueRefinesFifoList := by
  intro s hs
  refine ⟨fun v t h hr => ?_, fun x t h hr => ?_⟩
  · obtain ⟨c, hc, hf, ht⟩ := qPush_succeeded h hr
    obtain ⟨_, w, _⟩ := Queue.sound.window hs hc
    rw [ht]
    exact w.contents_pushed hc (w.full_eq_false_iff.1 hf) v
  · obtain ⟨c, hc, he, ht, rfl⟩ := qPop_succeeded h hr
    obtain ⟨_, w, _⟩ := Queue.sound.window hs hc
    obtain ⟨n, hn⟩ := Nat.exists_eq_add_one.2 (w.isEmpty_eq_false_iff.1 he)
    rw [hn] at w
    rw [ht, packOne_setWidth]
    exact w.contents_popped hc

/-- Settles O12: the queue is not initialised after reset. -/
theorem queueSoundAtReset : Obligations.QueueSoundAtReset := fun _ hc => nomatch hc

end Sys2Proof.Machine
end

section
/-!
SUPPORT. What one step word can write, said once: `Effect s t` lists the cases, `exec_effect` goes through the 32
meanings, and every invariant of the whole machine is then a case analysis of `Effect`. `Loaded` and `Generated` say
the same of the two larger operations, `DEV.LOAD` and `DEV.GEN`. The environment may change in every case.
-/

namespace Sys2Proof.Machine

/-! ### What a load writes -/

/-- The four endings of a load of the family `f` (R232, R233): the result `ok` and the state after it. -/
inductive Loaded (f : Family) (s : State) : Bool → State → Prop
  | notAcquired (e : Env) : Loaded f s false ((raiseCause .resourceExhausted s).setEnv e)
  | failed (e : Env) :
      Loaded f s false ((failLoad .initFailure
        ((claimDevice f s).setSq (Queue.init s.cfg.cMax (familyConfig s.cfg f).cap s.sq).2)).2.setEnv e)
  | synchronous (hf : hasSL s.cfg f = false) (e : Env) :
      Loaded f s true ((openSampling (claimDevice f s)).setEnv e)
  | started {x : Chip} (r0 r1 : Byte) (hf : hasSL s.cfg f = true) (hx : x.fam = f)
      (hq : (Queue.init s.cfg.cMax (familyConfig s.cfg f).cap s.sq).1 = true) (e : Env) :
      Loaded f s true
        ((((openSampling (claimDevice f s)).setSq (Queue.init s.cfg.cMax (familyConfig s.cfg f).cap s.sq).2).setSl
          { state := .running, phase := .head, fam := f, curReg0 := r0, curReg1 := r1, chip := some x,
            pend := [] }).setEnv e)

/-- Starting the loop draws two latches; the chip model is the one constructed before. -/
theorem startLoop_eq (f : Family) (s : State) :
    ∃ r0 r1 e, startLoop f s = ((openSampling s).setSl
      { state := .running, phase := .head, fam := f, curReg0 := r0, curReg1 := r1, chip := s.sl.chip,
        pend := [] }).setEnv e := by
  refine ⟨(drawByte s).1, (drawByte (drawByte s).2).1, (drawByte (drawByte s).2).2.env, ?_⟩
  have h2 : (drawByte (drawByte s).2).2 = s.setEnv (drawByte (drawByte s).2).2.env := by
    rw [drawByte_state (drawByte s).2, drawByte_state s]; rfl
  simp only [startLoop]
  rw [h2]
  rfl

theorem loadSynth_loaded {f : Family} {s : State} (hf : hasSL s.cfg f = true) :
    Loaded f s (loadSynth f s).1 (loadSynth f s).2 := by
  obtain ⟨e, he⟩ : ∃ e, (drawBool s).2 = s.setEnv e := ⟨_, drawBool_state s⟩
  obtain ⟨_, h⟩ | ⟨hd, _, h⟩ | ⟨hd, _, _, h⟩ | ⟨hd, hq, hc, h⟩ := loadSynth_cases f s <;> rw [h]
  · rw [he]
    exact .notAcquired e
  · rw [prepareLoop_acquired hd, he]
    exact .failed e
  · rw [drawBool_state, prepareLoop_acquired hd, he]
    exact .failed _
  · rw [chipCreate_ok hc, drawBool_state]
    obtain ⟨r0, r1, e', hstart⟩ := startLoop_eq f
      (((prepareLoop f s).2.2.setEnv (drawBool (prepareLoop f s).2.2).2.env).setSl
        { (prepareLoop f s).2.2.sl with chip := some (chipNew (prepareLoop f s).2.2.cfg f) })
    rw [hstart]
    rw [prepareLoop_acquired hd] at hq ⊢
    rw [he]
    exact .started r0 r1 hf (chipNew_fam _ f) hq e'

theorem loadSync_loaded {f : Family} {s : State} (hf : hasSL s.cfg f = false) :
    Loaded f s (loadSync f s).1 (loadSync f s).2 := by
  obtain ⟨_, h⟩ | ⟨_, h⟩ := loadSync_cases f s <;> rw [h, drawBool_state]
  · exact .synchronous hf _
  · exact .notAcquired _

/-- A `DEV.LOAD` that ran found nothing loaded and the loop STOPPED, and ended in one of the four ways (R231). -/
theorem deviceLoad_loaded {i : Nat} {s : State} {r : Bool × State} (h : deviceLoad i s = .done r) :
    ∃ f, devTabEntry s.cfg i = some f ∧ s.dev.handle = .none ∧ s.sl.state = .stopped ∧ Loaded f s r.1 r.2 := by
  obtain ⟨f, hi, _, hhandle, hstop, hload⟩ := deviceLoad_done h
  refine ⟨f, hi, hhandle, hstop, ?_⟩
  obtain ⟨hf, _, rfl⟩ | ⟨hf, rfl⟩ := loadFamily_done hload
  · exact loadSynth_loaded hf
  · exact loadSync_loaded hf

theorem Queue.init_buf (m : Nat) (cap : BitVec 32) (q : Queue) : (Queue.init m cap q).2.buf = q.buf := by
  obtain ⟨_, h⟩ | ⟨_, h⟩ := Queue.init_cases m cap q <;> rw [h]

namespace Loaded

variable {f : Family} {s u : State} {ok : Bool}

theorem dm_eq (h : Loaded f s ok u) : u.dm = s.dm := by cases h <;> rfl
theorem ol_eq (h : Loaded f s ok u) : u.ol = s.ol := by cases h <;> rfl
theorem cfg_eq (h : Loaded f s ok u) : u.cfg = s.cfg := by cases h <;> rfl
theorem swapFailed_eq (h : Loaded f s ok u) : u.err.swapFailed = s.err.swapFailed := by cases h <;> rfl

theorem sq_cases (h : Loaded f s ok u) :
    u.sq = s.sq ∨ u.sq = (Queue.init s.cfg.cMax (familyConfig s.cfg f).cap s.sq).2 := by
  cases h with
  | notAcquired | synchronous => exact .inl rfl
  | failed | started => exact .inr rfl

theorem buf_eq (h : Loaded f s ok u) : u.sq.buf = s.sq.buf := by
  obtain he | he := h.sq_cases <;> rw [he]
  exact Queue.init_buf ..

theorem state_cases (h : Loaded f s ok u) : u.sl.state = s.sl.state ∨ u.sl.state = .running := by
  cases h with
  | started => exact .inr rfl
  | _ => exact .inl rfl

/-- A failed acquisition leaves the pending words; every other ending drops them. -/
theorem pending_cases (h : Loaded f s ok u) : u.bsr.pending = s.bsr.pending ∨ u.bsr.pending = [] := by
  cases h with
  | notAcquired => exact .inl rfl
  | _ => exact .inr rfl

/-- R39: a load that fails gives back what it claimed, one that succeeds holds the handle. -/
theorem resourcesPaired (h : Loaded f s ok u) (hs : resourcesPaired s) : resourcesPaired u := by
  cases h with
  | notAcquired => exact hs
  | failed => exact fun _ => ⟨rfl, rfl⟩
  | synchronous | started => exact fun hnone => nomatch hnone

end Loaded

/-- What `OL.SWAPCHK` makes of the result of a load (R263): `DM`, `OL.phase`, and `ERR.swap_failed` may change. -/
theorem afterLoad_eq (i : Nat) (ok : Bool) (s : State) :
    ∃ m p b, afterLoad i ok s =
        ((s.setDm m).setOl { s.ol with phase := p }).setErr { s.err with swapFailed := b } ∧
      (s.err.swapFailed = true → b = true) := by
  cases ok with
  | true => exact ⟨{ s.dm with current := some i }, .getblk, s.err.swapFailed, rfl, id⟩
  | false =>
    by_cases hi : i = Config.defaultIndex
    · exact ⟨s.dm, .fault, true, by simp [afterLoad, hi]; rfl, fun _ => rfl⟩
    · exact ⟨{ s.dm with wanted := Config.defaultIndex }, s.ol.phase, true, by simp [afterLoad, hi]; rfl, fun _ => rfl⟩

/-! ### What a generate writes -/

/-- The fields that a `DEV.GEN` leaves alone: it writes the read side of the queue, the hold registers, `OL.chan` and
`OL.tmp_l`, and takes at most one pending word (R241 to R245). -/
structure Generated (s u : State) : Prop where
  cap : u.sq.cap = s.sq.cap
  buf : u.sq.buf = s.sq.buf
  sl : u.sl = s.sl
  handle : u.dev.handle = s.dev.handle
  samplingEn : u.dev.samplingEn = s.dev.samplingEn
  pinsInit : u.dev.pinsInit = s.dev.pinsInit
  decFam : u.dev.decFam = s.dev.decFam
  dm : u.dm = s.dm
  phase : u.ol.phase = s.ol.phase
  frame : u.ol.frame = s.ol.frame
  blk : u.ol.blk = s.ol.blk
  err : u.err = s.err
  pending : u.bsr.pending = s.bsr.pending ∨ ∃ w, s.bsr.pending = w :: u.bsr.pending

theorem deviceGen_generated {s : State} {r : Gen × State} (h : deviceGen s = .done r) : Generated s r.2 := by
  obtain ⟨_, _, _, _, _, _, _, hr, hp, _⟩ := deviceGen_frame h
  rw [hr]
  exact ⟨rfl, rfl, rfl, rfl, rfl, rfl, rfl, rfl, rfl, rfl, rfl, rfl, hp⟩

theorem genRight_sound {m : Nat} {s : State} {r : Gen × State} (h : genRight s = .done r) (hs : s.sq.sound m) :
    r.2.sq.sound m := by
  obtain ⟨c, hc, he, rfl⟩ := genRight_done h
  exact hs.popped hc he

/-- A `DEV.GEN` changes the queue by pops only: none, one or two. -/
theorem deviceGen_sound {m : Nat} {s : State} {r : Gen × State} (h : deviceGen s = .done r) (hs : s.sq.sound m) :
    r.2.sq.sound m := by
  unfold deviceGen at h
  split at h
  · cases h
  · rename_i f _
    split at h
    · split at h
      · obtain ⟨c, hc, he, rfl⟩ := genQueueMono_done h
        exact hs.popped hc he
      · obtain ⟨c, hc, he, ⟨_, hr⟩ | ⟨_, s1, rfl, ⟨_, rfl⟩ | ⟨_, hr⟩⟩⟩ := genQueueStereo_done h
        · exact genRight_sound hr hs
        · exact hs.popped hc he
        · exact genRight_sound hr (hs.popped hc he)
    · split at h <;> cases h
      · obtain ⟨_, _, _, he, _⟩ := genSyncStereo_frame .stereoOnOne s
        rw [he]; exact hs
      · obtain ⟨_, _, he, _⟩ := genSyncMono_frame f s
        rw [he]; exact hs

/-- `OL.FRAME` stores the pair at the two entries of `OL.frame`, and goes to the next frame or to SUBMIT (R264). -/
theorem writeFrame_eq (l r : Sample) (s : State) :
    ∃ o, writeFrame l r s = s.setOl o ∧
      o.blk = (s.ol.blk.write (2 * s.ol.frame) l).write (2 * s.ol.frame + 1) r ∧ o.chan = s.ol.chan ∧
      ((s.ol.frame + 1 = s.cfg.blockFrames ∧ o.phase = .submit ∧ o.frame = s.ol.frame) ∨
       (s.ol.frame + 1 ≠ s.cfg.blockFrames ∧ o.phase = s.ol.phase ∧ o.frame = s.ol.frame + 1)) := by
  unfold writeFrame
  dsimp only
  split
  · rename_i hlast; exact ⟨_, rfl, rfl, rfl, .inl ⟨hlast, rfl, rfl⟩⟩
  · rename_i hmore; exact ⟨_, rfl, rfl, rfl, .inr ⟨hmore, rfl, rfl⟩⟩

/-! ### What a step word writes -/

/-- What a step word that answers a next state did, by what it wrote. -/
inductive Effect (s : State) : State → Prop
  /-- a query, a decoder operation, a step that held or was not enabled -/
  | idle (e : Env) : Effect s (s.setEnv e)
  | queueInit (cap : BitVec 32) (e : Env) : Effect s ((s.setSq (Queue.init s.cfg.cMax cap s.sq).2).setEnv e)
  /-- `Q.PUSH` and `SL.PUSH` -/
  | queuePush {v : Sample} {r : Bool × Queue} (hr : Queue.push v s.sq = .done r) (l : Synth)
      (hl : l.state = s.sl.state) (e : Env) : Effect s (((s.setSq r.2).setSl l).setEnv e)
  | queuePop {r : Option Sample × Queue} (hr : Queue.pop s.sq = .done r) (e : Env) : Effect s ((s.setSq r.2).setEnv e)
  /-- the chip operations, and the loop's steps without a push or a bus word -/
  | loop (l : Synth) (hl : l.state = s.sl.state) (e : Env) : Effect s ((s.setSl l).setEnv e)
  /-- a pending word that the loop takes and applies -/
  | drain {w : BusWord} {rest : List BusWord} (hp : s.bsr.pending = w :: rest) (l : Synth)
      (hl : l.state = s.sl.state) (e : Env) : Effect s (((s.setBsr { pending := rest }).setSl l).setEnv e)
  | exit (hs : s.sl.state = .stopping) (l : Synth) (hl : l.state = .stopped) (e : Env) : Effect s ((s.setSl l).setEnv e)
  | load {f : Family} {ok : Bool} {u : State} (hs : s.sl.state = .stopped) (hu : Loaded f s ok u) (e : Env) :
      Effect s (u.setEnv e)
  | unload (e : Env) : Effect s ((unloadDevice s).setEnv e)
  /-- `DEV.GEN`, and `OL.FRAME` after a left pop alone -/
  | generate {r : Gen × State} (hr : deviceGen s = .done r) (e : Env) : Effect s (r.2.setEnv e)
  /-- `OL.SWAPCHK` with the wanted device current, `OL.GETBLK`, `OL.SUBMIT` -/
  | output (hp : s.ol.phase ≠ .fault) (o : OutLoop) (ho : o.blk = s.ol.blk) (k : Sink) (e : Env) :
      Effect s (((s.setSink k).setOl o).setEnv e)
  /-- `OL.SWAPCHK` with another device current -/
  | swapUnload (hp : s.ol.phase = .swap) (m : Manager) (e : Env) : Effect s (((unloadDevice s).setDm m).setEnv e)
  /-- `OL.SWAPCHK` with no device current -/
  | swapLoad {f : Family} {ok : Bool} {u : State} (hp : s.ol.phase = .swap) (hs : s.sl.state = .stopped)
      (hu : Loaded f s ok u) (m : Manager) (p : OutPhase) (b : Bool) (hb : u.err.swapFailed = true → b = true)
      (e : Env) :
      Effect s ((((u.setDm m).setOl { u.ol with phase := p }).setErr { u.err with swapFailed := b }).setEnv e)
  | frame {g : Gen} {u : State} (hp : s.ol.phase = .fill) (hu : deviceGen s = .done (g, u)) (l r : Sample)
      (o : OutLoop) (ho : o.blk = (u.ol.blk.write (2 * u.ol.frame) l).write (2 * u.ol.frame + 1) r) (e : Env) :
      Effect s ((u.setOl o).setEnv e)
  | strobe (hs : s.dev.samplingEn = true) (w : BusWord) (e : Env) :
      Effect s ((s.setBsr { pending := s.bsr.pending ++ [w] }).setEnv e)
  | credit (k : Sink) (e : Env) : Effect s ((s.setSink k).setEnv e)
  | request (i : Nat) (e : Env) : Effect s ((s.setDm { s.dm with wanted := i }).setEnv e)

theorem effect_of_waited {s t : State} (h : Waited s t) : Effect s t := by
  obtain ⟨_, rfl⟩ | rfl := h
  · exact .idle _
  · exact .idle _

theorem effect_of_answerVal {i : Instr} {s t : State} {v : BitVec 32}
    (h : perform i s (answerVal v s) = .next t) : Effect s t := by
  obtain ⟨_, rfl⟩ := perform_answerVal_next h
  exact .idle _

theorem effect_of_drainWord {s u : State} {a : Act State} {r x : Report} (hd : drainWord s = some a)
    (h : a.bind ran = .done (r, u)) : Effect s (u.setReport x) := by
  obtain ⟨_, w, rest, _, hp, ⟨_, v, d, rfl⟩ | ⟨_, _, _, _, rfl⟩⟩ := drainWord_ran hd h
  · exact .drain hp (setCurReg v d s.sl) (setCurReg_state ..) _
  · exact .drain hp _ (by rfl) _

theorem effect_of_chipCreate (f : Family) (s : State) (r : Report) : Effect s ((chipCreate f s).2.setReport r) := by
  cases h : (drawBool s).1
  · rw [chipCreate_failed h, drawBool_state]
    exact .idle _
  · rw [chipCreate_ok h, drawBool_state]
    exact .loop { s.sl with chip := some (chipNew s.cfg f) } rfl _

/-- Every step word that answers a next state did one of the things `Effect` lists. -/
theorem exec_effect {i : Instr} {s t : State} (h : exec i s = .next t) : Effect s t := by
  cases i with
  | qInit cap =>
    obtain hw | ⟨_, _, rfl⟩ := execQInit_next h
    · exact effect_of_waited hw
    · exact .queueInit cap _
  | qPush v =>
    obtain hw | ⟨_, hr, rfl⟩ := execQPush_next h
    · exact effect_of_waited hw
    · exact .queuePush hr s.sl rfl _
  | qPop =>
    obtain hw | ⟨_, hr, ⟨_, rfl⟩ | ⟨_, _, rfl⟩⟩ := execQPop_next h
    · exact effect_of_waited hw
    · exact .queuePop hr _
    · exact .queuePop hr _
  | qIsFull => obtain ⟨_, rfl⟩ := execQIsFull_next h; exact .idle _
  | qIsEmpty => obtain ⟨_, rfl⟩ := execQIsEmpty_next h; exact .idle _
  | decCovox w => exact effect_of_answerVal h
  | decStereo1 w => exact effect_of_answerVal h
  | decDss w => exact effect_of_answerVal h
  | decFtl w => exact effect_of_answerVal h
  | decOpl2 w => exact effect_of_answerVal h
  | decTandy w => exact effect_of_answerVal h
  | decCms w => exact effect_of_answerVal h
  | cmCreate k =>
    obtain hw | ⟨f, _, _, _, _, rfl⟩ := execCmCreate_next h
    · exact effect_of_waited hw
    · exact effect_of_chipCreate f s _
  | cmWrite a d =>
    obtain hw | ⟨_, _, rfl⟩ := execCmWrite_next h
    · exact effect_of_waited hw
    · exact .loop _ (by rfl) _
  | cmSample =>
    obtain hw | ⟨_, _, _, rfl⟩ := execCmSample_next h
    · exact effect_of_waited hw
    · exact .loop _ (by rfl) _
  | cmDestroy =>
    obtain hw | rfl := execCmDestroy_next h
    · exact effect_of_waited hw
    · exact .loop _ (by rfl) _
  | slHead =>
    obtain hw | ⟨_, _, rfl⟩ := execSlHead_next h
    · exact effect_of_waited hw
    · exact .loop _ (by rfl) _
  | slDrain =>
    obtain hw | ⟨_, _, ⟨_, rfl⟩ | ⟨_, _, hd, ha, rfl⟩⟩ := execSlDrain_next h
    · exact effect_of_waited hw
    · exact .loop _ (by rfl) _
    · exact effect_of_drainWord hd ha
  | slSample =>
    obtain hw | ⟨_, _, _, _, _, _, _, rfl⟩ := execSlSample_next h
    · exact effect_of_waited hw
    · exact .loop _ (by rfl) _
  | slStall =>
    obtain hw | ⟨_, _, ⟨_, rfl⟩ | ⟨_, _, _, _, hd, ha, rfl⟩⟩ := execSlStall_next h
    · exact effect_of_waited hw
    · exact .loop _ (by rfl) _
    · exact effect_of_drainWord hd ha
  | slPush =>
    obtain hw | ⟨_, _, _, _, hr, _, rfl⟩ := execSlPush_next h
    · exact effect_of_waited hw
    · exact .queuePush hr (dropPending s.sl) rfl _
  | slExit =>
    obtain hw | ⟨_, hs, rfl⟩ := execSlExit_next h
    · exact effect_of_waited hw
    · exact .exit hs _ (by rfl) _
  | devLoad k =>
    obtain hw | ⟨_, hr, rfl⟩ := execDevLoad_next h
    · exact effect_of_waited hw
    · obtain ⟨_, _, _, hs, hu⟩ := deviceLoad_loaded hr
      exact .load hs hu _
  | devUnload =>
    obtain hw | ⟨_, hu, rfl⟩ := execDevUnload_next h
    · exact effect_of_waited hw
    · obtain ⟨_, _, rfl⟩ := deviceUnload_done hu
      exact .unload _
  | devGen =>
    obtain hw | ⟨_, _, hr, rfl⟩ := execDevGen_next h
    · exact effect_of_waited hw
    · exact .generate hr _
  | olSwapchk =>
    obtain hw | ⟨hp, ⟨_, _, _, rfl⟩ | ⟨_, _, _, rfl⟩ | ⟨r, _, hr, rfl⟩⟩ := execOlSwapchk_next h
    · exact effect_of_waited hw
    · exact .output (by simp [hp]) _ (by rfl) s.sink _
    · exact .swapUnload hp _ _
    · obtain ⟨_, _, _, hs, hu⟩ := deviceLoad_loaded hr
      obtain ⟨m, p, b, he, hb⟩ := afterLoad_eq s.dm.wanted r.1 r.2
      rw [he]
      exact .swapLoad hp hs hu m p b hb _
  | olGetblk =>
    obtain hw | ⟨hp, _, rfl⟩ := execOlGetblk_next h
    · exact effect_of_waited hw
    · exact .output (by simp [hp]) _ (by rfl) _ _
  | olFrame =>
    obtain hw | ⟨hp, _, _, u, hu, ⟨l, r, _, rfl⟩ | ⟨_, rfl⟩⟩ := execOlFrame_next h
    · exact effect_of_waited hw
    · obtain ⟨o, he, hblk, _⟩ := writeFrame_eq l r u
      rw [he]
      exact .frame hp hu l r o hblk _
    · exact .generate hu _
  | olSubmit =>
    obtain hw | ⟨hp, rfl⟩ := execOlSubmit_next h
    · exact effect_of_waited hw
    · exact .output (by simp [hp]) _ (by rfl) _ _
  | hostStrobe w =>
    obtain hw | ⟨hs, rfl⟩ := execHostStrobe_next h
    · exact effect_of_waited hw
    · exact .strobe hs w _
  | sinkReady =>
    obtain hw | rfl := execSinkReady_next h
    · exact effect_of_waited hw
    · exact .credit _ _
  | hsRequest k =>
    obtain hw | ⟨_, rfl⟩ | ⟨_, rfl⟩ := execHsRequest_next h
    · exact effect_of_waited hw
    · exact .request _ _
    · exact .idle _

theorem afterFetch_state (s : State) : afterFetch s = s.setEnv (afterFetch s).env := by
  unfold afterFetch
  split <;> rfl

/-- A step is the fetch, which changes the environment only, and the effect of one step word. -/
theorem step_effect {s t : State} (h : step s = .next t) : ∃ e, Effect (s.setEnv e) t := by
  obtain ⟨_, _, hexec⟩ := step_next h
  rw [afterFetch_state] at hexec
  exact ⟨_, exec_effect hexec⟩

/-! ### The invariants of every step -/

theorem Queue.push_buf_wf {v : Sample} {q : Queue} {r : Bool × Queue} (h : Queue.push v q = .done r) (hq : q.buf.wf) :
    r.2.buf.wf := by
  obtain rfl | ⟨_, _, _, rfl⟩ := Queue.push_pushed h
  · exact hq
  · exact Memory.wf_write _ _ _ hq

theorem Queue.pop_buf {q : Queue} {r : Option Sample × Queue} (h : Queue.pop q = .done r) : r.2.buf = q.buf := by
  obtain rfl | ⟨_, _, _, rfl⟩ := Queue.pop_popped h <;> rfl

/-- The transitions of the loop's state machine (R30, R211). -/
def LoopMove (a b : LoopState) : Prop :=
  b = a ∨ (a = .stopped ∧ b = .running) ∨ (a = .running ∧ b = .stopping) ∨ (a = .stopping ∧ b = .stopped)

theorem loopMove_unloadDevice (s : State) : LoopMove s.sl.state (unloadDevice s).sl.state := by
  rw [unloadDevice_sl]
  cases h : s.sl.state with
  | running => exact .inr (.inr (.inl ⟨rfl, rfl⟩))
  | _ => exact .inl rfl

theorem loopMove_loaded {f : Family} {s u : State} {ok : Bool} (hs : s.sl.state = .stopped) (h : Loaded f s ok u) :
    LoopMove s.sl.state u.sl.state :=
  h.state_cases.imp_right fun hrun => .inl ⟨hs, hrun⟩

/-- What may become of the pending words in one step (R55, R281). -/
def PendingMove (samplingEn : Bool) (p p' : List BusWord) : Prop :=
  p' = p ∨ (∃ w, p = w :: p') ∨ p' = [] ∨ (samplingEn = true ∧ ∃ w, p' = p ++ [w])

theorem pendingMove_generated {s u : State} (h : Generated s u) :
    PendingMove s.dev.samplingEn s.bsr.pending u.bsr.pending :=
  h.pending.imp_right .inl

theorem pendingMove_loaded {f : Family} {s u : State} {ok : Bool} (h : Loaded f s ok u) :
    PendingMove s.dev.samplingEn s.bsr.pending u.bsr.pending :=
  h.pending_cases.imp_right fun he => .inr (.inl he)

theorem Generated.resourcesPaired {s u : State} (h : Generated s u) (hs : resourcesPaired s) : resourcesPaired u := by
  intro hnone
  rw [h.samplingEn, h.pinsInit]
  exact hs (h.handle ▸ hnone)

namespace Effect

variable {s t : State}

/-- R23: the queue changes by the queue operations only, and each keeps it sound. -/
theorem sound {m : Nat} (h : Effect s t) (hm : m = s.cfg.cMax) (hs : s.sq.sound m) : t.sq.sound m := by
  subst hm
  cases h with
  | queueInit cap => exact hs.init cap
  | queuePush hr => exact hs.push hr
  | queuePop hr => exact hs.pop hr
  | load _ hu | swapLoad _ _ hu =>
    obtain he | he := hu.sq_cases
    · exact he ▸ hs
    · exact he ▸ hs.init _
  | unload => simpa using hs
  | swapUnload => simpa using hs
  | generate hr => exact deviceGen_sound hr hs
  | frame _ hu => exact deviceGen_sound hu hs
  | _ => exact hs

/-- Only the Output Loop writes `OL.phase` and `DM.current`, and none of its steps is enabled in FAULT. -/
theorem fault (h : Effect s t) (hs : s.ol.phase = .fault) : t.ol.phase = .fault ∧ t.dm.current = s.dm.current := by
  cases h with
  | load _ hu => exact ⟨(congrArg OutLoop.phase hu.ol_eq).trans hs, congrArg Manager.current hu.dm_eq⟩
  | unload => simpa using hs
  | generate hr =>
    have hg := deviceGen_generated hr
    exact ⟨hg.phase.trans hs, congrArg Manager.current hg.dm⟩
  | output hp => exact absurd hs hp
  | swapUnload hp | swapLoad hp | frame hp => rw [hs] at hp; cases hp
  | _ => exact ⟨hs, rfl⟩

theorem storageCanonical (h : Effect s t) (hs : storageCanonical s) : storageCanonical t := by
  obtain ⟨hbuf, hblk⟩ := hs
  cases h with
  | queueInit cap => exact ⟨(Queue.init_buf s.cfg.cMax cap s.sq).symm ▸ hbuf, hblk⟩
  | queuePush hr => exact ⟨Queue.push_buf_wf hr hbuf, hblk⟩
  | queuePop hr => exact ⟨Queue.pop_buf hr ▸ hbuf, hblk⟩
  | load _ hu | swapLoad _ _ hu => exact ⟨hu.buf_eq ▸ hbuf, hu.ol_eq ▸ hblk⟩
  | unload | swapUnload => exact ⟨by simpa using hbuf, by simpa using hblk⟩
  | generate hr =>
    have hg := deviceGen_generated hr
    exact ⟨hg.buf ▸ hbuf, hg.blk ▸ hblk⟩
  | output _ o ho => exact ⟨hbuf, ho ▸ hblk⟩
  | frame _ hu l r o ho =>
    have hg := deviceGen_generated hu
    exact ⟨hg.buf ▸ hbuf, ho ▸ Memory.wf_write_two _ _ _ _ _ (hg.blk ▸ hblk)⟩
  | _ => exact ⟨hbuf, hblk⟩

theorem loopMove (h : Effect s t) : LoopMove s.sl.state t.sl.state := by
  cases h with
  | queuePush _ l hl | loop l hl | drain _ l hl => exact .inl hl
  | exit hs l hl => exact .inr (.inr (.inr ⟨hs, hl⟩))
  | load hs hu | swapLoad _ hs hu => exact (loopMove_loaded hs hu :)
  | unload | swapUnload => exact loopMove_unloadDevice s
  | generate hr => exact .inl (congrArg Synth.state (deviceGen_generated hr).sl)
  | frame _ hu => exact .inl (congrArg Synth.state (deviceGen_generated hu).sl)
  | _ => exact .inl rfl

/-- R50: the one write of `ERR.swap_failed` sets it. -/
theorem swapFailed (h : Effect s t) (hs : s.err.swapFailed = true) : t.err.swapFailed = true := by
  cases h with
  | load _ hu => exact hu.swapFailed_eq.trans hs
  | swapLoad _ _ hu m p b hb => exact hb (hu.swapFailed_eq.trans hs)
  | unload | swapUnload => simpa using hs
  | generate hr => exact (deviceGen_generated hr).err ▸ hs
  | frame _ hu => exact (deviceGen_generated hu).err ▸ hs
  | _ => exact hs

/-- R47: `DM.current` is written by `OL.SWAPCHK` alone, which runs in SWAP. -/
theorem current (h : Effect s t) (hs : s.ol.phase ≠ .swap) : t.dm.current = s.dm.current := by
  cases h with
  | load _ hu => exact congrArg Manager.current hu.dm_eq
  | unload => simp
  | swapUnload hp | swapLoad hp => exact absurd hp hs
  | generate hr => exact congrArg Manager.current (deviceGen_generated hr).dm
  | frame _ hu => exact congrArg Manager.current (deviceGen_generated hu).dm
  | _ => rfl

theorem pendingMove (h : Effect s t) : PendingMove s.dev.samplingEn s.bsr.pending t.bsr.pending := by
  cases h with
  | drain hp => exact .inr (.inl ⟨_, hp⟩)
  | load _ hu | swapLoad _ _ hu => exact (pendingMove_loaded hu :)
  | unload | swapUnload => exact .inr (.inr (.inl (by simp)))
  | generate hr => exact (pendingMove_generated (deviceGen_generated hr) :)
  | frame _ hu => exact (pendingMove_generated (deviceGen_generated hu) :)
  | strobe hs w => exact .inr (.inr (.inr ⟨hs, w, rfl⟩))
  | _ => exact .inl rfl

/-- R39: the handle, sampling and the pins are claimed and released together. -/
theorem resourcesPaired (h : Effect s t) (hs : resourcesPaired s) : resourcesPaired t := by
  cases h with
  | load _ hu | swapLoad _ _ hu => exact hu.resourcesPaired hs
  | unload | swapUnload => exact fun _ => by simp
  | generate hr => exact (deviceGen_generated hr).resourcesPaired hs
  | frame _ hu => exact (deviceGen_generated hu).resourcesPaired hs
  | _ => exact hs

end Effect

/-- Settles O11: every change of the queue is by `Q.INIT`, pushes and pops, and no step writes `C_MAX`. -/
theorem queueSoundKept : Obligations.QueueSoundKept := by
  intro s t hs h
  obtain ⟨_, he⟩ := step_effect h
  unfold queueSound
  rw [step_cfg h]
  exact he.sound rfl hs

/-- Settles O48. -/
theorem faultIsNeverLeft : Obligations.FaultIsNeverLeft := by
  intro s t hs h
  obtain ⟨_, he⟩ := step_effect h
  exact he.fault hs

/-- Settles O57: nothing is stored at reset, and a stored entry comes from `Memory.write`. -/
theorem storageCanonicalKept : Obligations.StorageCanonicalKept := by
  refine ⟨⟨reset_buf_wf, reset_blk_wf⟩, fun s t hs h => ?_⟩
  obtain ⟨_, he⟩ := step_effect h
  exact he.storageCanonical hs

/-- Settles O30. -/
theorem loopStateTransitions : Obligations.LoopStateTransitions := by
  intro s t h
  obtain ⟨_, he⟩ := step_effect h
  exact he.loopMove

/-- Settles O53. -/
theorem swapFailedIsSticky : Obligations.SwapFailedIsSticky := by
  intro s t hs h
  obtain ⟨_, he⟩ := step_effect h
  exact he.swapFailed hs

/-- Settles O54. -/
theorem deviceChangesOnlyAtBlockBoundary : Obligations.DeviceChangesOnlyAtBlockBoundary := by
  intro s t hs h
  obtain ⟨_, he⟩ := step_effect h
  exact he.current hs

/-- Settles O55. -/
theorem pendingWordsTakenInOrder : Obligations.PendingWordsTakenInOrder := by
  intro s t h
  obtain ⟨_, he⟩ := step_effect h
  exact he.pendingMove

/-- Settles O56. -/
theorem resourcesStayPaired : Obligations.ResourcesStayPaired := by
  intro s t hs h
  obtain ⟨_, he⟩ := step_effect h
  exact he.resourcesPaired hs

end Sys2Proof.Machine
end

section
/-!
SUPPORT. The invariants of the block under the agents' own steps (10_state.md R31, R39, R41 to R43, R47, R48;
43_synthesis_loop.md R212): what each invariant reads, and one lemma for each kind of agent step.
-/

namespace Sys2Proof.Machine

variable {s t u : State}

/-! ### What each invariant reads -/

/-- A loop that goes on keeps its invariant if it keeps a chip model of its family, an initialised queue, and pending
samples exactly in STALL and PUSH. -/
theorem loopSound.of_alive (h : loopSound s) (halive : s.sl.state ≠ .stopped) (hstate : t.sl.state = s.sl.state)
    (hchip : ∃ x, t.sl.chip = some x ∧ x.fam = t.sl.fam)
    (hpend : t.sl.pend ≠ [] ↔ t.sl.phase = .stall ∨ t.sl.phase = .push) (hcap : t.sq.cap = s.sq.cap) : loopSound t := by
  obtain ⟨_, _, hinit⟩ := h.2 halive
  exact ⟨fun hstop => absurd (hstate.symm.trans hstop) halive, fun _ => ⟨hchip, hpend, by rw [hcap]; exact hinit⟩⟩

/-- The device manager's invariant reads no more of the state than these fields. -/
theorem managerSound.congr (h : managerSound s) (hcfg : t.cfg = s.cfg) (hcur : t.dm.current = s.dm.current)
    (hhandle : t.dev.handle = s.dev.handle) (hdec : t.dev.decFam = s.dev.decFam) (hstate : t.sl.state = s.sl.state)
    (hfam : t.sl.fam = s.sl.fam) (hphase : s.dm.current = none → t.ol.phase = s.ol.phase) : managerSound t := by
  unfold managerSound
  rw [hcfg, hcur, hhandle, hdec, hstate, hfam]
  refine ⟨h.1, fun hnone => ?_⟩
  rw [hphase hnone]
  exact h.2 hnone

/-- Outside SWAP and FAULT a device is current (R47). -/
theorem managerSound.exists_current (h : managerSound s) (hswap : s.ol.phase ≠ .swap) (hfault : s.ol.phase ≠ .fault) :
    ∃ i, s.dm.current = some i := by
  cases hcur : s.dm.current with
  | some i => exact ⟨i, rfl⟩
  | none =>
    obtain ⟨_, _, hp | hp⟩ := h.2 hcur
    · exact absurd hp hswap
    · exact absurd hp hfault

/-- Outside FILL no right sample is owed (R42). -/
theorem chanSound.chan_eq_false (h : chanSound s) (hfill : s.ol.phase ≠ .fill) : s.ol.chan = false :=
  Bool.eq_false_iff.2 fun hchan => hfill (h hchan).1

theorem chanSound_of_chan_eq_false (h : s.ol.chan = false) : chanSound s := fun hchan => by
  rw [h] at hchan; cases hchan

/-- Outside FILL and SUBMIT only the bound of `OL.frame` counts (R41). -/
theorem frameSound_of_idle (hlt : s.ol.frame < s.cfg.blockFrames) (hfill : s.ol.phase ≠ .fill)
    (hsubmit : s.ol.phase ≠ .submit) : frameSound s :=
  ⟨hlt, fun hp => absurd hp hfill, fun hp => absurd hp hsubmit⟩

/-- A step that changes neither the device, the Output Loop nor which loop is running has only the invariant of the
Synthesis Loop to keep. -/
theorem BlockSound.of_loop (h : BlockSound s) (hloop : loopSound t) (hstate : t.sl.state = s.sl.state)
    (hfam : t.sl.fam = s.sl.fam) (hdev : t.dev = s.dev) (hdm : t.dm = s.dm) (hol : t.ol = s.ol)
    (hcfg : t.cfg = s.cfg) : BlockSound t where
  loop := hloop
  manager := h.manager.congr hcfg (by rw [hdm]) (by rw [hdev]) (by rw [hdev]) hstate hfam fun _ => by rw [hol]
  wanted := by unfold wantedInTable; rw [hdm, hcfg]; exact h.wanted
  chan := by unfold chanSound; rw [hol, hdm, hcfg]; exact h.chan
  frame := by unfold frameSound; rw [hol, hcfg]; exact h.frame
  resources := by unfold resourcesPaired; rw [hdev]; exact h.resources

/-- No invariant reads the environment. -/
theorem BlockSound.setReport (h : BlockSound s) (r : Report) : BlockSound (s.setReport r) :=
  h.of_loop h.loop rfl rfl rfl rfl rfl rfl

theorem BlockSound.waited (h : BlockSound s) (hw : Waited s t) : BlockSound t := by
  obtain ⟨_, rfl⟩ | rfl := hw
  · exact h.setReport _
  · exact h.setReport _

/-! ### The Synthesis Loop's steps -/

/-- A step of a live loop that keeps the queue: its chip model and pending samples decide. -/
theorem BlockSound.setSl_alive (h : BlockSound s) {l : Synth} (p : BusSampler) (halive : s.sl.state ≠ .stopped)
    (hstate : l.state = s.sl.state) (hfam : l.fam = s.sl.fam) (hchip : ∃ x, l.chip = some x ∧ x.fam = l.fam)
    (hpend : l.pend ≠ [] ↔ l.phase = .stall ∨ l.phase = .push) : BlockSound ((s.setBsr p).setSl l) :=
  h.of_loop (h.loop.of_alive halive hstate hchip hpend rfl) hstate hfam rfl rfl rfl rfl

/-- R202, R205: applying a pending word changes a latch or the state of the chip model. -/
theorem BlockSound.drainWord (h : BlockSound s) (halive : s.sl.state ≠ .stopped) {a : Act State} {r : Report}
    (hd : drainWord s = some a) (ha : a.bind ran = .done (r, u)) : BlockSound u := by
  obtain ⟨⟨x, hx, hxf⟩, hpend, _⟩ := h.loop.2 halive
  obtain ⟨_, _, _, _, _, ⟨_, v, d, rfl⟩ | ⟨a', d, y, hy, rfl⟩⟩ := drainWord_ran hd ha
  · exact h.setSl_alive _ halive (by simp) (by simp) ⟨x, by simpa using hx, by simpa using hxf⟩ (by simpa using hpend)
  · obtain rfl : x = y := Option.some.inj (hx.symm.trans hy)
    exact h.setSl_alive _ halive rfl rfl ⟨_, rfl, by simpa using hxf⟩ hpend

theorem BlockSound.slHead (h : BlockSound s) (he : execSlHead s = .next t) : BlockSound t := by
  obtain hw | ⟨hrun, hphase, rfl⟩ := execSlHead_next he
  · exact h.waited hw
  · have halive : s.sl.state ≠ .stopped := by simp [hrun]
    obtain ⟨hchip, hpend, _⟩ := h.loop.2 halive
    exact (h.setSl_alive s.bsr halive (l := { s.sl with phase := .drain }) rfl rfl hchip
      (by simpa [hphase] using hpend)).setReport _

theorem BlockSound.slDrain (h : BlockSound s) (he : execSlDrain s = .next t) : BlockSound t := by
  obtain hw | ⟨hrun, hphase, hcases⟩ := execSlDrain_next he
  · exact h.waited hw
  have halive : s.sl.state ≠ .stopped := by simp [hrun]
  obtain ⟨_, rfl⟩ | ⟨_, _, hd, ha, rfl⟩ := hcases
  · obtain ⟨hchip, hpend, _⟩ := h.loop.2 halive
    exact (h.setSl_alive s.bsr halive (l := { s.sl with phase := .sample }) rfl rfl hchip
      (by simpa [hphase] using hpend)).setReport _
  · exact (h.drainWord halive hd ha).setReport _

theorem BlockSound.slSample (h : BlockSound s) (he : execSlSample s = .next t) : BlockSound t := by
  obtain hw | ⟨halive, _, x, vals, hx, _, hvals, rfl⟩ := execSlSample_next he
  · exact h.waited hw
  · obtain ⟨⟨y, hy, hyf⟩, _, _⟩ := h.loop.2 halive
    obtain rfl : x = y := Option.some.inj (hx.symm.trans hy)
    exact (h.setSl_alive s.bsr halive
      (l := { s.sl with chip := some (chipAfterSample s.cfg x), pend := vals, phase := .stall }) rfl rfl
      ⟨_, rfl, hyf⟩ (by simpa using hvals)).setReport _

theorem BlockSound.slStall (h : BlockSound s) (he : execSlStall s = .next t) : BlockSound t := by
  obtain hw | ⟨halive, hphase, ⟨_, rfl⟩ | ⟨_, _, _, _, hd, ha, rfl⟩⟩ := execSlStall_next he
  · exact h.waited hw
  · obtain ⟨hchip, hpend, _⟩ := h.loop.2 halive
    exact (h.setSl_alive s.bsr halive (l := { s.sl with phase := .push }) rfl rfl hchip
      (by simpa [hphase] using hpend)).setReport _
  · exact (h.drainWord halive hd ha).setReport _

theorem Queue.push_cap {v : Sample} {q : Queue} {r : Bool × Queue} (h : Queue.push v q = .done r) :
    r.2.cap = q.cap := by
  obtain rfl | ⟨_, _, _, rfl⟩ := Queue.push_pushed h <;> rfl

/-- R206, R212: in PUSH a sample is pending; after the push the loop is back in STALL exactly if another one is. -/
theorem BlockSound.slPush (h : BlockSound s) (he : execSlPush s = .next t) : BlockSound t := by
  obtain hw | ⟨halive, hphase, r, n, hr, _, rfl⟩ := execSlPush_next he
  · exact h.waited hw
  · obtain ⟨hchip, hpend, _⟩ := h.loop.2 halive
    have hdrop : (dropPending s.sl).pend ≠ [] ↔
        (dropPending s.sl).phase = .stall ∨ (dropPending s.sl).phase = .push := by
      obtain ⟨v, rest, hvr⟩ := List.exists_cons_of_ne_nil (hpend.2 (.inr hphase))
      rw [dropPending_cons hvr]
      cases rest <;> simp
    exact h.of_loop (h.loop.of_alive halive rfl hchip hdrop (Queue.push_cap hr)) rfl rfl rfl rfl rfl rfl

/-- R207: the loop exits in STOPPING, when no device is current that has a loop. -/
theorem BlockSound.slExit (h : BlockSound s) (he : execSlExit s = .next t) : BlockSound t := by
  obtain hw | ⟨_, hstop, rfl⟩ := execSlExit_next he
  · exact h.waited hw
  · refine ⟨⟨fun _ => ⟨rfl, rfl, rfl⟩, fun hne => absurd rfl hne⟩, ⟨fun i hi => ?_, fun hnone => ?_⟩, h.wanted, h.chan,
      h.frame, h.resources⟩
    · obtain ⟨f, hf, hhandle, hdec, hrun, _⟩ := h.manager.1 i hi
      refine ⟨f, hf, hhandle, hdec, fun hsl => ?_, fun _ => rfl⟩
      have hrunning := (hrun hsl).1
      rw [hstop] at hrunning
      cases hrunning
    · obtain ⟨hhandle, _, hphase⟩ := h.manager.2 hnone
      exact ⟨hhandle, LoopState.noConfusion, hphase⟩

/-! ### The hot swap -/

theorem Queue.init_cap_isSome {m : Nat} {cap : BitVec 32} {q : Queue} (h : (Queue.init m cap q).1 = true) :
    (Queue.init m cap q).2.cap.isSome = true := by
  obtain ⟨_, he⟩ | ⟨_, he⟩ := Queue.init_cases m cap q <;> rw [he] at h ⊢
  · rfl
  · cases h

namespace Loaded

variable {f : Family} {ok : Bool}

/-- R232: a loop is started with its chip model and an initialised queue, or stays STOPPED and clean. -/
theorem loopSound (h : Loaded f s ok u) (hs : loopSound s) (hstop : s.sl.state = .stopped) : loopSound u := by
  obtain ⟨hhead, _, hpend⟩ := hs.1 hstop
  cases h with
  | notAcquired | synchronous => exact hs
  | failed => exact ⟨fun _ => ⟨hhead, rfl, hpend⟩, fun hne => absurd hstop hne⟩
  | started _ _ _ hx hq =>
    exact ⟨fun hne => (nomatch hne), fun _ => ⟨⟨_, rfl, hx⟩, by simp, Queue.init_cap_isSome hq⟩⟩

/-- R232, R233: what a load that succeeded claimed, and the loop it started or did not need. -/
theorem claimed (h : Loaded f s true u) (hstop : s.sl.state = .stopped) :
    u.dev.handle = .acquired ∧ u.dev.decFam = f ∧ (hasSL s.cfg f = true → u.sl.state = .running ∧ u.sl.fam = f) ∧
      (hasSL s.cfg f = false → u.sl.state = .stopped) := by
  cases h with
  | synchronous hf => exact ⟨rfl, rfl, fun hsl => (nomatch hf.symm.trans hsl), fun _ => hstop⟩
  | started _ _ hf => exact ⟨rfl, rfl, fun _ => ⟨rfl, rfl⟩, fun hsl => nomatch hf.symm.trans hsl⟩

/-- R232: a load that failed claims nothing and starts no loop. -/
theorem unclaimed (h : Loaded f s false u) (hhandle : s.dev.handle = .none) :
    u.dev.handle = .none ∧ u.sl.state = s.sl.state := by
  cases h with
  | notAcquired => exact ⟨hhandle, rfl⟩
  | failed => exact ⟨rfl, rfl⟩

end Loaded

/-- R263: the loaded device becomes current. -/
theorem BlockSound.loadSucceeded (h : BlockSound s) {i : Nat} {f : Family} (hphase : s.ol.phase = .swap)
    (hf : devTabEntry s.cfg i = some f) (hstop : s.sl.state = .stopped) (hu : Loaded f s true u) :
    BlockSound (setOutPhase .getblk (u.setDm { u.dm with current := some i })) := by
  have hchan : u.ol.chan = false := by rw [hu.ol_eq]; exact h.chan.chan_eq_false (by simp [hphase])
  obtain ⟨hhandle, hdec, hrun, hsync⟩ := hu.claimed hstop
  refine ⟨hu.loopSound h.loop hstop, ⟨fun j hj => ?_, fun hnone => nomatch hnone⟩, ?_,
    chanSound_of_chan_eq_false hchan, frameSound_of_idle ?_ OutPhase.noConfusion OutPhase.noConfusion,
    hu.resourcesPaired h.resources⟩
  · obtain rfl : i = j := Option.some.inj hj
    show ∃ f, devTabEntry u.cfg i = some f ∧ u.dev.handle = .acquired ∧ u.dev.decFam = f ∧
      (hasSL u.cfg f = true → u.sl.state = .running ∧ u.sl.fam = f) ∧ (hasSL u.cfg f = false → u.sl.state = .stopped)
    rw [hu.cfg_eq]
    exact ⟨f, hf, hhandle, hdec, hrun, hsync⟩
  · show u.dm.wanted < nDev u.cfg
    rw [hu.dm_eq, hu.cfg_eq]
    exact h.wanted
  · show u.ol.frame < u.cfg.blockFrames
    rw [hu.ol_eq, hu.cfg_eq]
    exact h.frame.1

/-- R263, R305: after a failed load no device is current, and the Output Loop stays in SWAP or is in FAULT. -/
theorem BlockSound.loadFailed (h : BlockSound s) {f : Family} (hphase : s.ol.phase = .swap)
    (hhandle : s.dev.handle = .none) (hstop : s.sl.state = .stopped) (hu : Loaded f s false u) {m : Manager}
    {p : OutPhase} (x : ErrState) (hcur : m.current = none) (hwanted : m.wanted < nDev s.cfg)
    (hp : p = .swap ∨ p = .fault) : BlockSound (((u.setErr x).setDm m).setOl { u.ol with phase := p }) := by
  have hchan : u.ol.chan = false := by rw [hu.ol_eq]; exact h.chan.chan_eq_false (by simp [hphase])
  obtain ⟨hnone, hstate⟩ := hu.unclaimed hhandle
  refine ⟨hu.loopSound h.loop hstop, ⟨fun j hj => ?_, fun _ => ⟨hnone, ?_, hp⟩⟩, ?_,
    chanSound_of_chan_eq_false hchan, frameSound_of_idle ?_ ?_ ?_, hu.resourcesPaired h.resources⟩
  · exact nomatch hcur.symm.trans hj
  · show u.sl.state ≠ .running
    rw [hstate, hstop]
    exact LoopState.noConfusion
  · show m.wanted < nDev u.cfg
    rw [hu.cfg_eq]
    exact hwanted
  · show u.ol.frame < u.cfg.blockFrames
    rw [hu.ol_eq, hu.cfg_eq]
    exact h.frame.1
  · rintro rfl; simp at hp
  · rintro rfl; simp at hp

/-- R263: a failed load falls back to the default device, whose index is in the table since the wanted one is. -/
theorem BlockSound.afterLoad (h : BlockSound s) {i : Nat} {f : Family} {ok : Bool} (hphase : s.ol.phase = .swap)
    (hcur : s.dm.current = none) (hf : devTabEntry s.cfg i = some f)
    (hhandle : s.dev.handle = .none) (hstop : s.sl.state = .stopped) (hu : Loaded f s ok u) :
    BlockSound (afterLoad i ok u) := by
  have hdefault : Config.defaultIndex < nDev s.cfg := Nat.zero_lt_of_lt h.wanted
  have hucur : u.dm.current = none := by rw [hu.dm_eq]; exact hcur
  cases ok with
  | true => exact h.loadSucceeded hphase hf hstop hu
  | false =>
    unfold Machine.afterLoad
    rw [if_neg Bool.false_ne_true]
    dsimp only
    split
    · exact h.loadFailed hphase hhandle hstop hu (m := { u.dm with wanted := Config.defaultIndex }) (p := u.ol.phase)
        { u.err with swapFailed := true } hucur hdefault (.inl (by rw [hu.ol_eq]; exact hphase))
    · exact h.loadFailed hphase hhandle hstop hu (m := u.dm) (p := .fault)
        { u.err with swapFailed := true } hucur (by rw [hu.dm_eq]; exact h.wanted) (.inr rfl)

/-- R262: nothing is claimed any more, and a RUNNING loop has the stop signal. -/
theorem BlockSound.swapUnload (h : BlockSound s) (hphase : s.ol.phase = .swap) :
    BlockSound ((unloadDevice s).setDm { s.dm with current := none }) := by
  have hchan : s.ol.chan = false := h.chan.chan_eq_false (by simp [hphase])
  refine ⟨?_, ⟨fun i hi => (nomatch hi), fun _ => ?_⟩, by simpa [wantedInTable] using h.wanted,
    chanSound_of_chan_eq_false (by simpa using hchan),
    frameSound_of_idle (by simpa using h.frame.1) (by simp [hphase]) (by simp [hphase]), fun _ => by simp⟩
  · cases hstate : s.sl.state with
    | stopped => simpa [loopSound, hstate] using h.loop
    | running => simpa [loopSound, hstate] using h.loop
    | stopping => simpa [loopSound, hstate] using h.loop
  · refine ⟨by simp, ?_, .inl (by simpa using hphase)⟩
    cases hstate : s.sl.state <;> simp [hstate]

theorem BlockSound.olSwapchk (h : BlockSound s) (he : execOlSwapchk s = .next t) : BlockSound t := by
  obtain hw | ⟨hphase, ⟨i, hi, _, rfl⟩ | ⟨_, _, _, rfl⟩ | ⟨_, hnone, hr, rfl⟩⟩ := execOlSwapchk_next he
  · exact h.waited hw
  · have hchan : s.ol.chan = false := h.chan.chan_eq_false (by simp [hphase])
    exact ⟨h.loop, h.manager.congr rfl rfl rfl rfl rfl rfl fun hnone => (nomatch hi.symm.trans hnone), h.wanted,
      chanSound_of_chan_eq_false hchan, frameSound_of_idle h.frame.1 OutPhase.noConfusion OutPhase.noConfusion,
      h.resources⟩
  · exact (h.swapUnload hphase).setReport _
  · obtain ⟨f, hf, hhandle, hstop, hu⟩ := deviceLoad_loaded hr
    exact (h.afterLoad hphase hnone hf hhandle hstop hu).setReport _

/-! ### Filling and submitting a block -/

theorem BlockSound.olGetblk (h : BlockSound s) (he : execOlGetblk s = .next t) : BlockSound t := by
  obtain hw | ⟨hphase, _, rfl⟩ := execOlGetblk_next he
  · exact h.waited hw
  · obtain ⟨i, hi⟩ := h.manager.exists_current (by simp [hphase]) (by simp [hphase])
    exact ⟨h.loop, h.manager.congr rfl rfl rfl rfl rfl rfl fun hnone => (nomatch hi.symm.trans hnone), h.wanted,
      chanSound_of_chan_eq_false rfl,
      ⟨Nat.zero_lt_of_lt h.frame.1, fun _ k hk => absurd hk (Nat.not_lt_zero k), OutPhase.noConfusion⟩, h.resources⟩

theorem BlockSound.olSubmit (h : BlockSound s) (he : execOlSubmit s = .next t) : BlockSound t := by
  obtain hw | ⟨hphase, rfl⟩ := execOlSubmit_next he
  · exact h.waited hw
  · obtain ⟨i, hi⟩ := h.manager.exists_current (by simp [hphase]) (by simp [hphase])
    have hchan : s.ol.chan = false := h.chan.chan_eq_false (by simp [hphase])
    exact ⟨h.loop, h.manager.congr rfl rfl rfl rfl rfl rfl fun hnone => (nomatch hi.symm.trans hnone), h.wanted,
      chanSound_of_chan_eq_false hchan, frameSound_of_idle h.frame.1 OutPhase.noConfusion OutPhase.noConfusion,
      h.resources⟩

/-- A family whose `DEV.GEN` takes two pops (R245). -/
def StereoFed (c : Config) (f : Family) : Prop := hasSL c f = true ∧ (familyConfig c f).nch = .stereo

theorem genRight_chan {r : Gen × State} (h : genRight s = .done r) : r.2.ol.chan = false := by
  obtain ⟨_, _, _, rfl⟩ := genRight_done h
  rfl

/-- What a `DEV.GEN` does to `OL.chan`: a right pop clears it, a left pop alone sets it, and no other family writes
it (R241 to R245). -/
theorem deviceGen_chan {g : Gen} (h : deviceGen s = .done (g, u)) :
    u.ol.chan = false ∨ ∃ f, loadedFamily s = some f ∧
      ((¬ StereoFed s.cfg f ∧ u.ol.chan = s.ol.chan) ∨ (StereoFed s.cfg f ∧ g = .leftOnly)) := by
  unfold deviceGen at h
  split at h
  · cases h
  · rename_i f hf
    split at h
    · rename_i hsl
      split at h
      · rename_i hmono
        obtain ⟨_, _, _, hr⟩ := genQueueMono_done h
        cases hr
        exact .inr ⟨f, hf, .inl ⟨fun hst => (nomatch hmono.symm.trans hst.2), rfl⟩⟩
      · rename_i hstereo
        obtain ⟨_, _, _, ⟨_, hr⟩ | ⟨_, _, _, ⟨_, hr⟩ | ⟨_, hr⟩⟩⟩ := genQueueStereo_done h
        · exact .inl (genRight_chan hr)
        · cases hr
          exact .inr ⟨f, hf, .inr ⟨⟨hsl, hstereo⟩, rfl⟩⟩
        · exact .inl (genRight_chan hr)
    · rename_i hsl
      refine .inr ⟨f, hf, .inl ⟨fun hst => hsl hst.1, ?_⟩⟩
      split at h
      · obtain ⟨_, _, _, he, _⟩ := genSyncStereo_frame .stereoOnOne s
        rw [Act.done.inj h] at he
        rw [show u = _ from he]; rfl
      · obtain ⟨_, _, he, _⟩ := genSyncMono_frame f s
        rw [Act.done.inj h] at he
        rw [show u = _ from he]; rfl

/-- With a device current, it is the loaded one (R241). -/
theorem loadedFamily_of_current {i : Nat} (h : s.dm.current = some i) : loadedFamily s = devTabEntry s.cfg i := by
  simp [loadedFamily, h]

/-- R42: a right sample is owed only while a stereo queue family is loaded. -/
theorem chanSound.stereoFed (h : chanSound s) (hchan : s.ol.chan = true) :
    ∃ f, loadedFamily s = some f ∧ StereoFed s.cfg f := by
  obtain ⟨_, i, f, hi, hf, hst⟩ := h hchan
  exact ⟨f, (loadedFamily_of_current hi).trans hf, hst⟩

/-- A generated pair owes no right sample. -/
theorem chan_of_pair (h : chanSound s) {l r : Sample} (hg : deviceGen s = .done (.pair l r, u)) : u.ol.chan = false := by
  obtain hchan | ⟨f, hf, ⟨hmono, he⟩ | ⟨_, hleft⟩⟩ := deviceGen_chan hg
  · exact hchan
  · rw [he, Bool.eq_false_iff]
    intro hchan
    obtain ⟨f', hf', hst⟩ := h.stereoFed hchan
    obtain rfl : f = f' := Option.some.inj (hf.symm.trans hf')
    exact hmono hst
  · cases hleft

/-- R245: a left sample without its right one is a stereo queue family's. -/
theorem chanSound_of_leftOnly (h : chanSound s) (hphase : s.ol.phase = .fill) {i : Nat} (hi : s.dm.current = some i)
    (hg : deviceGen s = .done (.leftOnly, u)) : chanSound u := by
  intro hchan
  have hgen := deviceGen_generated hg
  have hstereo : ∃ f, loadedFamily s = some f ∧ StereoFed s.cfg f := by
    obtain hfalse | ⟨f, hf, ⟨_, he⟩ | ⟨hst, _⟩⟩ := deviceGen_chan hg
    · exact nomatch hfalse.symm.trans hchan
    · exact h.stereoFed (he.symm.trans hchan)
    · exact ⟨f, hf, hst⟩
  obtain ⟨f, hf, hsl, hnch⟩ := hstereo
  rw [loadedFamily_of_current hi] at hf
  have hcfg : u.cfg = s.cfg := deviceGen_cfg hg
  rw [hcfg]
  exact ⟨hgen.phase.trans hphase, i, f, (congrArg Manager.current hgen.dm).trans hi, hf, hsl, hnch⟩

theorem Generated.loopSound (h : Generated s u) (hs : loopSound s) : loopSound u := by
  unfold Machine.loopSound
  rw [h.sl, h.cap]
  exact hs

theorem Generated.managerSound (h : Generated s u) (hcfg : u.cfg = s.cfg) (hs : managerSound s) : managerSound u :=
  hs.congr hcfg (by rw [h.dm]) h.handle h.decFam (by rw [h.sl]) (by rw [h.sl]) fun _ => h.phase

theorem Generated.wantedInTable (h : Generated s u) (hcfg : u.cfg = s.cfg) (hs : wantedInTable s) :
    wantedInTable u := by
  unfold Machine.wantedInTable
  rw [h.dm, hcfg]
  exact hs

theorem Generated.frameSound (h : Generated s u) (hcfg : u.cfg = s.cfg) (hs : frameSound s) : frameSound u := by
  unfold Machine.frameSound
  rw [h.frame, h.phase, h.blk, hcfg]
  exact hs

/-- The two writes of a frame extend the written part of the block by that frame (R264). -/
theorem Memory.isSome_write_frame {m : Memory} {n : Nat} (l r : Sample)
    (h : ∀ k, k < 2 * n → (m.read? k).isSome = true) (k : Nat) (hk : k < 2 * (n + 1)) :
    (((m.write (2 * n) l).write (2 * n + 1) r).read? k).isSome = true := by
  rw [Memory.read?_write, Memory.read?_write]
  split
  · rfl
  · split
    · rfl
    · exact h k (by omega)

/-- R264: the frames generated so far are written, one more than before, and all of them when SUBMIT is reached. -/
theorem frameSound.writeFrame (h : frameSound s) (hphase : s.ol.phase = .fill) {o : OutLoop} {l r : Sample}
    (hblk : o.blk = (s.ol.blk.write (2 * s.ol.frame) l).write (2 * s.ol.frame + 1) r)
    (hnext : (s.ol.frame + 1 = s.cfg.blockFrames ∧ o.phase = .submit ∧ o.frame = s.ol.frame) ∨
      (s.ol.frame + 1 ≠ s.cfg.blockFrames ∧ o.phase = s.ol.phase ∧ o.frame = s.ol.frame + 1)) :
    frameSound (s.setOl o) := by
  obtain ⟨hlt, hfill, _⟩ := h
  have hwritten : ∀ k, k < 2 * (s.ol.frame + 1) → (o.blk.read? k).isSome = true := by
    rw [hblk]
    exact Memory.isSome_write_frame l r (hfill hphase)
  obtain ⟨hlast, hp, hframe⟩ | ⟨hmore, hp, hframe⟩ := hnext
  · refine ⟨by simpa [hframe] using hlt, fun hp' => ?_, fun _ => ?_⟩
    · exact nomatch hp.symm.trans hp'
    · simpa [hlast] using hwritten
  · refine ⟨?_, fun _ => ?_, fun hp' => ?_⟩
    · show o.frame < s.cfg.blockFrames
      omega
    · simpa [hframe] using hwritten
    · exact nomatch (hp.trans hphase).symm.trans hp'

theorem BlockSound.olFrame (h : BlockSound s) (he : execOlFrame s = .next t) : BlockSound t := by
  obtain hw | ⟨hphase, _, g, u, hg, hcases⟩ := execOlFrame_next he
  · exact h.waited hw
  obtain ⟨i, hi⟩ := h.manager.exists_current (by simp [hphase]) (by simp [hphase])
  have hgen : Generated s u := deviceGen_generated hg
  have hcfg : u.cfg = s.cfg := deviceGen_cfg hg
  have hloop := hgen.loopSound h.loop
  have hmanager := hgen.managerSound hcfg h.manager
  have hwanted := hgen.wantedInTable hcfg h.wanted
  have hframe := hgen.frameSound hcfg h.frame
  have hresources := hgen.resourcesPaired h.resources
  obtain ⟨l, r, rfl, rfl⟩ | ⟨rfl, rfl⟩ := hcases
  · obtain ⟨o, ho, hblk, hchan, hnext⟩ := writeFrame_eq l r u
    have hcur : u.dm.current = some i := (congrArg Manager.current hgen.dm).trans hi
    rw [ho]
    exact ⟨hloop, hmanager.congr rfl rfl rfl rfl rfl rfl fun hnone => (nomatch hcur.symm.trans hnone), hwanted,
      chanSound_of_chan_eq_false (hchan.trans (chan_of_pair h.chan hg)),
      hframe.writeFrame (hgen.phase.trans hphase) hblk hnext, hresources⟩
  · exact ⟨hloop, hmanager, hwanted, (chanSound_of_leftOnly h.chan hphase hi hg :), hframe, hresources⟩

/-! ### The external agents -/

theorem BlockSound.hostStrobe (h : BlockSound s) {w : BusWord} (he : execHostStrobe w s = .next t) : BlockSound t := by
  obtain hw | ⟨_, rfl⟩ := execHostStrobe_next he
  · exact h.waited hw
  · exact h.of_loop h.loop rfl rfl rfl rfl rfl rfl

theorem BlockSound.sinkReady (h : BlockSound s) (he : execSinkReady s = .next t) : BlockSound t := by
  obtain hw | rfl := execSinkReady_next he
  · exact h.waited hw
  · exact h.of_loop h.loop rfl rfl rfl rfl rfl rfl

/-- R283: a request outside the table is ignored, so the wanted index stays inside. -/
theorem BlockSound.hsRequest (h : BlockSound s) {k : BitVec 3} (he : execHsRequest k s = .next t) : BlockSound t := by
  obtain hw | ⟨hk, rfl⟩ | ⟨_, rfl⟩ := execHsRequest_next he
  · exact h.waited hw
  · exact ⟨h.loop, h.manager, hk, h.chan, h.frame, h.resources⟩
  · exact h.setReport _

/-- Settles O59, one agent step after another. -/
theorem blockSoundKept : Obligations.BlockSoundKept := by
  intro i s t hagent h he
  cases i with
  | slHead => exact h.slHead he
  | slDrain => exact h.slDrain he
  | slSample => exact h.slSample he
  | slStall => exact h.slStall he
  | slPush => exact h.slPush he
  | slExit => exact h.slExit he
  | olSwapchk => exact h.olSwapchk he
  | olGetblk => exact h.olGetblk he
  | olFrame => exact h.olFrame he
  | olSubmit => exact h.olSubmit he
  | hostStrobe w => exact h.hostStrobe he
  | sinkReady => exact h.sinkReady he
  | hsRequest k => exact h.hsRequest he
  | _ => cases hagent

end Sys2Proof.Machine
end

section
/-!
SUPPORT. The decoder against the encoder (30_encoding.md R101, R103, R120): the decoder reads a legal `op` as its
instruction, with the operand fields taken from `arg` (`decode_of_opcode`), and answers no other instruction
(`opField_of_decode`). The round trips and the legality of a word follow from these two.
-/

namespace Sys2Proof

/-! ### The operand fields of `arg` -/

/-- An operand in the low bits of `arg` is read back. -/
theorem lowBits_setWidth {n : Nat} (hn : n ≤ 32) (v : BitVec n) : (v.setWidth 32).extractLsb' 0 n = v := by
  rw [← BitVec.setWidth_eq_extractLsb' hn, BitVec.setWidth_setWidth_of_le v hn, BitVec.setWidth_eq]

/-- The low bits of `arg`, written back, are `arg` without the bits above them. -/
theorem setWidth_lowBits (n : Nat) (a : BitVec 32) :
    (a.extractLsb' 0 n).setWidth 32 = a &&& (BitVec.allOnes n).setWidth 32 := by
  apply BitVec.eq_of_getLsbD_eq
  intro j hj
  by_cases h : j < n <;> simp [h, hj]

/-- The address of `CM.WRITE a, d` is read back. -/
theorem chipAddress_chipOperand (a : BitVec 16) (d : Byte) : ((0#8 ++ a) ++ d : BitVec 32).extractLsb' 8 16 = a := by
  apply BitVec.eq_of_getLsbD_eq
  intro j hj
  rw [BitVec.getLsbD_extractLsb', chipOperand_getLsbD]
  simp [hj]

/-- The datum of `CM.WRITE a, d` is read back. -/
theorem chipDatum_chipOperand (a : BitVec 16) (d : Byte) : ((0#8 ++ a) ++ d : BitVec 32).extractLsb' 0 8 = d := by
  apply BitVec.eq_of_getLsbD_eq
  intro j hj
  rw [BitVec.getLsbD_extractLsb', chipOperand_getLsbD]
  simp [hj]

/-- The two fields of `CM.WRITE`, written back, are `arg` without `arg[31:24]`. -/
theorem chipOperand_fields (a : BitVec 32) :
    ((0#8 ++ a.extractLsb' 8 16) ++ a.extractLsb' 0 8 : BitVec 32) = a &&& (BitVec.allOnes 24).setWidth 32 := by
  apply BitVec.eq_of_getLsbD_eq
  intro j hj
  rw [chipOperand_getLsbD, BitVec.getLsbD_extractLsb', BitVec.getLsbD_extractLsb', BitVec.getLsbD_and,
    BitVec.getLsbD_setWidth, BitVec.getLsbD_allOnes]
  by_cases hd : j < 8
  · simp [hd, hj, show j < 24 by omega]
  · have hfield : j - 8 < 16 ↔ j < 24 := by omega
    simp [hd, hj, show 8 + (j - 8) = j by omega, hfield, Bool.and_comm]

/-- The instruction with its operand fields read from `arg` (R103). -/
def Instr.withArg (a : BitVec 32) : Instr → Instr
  | .qInit _ => .qInit a
  | .qPush _ => .qPush (a.extractLsb' 0 16)
  | .decCovox _ => .decCovox a
  | .decStereo1 _ => .decStereo1 a
  | .decDss _ => .decDss a
  | .decFtl _ => .decFtl a
  | .decOpl2 _ => .decOpl2 a
  | .decTandy _ => .decTandy a
  | .decCms _ => .decCms a
  | .cmCreate _ => .cmCreate (a.extractLsb' 0 3)
  | .cmWrite _ _ => .cmWrite (a.extractLsb' 8 16) (a.extractLsb' 0 8)
  | .devLoad _ => .devLoad (a.extractLsb' 0 3)
  | .hostStrobe _ => .hostStrobe a
  | .hsRequest _ => .hsRequest (a.extractLsb' 0 3)
  | i => i

/-- Every operand is read back from its own `arg`. -/
theorem withArg_argument (i : Instr) : i.withArg (argument i) = i := by
  cases i with
  | qPush v => exact congrArg Instr.qPush (lowBits_setWidth (by decide) v)
  | cmCreate k => exact congrArg Instr.cmCreate (lowBits_setWidth (by decide) k)
  | devLoad k => exact congrArg Instr.devLoad (lowBits_setWidth (by decide) k)
  | hsRequest k => exact congrArg Instr.hsRequest (lowBits_setWidth (by decide) k)
  | cmWrite a d => exact congrArg₂ Instr.cmWrite (chipAddress_chipOperand a d) (chipDatum_chipOperand a d)
  | _ => rfl

/-- The operand read from `a` is `a` without the bits that the instruction does not use. -/
theorem argument_withArg (i : Instr) (a : BitVec 32) : argument (i.withArg a) = a &&& usedArgBits i := by
  cases i with
  | qPush _ => exact setWidth_lowBits 16 a
  | cmCreate _ | devLoad _ | hsRequest _ => exact setWidth_lowBits 3 a
  | cmWrite _ _ => exact chipOperand_fields a
  | qInit _ | decCovox _ | decStereo1 _ | decDss _ | decFtl _ | decOpl2 _ | decTandy _ | decCms _ | hostStrobe _ =>
    exact BitVec.and_allOnes.symm
  | _ => exact BitVec.and_zero.symm

/-! ### The decoder by its operation code -/

/-- A word with the operation code of `i` decodes to `i`, its operand read from `arg`. -/
theorem decode_of_opcode {w : StepWord} {i : Instr} (h : opField w = opcode i) :
    decode w = .ok (i.withArg (argField w)) := by
  unfold decode
  rw [h]
  cases i <;> rfl

/-- A word decodes only to an instruction with its operation code. -/
theorem opField_of_decode {w : StepWord} {i : Instr} (h : decode w = .ok i) : opField w = opcode i := by
  unfold decode at h
  split at h <;> cases h <;> exact BitVec.eq_of_toNat_eq ‹_›

/-- Settles O1: the `op` of the encoding selects the instruction, and its `arg` gives back every operand. -/
theorem decodeEncodeAgree : Obligations.DecodeEncodeAgree := by
  intro i
  have hop : opField (encode i) = opcode i := opField_append _ _
  have harg : argField (encode i) = argument i := argField_append _ _
  rw [decode_of_opcode hop, harg, withArg_argument]

/-- The operand of a decoded word is its `arg` without the unused bits. -/
theorem argument_of_decode {w : StepWord} {i : Instr} (h : decode w = .ok i) :
    argument i = argField w &&& usedArgBits i := by
  have hread : i = i.withArg (argField w) := Except.ok.inj (h.symm.trans (decode_of_opcode (opField_of_decode h)))
  calc argument i = argument (i.withArg (argField w)) := congrArg argument hread
    _ = argField w &&& usedArgBits i := argument_withArg i _

/-- Settles O2, field by field: `op` is kept whole and `arg` is masked. -/
theorem encodeRestoresDecodedWord : Obligations.EncodeRestoresDecodedWord := by
  intro w i h
  calc encode i = (opField w &&& 0xFF#8) ++ (argField w &&& usedArgBits i) := by
        rw [encode, ← opField_of_decode h, argument_of_decode h]
        exact congrArg (· ++ _) BitVec.and_allOnes.symm
    _ = (opField w ++ argField w) &&& (0xFF#8 ++ usedArgBits i) := BitVec.and_append.symm
    _ = w &&& (0xFF#8 ++ usedArgBits i) := by rw [← stepWord_eq_fields]

/-- Settles O4, each word by running the decoder on it. -/
theorem sampleWordsDecode : Obligations.SampleWordsDecode := by
  unfold Obligations.SampleWordsDecode
  decide

/-! ### The legal operation codes -/

/-- One instruction of each row of the map of R103, in its order. -/
def instrOfEachRow : List Instr :=
  [.qInit 0, .qPush 0, .qPop, .qIsFull, .qIsEmpty, .decCovox 0, .decStereo1 0, .decDss 0, .decFtl 0, .decOpl2 0,
    .decTandy 0, .decCms 0, .cmCreate 0, .cmWrite 0 0, .cmSample, .cmDestroy, .slHead, .slDrain, .slSample, .slStall,
    .slPush, .slExit, .devLoad 0, .devUnload, .devGen, .olSwapchk, .olGetblk, .olFrame, .olSubmit, .hostStrobe 0,
    .sinkReady, .hsRequest 0]

theorem opcode_mem_rows (i : Instr) : opcode i ∈ instrOfEachRow.map opcode := by
  cases i <;> simp [instrOfEachRow, opcode]

/-- R120: a word does not decode exactly when its `op` is in no row. -/
theorem decode_error_iff {w : StepWord} : decode w = .error .illegalOp ↔ opField w ∉ instrOfEachRow.map opcode := by
  constructor
  · intro herr hmem
    obtain ⟨i, _, hi⟩ := List.mem_map.1 hmem
    cases herr.symm.trans (decode_of_opcode hi.symm)
  · intro hno
    cases hw : decode w with
    | ok i => exact absurd (opField_of_decode hw ▸ opcode_mem_rows i) hno
    | error e => cases e; rfl

end Sys2Proof
end

section
/-!
SUPPORT. A step by the decoding of its word (30_encoding.md R100, R120): a word that decodes is run at the state after
the fetch, and no instruction is refused as `IllegalOp`, so `step` refuses so exactly a word that does not decode.
-/

namespace Sys2Proof.Machine

/-! ### The fetch -/

theorem nextWord_cons {s : State} {x : Slot} {rest : List Slot} (h : s.env.trace = x :: rest) :
    nextWord s = x.word := by
  unfold nextWord
  rw [h]

theorem nextWord_nil {s : State} (h : s.env.trace = []) : nextWord s = Config.scheduleWord s.env.turn := by
  unfold nextWord
  rw [h]

theorem afterFetch_cons {s : State} {x : Slot} {rest : List Slot} (h : s.env.trace = x :: rest) :
    afterFetch s = s.setEnv { s.env with trace := rest, issuer := x.issuer } := by
  unfold afterFetch
  rw [h]

theorem afterFetch_nil {s : State} (h : s.env.trace = []) :
    afterFetch s = s.setEnv { s.env with turn := s.env.turn + 1, issuer := Config.scheduleIssuer s.env.turn } := by
  unfold afterFetch
  rw [h]

theorem step_of_decode {s : State} {i : Instr} (h : decode (nextWord s) = .ok i) :
    step s = exec i (afterFetch s) := by
  unfold step
  rw [h]

theorem step_of_illegal {s : State} (h : decode (nextWord s) = .error .illegalOp) : step s = .refused .illegalOp := by
  unfold step
  rw [h]

/-- Settles O5: the decoded word, and the two sources of the next word. -/
theorem stepRunsDecodedInstr : Obligations.StepRunsDecodedInstr := fun _ =>
  ⟨fun _ hdecode => step_of_decode hdecode,
    fun _ _ hplaced => ⟨nextWord_cons hplaced, afterFetch_cons hplaced⟩,
    fun hfree => ⟨nextWord_nil hfree, afterFetch_nil hfree⟩⟩

/-! ### What a legal word is refused for -/

/-- The refusals of a word whose `op` is in the map: all but `step`'s own and that of an arm without a meaning. -/
def Refusal.ofLegalWord : Refusal → Bool
  | .badIndex | .queueUninit | .notOwner | .precondition => true
  | .illegalOp | .notModelled _ => false

/-- Where a body ends in a refusal, it is one of a legal word. -/
def Act.legal {α : Type} : Act α → Bool
  | .refused r => r.ofLegalWord
  | .done _ | .held _ | .notEnabled | .stuck _ => true

/-- A sequence is legal if both parts are. -/
theorem Act.bind_legal {α β : Type} {x : Act α} {k : α → Act β} (hx : x.legal = true)
    (hk : ∀ a, (k a).legal = true) : (x.bind k).legal = true := by
  cases x with
  | done a => exact hk a
  | refused r => exact hx
  | held _ | notEnabled | stuck _ => rfl

/-- A choice of two bodies is legal if both are. -/
theorem Act.ite_legal {α : Type} {p : Prop} [Decidable p] {x y : Act α} (hx : x.legal = true) (hy : y.legal = true) :
    (if p then x else y).legal = true := by
  split
  · exact hx
  · exact hy

theorem Queue.push_legal (v : Sample) (q : Queue) : (Queue.push v q).legal = true := by
  unfold Queue.push
  split
  · rfl
  · exact Act.ite_legal rfl rfl

theorem Queue.pop_legal (q : Queue) : (Queue.pop q).legal = true := by
  unfold Queue.pop
  split
  · rfl
  · exact Act.ite_legal rfl rfl

theorem Queue.query_legal (q : Queue) (b : Bool) : (Queue.query q b).legal = true := by
  unfold Queue.query
  split <;> rfl

theorem chipWrite_legal (a : BitVec 16) (d : Byte) (s : State) : (chipWrite a d s).legal = true := by
  unfold chipWrite
  split <;> rfl

theorem chipSample_legal (s : State) : (chipSample s).legal = true := by
  unfold chipSample
  split <;> rfl

theorem chipDestroy_legal (s : State) : (chipDestroy s).legal = true := by
  unfold chipDestroy
  split <;> rfl

/-- Each family's write is a latch, which always runs, or a `CM.WRITE`; Tandy has no latch (R210). -/
theorem applyWrite_legal (d : BusWrite) (s : State) : (applyWrite d s).legal = true := by
  unfold applyWrite
  split
  case h_2 => exact chipWrite_legal _ _ _
  all_goals
    split
    · rfl
    · exact chipWrite_legal _ _ _

theorem drainWord_legal {s : State} {a : Act State} (h : drainWord s = some a) : a.legal = true := by
  obtain ⟨_, _, _, _, rfl⟩ := drainWord_some h
  exact applyWrite_legal _ _

theorem loadFamily_legal (f : Family) (s : State) : (loadFamily f s).legal = true :=
  Act.ite_legal (Act.ite_legal rfl rfl) rfl

theorem deviceLoad_legal (i : Nat) (s : State) : (deviceLoad i s).legal = true := by
  unfold deviceLoad
  split
  · rfl
  · exact Act.ite_legal rfl (Act.ite_legal rfl (loadFamily_legal _ s))

theorem deviceUnload_legal (s : State) : (deviceUnload s).legal = true :=
  Act.ite_legal rfl rfl

theorem popOrHold_legal (s : State) : (popOrHold s).legal = true := by
  refine Act.ite_legal rfl (Act.bind_legal (Queue.pop_legal _) fun r => ?_)
  split <;> rfl

theorem genRight_legal (s : State) : (genRight s).legal = true :=
  Act.bind_legal (popOrHold_legal s) fun _ => rfl

theorem genQueueMono_legal (s : State) : (genQueueMono s).legal = true :=
  Act.bind_legal (popOrHold_legal s) fun _ => rfl

theorem genQueueStereo_legal (s : State) : (genQueueStereo s).legal = true :=
  Act.ite_legal (genRight_legal s) (Act.bind_legal (popOrHold_legal s) fun _ => Act.ite_legal rfl (genRight_legal _))

theorem deviceGen_legal (s : State) : (deviceGen s).legal = true := by
  unfold deviceGen
  split
  · rfl
  · split
    · split
      · exact genQueueMono_legal s
      · exact genQueueStereo_legal s
    · split <;> rfl

theorem unlessFault_legal {s : State} {a : Act (Report × State)} (h : a.legal = true) :
    (unlessFault s a).legal = true :=
  Act.ite_legal rfl h

theorem perform_refused_legal {i : Instr} {s : State} {a : Act (Report × State)} {r : Refusal} (ha : a.legal = true)
    (h : perform i s a = .refused r) : r.ofLegalWord = true := by
  obtain ⟨_, rfl⟩ | ⟨_, rfl⟩ := perform_refused h
  · rfl
  · exact ha

/-- An instruction is refused only for its operand, its precondition, its queue or its issuer: word by word, the body
is legal. -/
theorem exec_refused_legal {i : Instr} {s : State} {r : Refusal} (h : exec i s = .refused r) :
    r.ofLegalWord = true := by
  cases i with
  | qInit cap => exact perform_refused_legal (Act.ite_legal rfl rfl) h
  | qPush v => exact perform_refused_legal (Act.bind_legal (Queue.push_legal v _) fun _ => rfl) h
  | qPop =>
    refine perform_refused_legal (Act.bind_legal (Queue.pop_legal _) fun r => ?_) h
    split <;> rfl
  | qIsFull | qIsEmpty => exact perform_refused_legal (Act.bind_legal (Queue.query_legal _ _) fun _ => rfl) h
  | decCovox _ | decStereo1 _ | decDss _ | decFtl _ | decOpl2 _ | decTandy _ | decCms _ =>
    exact perform_refused_legal (a := answerVal _ s) rfl h
  | sinkReady => exact perform_refused_legal (a := ran _) rfl h
  | cmCreate k =>
    refine perform_refused_legal ?_ h
    split
    · rfl
    · exact Act.ite_legal rfl (Act.ite_legal rfl rfl)
  | cmWrite a d => exact perform_refused_legal (Act.bind_legal (chipWrite_legal a d s) fun _ => rfl) h
  | cmSample => exact perform_refused_legal (Act.bind_legal (chipSample_legal s) fun _ => rfl) h
  | cmDestroy => exact perform_refused_legal (Act.bind_legal (chipDestroy_legal s) fun _ => rfl) h
  | slHead | slExit | hostStrobe _ | hsRequest _ => exact perform_refused_legal (Act.ite_legal rfl rfl) h
  | slDrain =>
    refine perform_refused_legal (Act.ite_legal ?_ rfl) h
    split
    · exact Act.bind_legal (drainWord_legal ‹_›) fun _ => rfl
    · rfl
  | slSample =>
    exact perform_refused_legal (Act.ite_legal (Act.bind_legal (chipSample_legal s) fun _ => rfl) rfl) h
  | slStall =>
    refine perform_refused_legal (Act.ite_legal (Act.ite_legal rfl (Act.ite_legal rfl ?_)) rfl) h
    split
    · exact Act.bind_legal (drainWord_legal ‹_›) fun _ => rfl
    · rfl
  | slPush =>
    exact perform_refused_legal (Act.ite_legal (Act.bind_legal (Queue.push_legal _ _) fun _ => rfl) rfl) h
  | devLoad k => exact perform_refused_legal (Act.bind_legal (deviceLoad_legal _ s) fun _ => rfl) h
  | devUnload => exact perform_refused_legal (Act.bind_legal (deviceUnload_legal s) fun _ => rfl) h
  | devGen =>
    refine perform_refused_legal (Act.bind_legal (deviceGen_legal s) fun r => ?_) h
    split <;> rfl
  | olSwapchk =>
    refine perform_refused_legal (unlessFault_legal (Act.ite_legal ?_ rfl)) h
    split
    · exact Act.ite_legal rfl rfl
    · exact Act.bind_legal (deviceLoad_legal _ s) fun _ => rfl
  | olGetblk => exact perform_refused_legal (unlessFault_legal (Act.ite_legal (Act.ite_legal rfl rfl) rfl)) h
  | olFrame =>
    refine perform_refused_legal (unlessFault_legal (Act.ite_legal ?_ rfl)) h
    refine Act.bind_legal (deviceGen_legal s) fun r => ?_
    split <;> rfl
  | olSubmit => exact perform_refused_legal (unlessFault_legal (Act.ite_legal rfl rfl)) h

/-- R120: a step is refused as `IllegalOp` exactly where the next word does not decode. -/
theorem step_illegalOp_iff {s : State} :
    step s = .refused .illegalOp ↔ decode (nextWord s) = .error .illegalOp := by
  refine ⟨fun hstep => ?_, step_of_illegal⟩
  cases hw : decode (nextWord s) with
  | ok i => exact nomatch exec_refused_legal ((step_of_decode hw).symm.trans hstep)
  | error e => cases e; rfl

/-- Settles O3: the codes of the statement are those of the rows, and a word with none of them is one that does not
decode, so one that the step refuses. -/
theorem illegalOpRefused : Obligations.IllegalOpRefused := fun _ =>
  decode_error_iff.symm.trans step_illegalOp_iff.symm

end Sys2Proof.Machine
end

section
/-!
SUPPORT. The queue operations, answer by answer (40_queue.md R131 to R135): the equations of `Queue.push`, `Queue.pop`
and `Queue.query` on an uninitialised, a full, an empty and any other queue, and from them what the five step words
answer to an issuer that owns them.
-/

namespace Sys2Proof.Machine

open Sys2Proof.Claims

/-! ### A step word whose body is an operation and its answer -/

section

variable {α : Type} {i : Instr} {s : State} {x : Act α} {k : α → Act (Report × State)}

theorem perform_bind_done {a : α} {r : Report} {u : State} (hm : owned i s) (hx : x = .done a)
    (hk : k a = .done (r, u)) : perform i s (x.bind k) = .next (u.setReport r) := by
  rw [hx, Act.bind_done_eq, hk]
  exact perform_done hm

theorem perform_bind_refused {r : Refusal} (hm : owned i s) (hx : x = .refused r) :
    perform i s (x.bind k) = .refused r := by
  rw [hx, Act.bind_refused_eq]
  exact perform_refuse hm

end

/-! ### The operations on a queue -/

section

variable {q : Queue} {c : Nat} {v : Sample} {b : Bool}

theorem Queue.push_uninit (h : q.cap = none) : Queue.push v q = .refused .queueUninit := by
  unfold Queue.push
  rw [h]

theorem Queue.push_full (h : q.cap = some c) (hf : q.full = true) : Queue.push v q = .done (false, q) := by
  unfold Queue.push
  rw [h]
  exact if_pos hf

theorem Queue.push_room (h : q.cap = some c) (hf : q.full = false) :
    Queue.push v q = .done (true, q.pushed c v) := by
  obtain ⟨r, hr⟩ := Queue.push_some (v := v) h
  obtain ⟨c', hc', ⟨hf', _⟩ | ⟨_, rfl⟩⟩ := Queue.push_done hr
  · exact absurd hf' (hf ▸ Bool.false_ne_true)
  · obtain rfl : c = c' := Option.some.inj (h.symm.trans hc')
    exact hr

theorem Queue.pop_uninit (h : q.cap = none) : Queue.pop q = .refused .queueUninit := by
  unfold Queue.pop
  rw [h]

theorem Queue.pop_empty (h : q.cap = some c) (he : q.isEmpty = true) : Queue.pop q = .done (none, q) := by
  unfold Queue.pop
  rw [h]
  exact if_pos he

theorem Queue.pop_nonempty (h : q.cap = some c) (he : q.isEmpty = false) :
    Queue.pop q = .done (some (q.buf.read .qbuf q.tail), q.popped c) := by
  rw [Queue.pop, Queue.popped, h]
  exact if_neg (he ▸ Bool.false_ne_true)

theorem Queue.query_uninit (h : q.cap = none) : Queue.query q b = .refused .queueUninit := by
  unfold Queue.query
  rw [h]

theorem Queue.query_init (h : q.cap = some c) : Queue.query q b = .done b := by
  unfold Queue.query
  rw [h]

/-- `is_empty` is the condition of R24. -/
theorem Queue.isEmpty_eq_decide (q : Queue) : q.isEmpty = decide (q.head = q.tail ∧ q.full = false) := by
  simp [Queue.isEmpty]

end

/-! ### The step words `Q.PUSH` and `Q.POP` -/

section

variable {s : State} {c : Nat} {v : Sample}

theorem exec_qPush_full (hm : owned (.qPush v) s) (hc : s.sq.cap = some c) (hf : s.sq.full = true) :
    exec (.qPush v) s = .next (s.setReport (.returned false none)) :=
  perform_bind_done hm (Queue.push_full hc hf) rfl

theorem exec_qPush_room (hm : owned (.qPush v) s) (hc : s.sq.cap = some c) (hf : s.sq.full = false) :
    exec (.qPush v) s = .next ((s.setSq (s.sq.pushed c v)).setReport (.returned true none)) :=
  perform_bind_done hm (Queue.push_room hc hf) rfl

theorem exec_qPop_empty (hm : owned .qPop s) (hc : s.sq.cap = some c) (he : s.sq.isEmpty = true) :
    exec .qPop s = .next (s.setReport (.returned false none)) :=
  perform_bind_done hm (Queue.pop_empty hc he) rfl

theorem exec_qPop_nonempty (hm : owned .qPop s) (hc : s.sq.cap = some c) (he : s.sq.isEmpty = false) :
    exec .qPop s = .next ((s.setSq (s.sq.popped c)).setReport
      (.returned true (some (packOne (s.sq.buf.read .qbuf s.sq.tail))))) :=
  perform_bind_done hm (Queue.pop_nonempty hc he) rfl

end

/-- Settles O7: an uninitialised, a full and any other queue; the memory is the buffer after one write at `head`. -/
theorem qPushStoresAtHead : Obligations.QPushStoresAtHead := by
  intro v s hm
  refine ⟨fun hc => perform_bind_refused hm (Queue.push_uninit hc), fun c hc =>
    ⟨fun hf => exec_qPush_full hm hc hf, fun hf => ?_⟩⟩
  refine ⟨s.sq.buf.write s.sq.head v, fun k => Memory.read?_write _ _ k v, ?_⟩
  rw [exec_qPush_room hm hc hf, ← hc]
  rfl

/-- Settles O8: an uninitialised, an empty and any other queue; the value is the read of the entry at `tail`. -/
theorem qPopReturnsOldest : Obligations.QPopReturnsOldest := by
  intro s hm
  refine ⟨fun hc => perform_bind_refused hm (Queue.pop_uninit hc), fun c hc => ⟨fun he => ?_, fun hne => ?_⟩⟩
  · exact exec_qPop_empty hm hc ((Queue.isEmpty_eq_decide _).trans (decide_eq_true he))
  · have hnonempty : s.sq.isEmpty = false := (Queue.isEmpty_eq_decide _).trans (decide_eq_false hne)
    exact ⟨s.sq.buf.read .qbuf s.sq.tail, Memory.read_of_read? .qbuf _ _, exec_qPop_nonempty hm hc hnonempty⟩

/-- Settles O9: a query of an initialised queue answers, of any other is refused. -/
theorem queuePredicatesAnswer : Obligations.QueuePredicatesAnswer := by
  intro s
  refine ⟨fun hc => ⟨fun hm => ?_, fun hm => ?_⟩, fun c hc => ⟨fun hm => ?_, fun hm => ?_⟩⟩
  · exact perform_bind_refused hm (Queue.query_uninit hc)
  · exact perform_bind_refused hm (Queue.query_uninit hc)
  · exact perform_bind_done hm (Queue.query_init hc) rfl
  · rw [← Queue.isEmpty_eq_decide]
    exact perform_bind_done hm (Queue.query_init hc) rfl

/-! ### `Q.INIT` -/

/-- The test of R131 on the word is the statement's on its value: a power of two up to `C_MAX`. -/
theorem capAdmitted_iff {m : Nat} {cap : BitVec 32} : capAdmitted m cap = true ↔ goodCapacity m cap := by
  have hpower : (∃ k, cap.toNat = 2 ^ k) ↔ cap.toNat ≠ 0 ∧ cap.toNat &&& (cap.toNat - 1) = 0 :=
    Nat.ne_zero_and_sub_one_eq_zero_iff_isPowerOfTwo.symm
  rw [goodCapacity, hpower]
  constructor
  · intro h
    obtain ⟨hne, hpow, hle⟩ := goodCap_of_capAdmitted h
    exact ⟨⟨hne, hpow⟩, hle⟩
  · rintro ⟨⟨hne, hpow⟩, hle⟩
    have hsub : (cap - 1#32).toNat = cap.toNat - 1 := by
      have := cap.isLt
      bv_omega
    have hand : cap &&& (cap - 1#32) = 0#32 := by
      apply BitVec.eq_of_toNat_eq
      rw [BitVec.toNat_and, hsub, hpow]
      rfl
    have hcap : cap ≠ 0#32 := fun h0 => hne (congrArg BitVec.toNat h0)
    simp [capAdmitted, hcap, hand, hle]

/-- R350, R44: the Output Loop is the consumer while its current device is queue-fed. -/
theorem consumerActive_iff (s : State) : consumerActive s = true ↔ consumed s := by
  unfold consumerActive
  split
  · rename_i hi
    simp [consumed, hi]
  · rename_i i hi
    split
    · rename_i hf
      have hrow : s.cfg.devTab[i]? = none := hf
      simp [consumed, hi, hrow]
    · rename_i f hf
      have hrow : s.cfg.devTab[i]? = some f := hf
      simp [consumed, hi, hrow]

theorem producerActive_iff (s : State) : producerActive s = true ↔ s.sl.state ≠ .stopped := decide_eq_true_iff

theorem exec_qInit_inUse {cap : BitVec 32} {s : State} (hm : owned (.qInit cap) s)
    (h : s.sl.state ≠ .stopped ∨ consumed s) : exec (.qInit cap) s = .refused .notOwner := by
  have huse : (producerActive s || consumerActive s) = true := by
    rwa [Bool.or_eq_true, producerActive_iff, consumerActive_iff]
  show perform _ s (if _ then _ else _) = _
  rw [if_pos huse]
  exact perform_refuse hm

theorem exec_qInit_unused {cap : BitVec 32} {s : State} (hm : owned (.qInit cap) s) (hstop : s.sl.state = .stopped)
    (hfree : ¬ consumed s) :
    exec (.qInit cap) s = .next ((s.setSq (Queue.init s.cfg.cMax cap s.sq).2).setReport
      (.returned (Queue.init s.cfg.cMax cap s.sq).1 none)) := by
  have hunused : ¬ (producerActive s || consumerActive s) = true := by
    rw [Bool.or_eq_true, producerActive_iff, consumerActive_iff]
    exact not_or.2 ⟨not_not_intro hstop, hfree⟩
  show perform _ s (if _ then _ else _) = _
  rw [if_neg hunused]
  exact perform_done hm

/-- Settles O6: the two results of `Queue.init` on an unused queue, and the refusal on one in use. -/
theorem qInitReinitialisesOrFails : Obligations.QInitReinitialisesOrFails := by
  intro cap s hm
  refine ⟨fun hstop hfree hgood => ?_, fun hstop hfree hbad => ?_, exec_qInit_inUse hm⟩
  · rw [exec_qInit_unused hm hstop hfree]
    obtain ⟨_, hinit⟩ | ⟨hno, _⟩ := Queue.init_cases s.cfg.cMax cap s.sq
    · rw [hinit]
      rfl
    · exact absurd (capAdmitted_iff.2 hgood) (hno ▸ Bool.false_ne_true)
  · rw [exec_qInit_unused hm hstop hfree]
    obtain ⟨hyes, _⟩ | ⟨_, hinit⟩ := Queue.init_cases s.cfg.cMax cap s.sq
    · exact absurd (capAdmitted_iff.1 hyes) hbad
    · rw [hinit]
      rfl

end Sys2Proof.Machine
end

section
/-!
SUPPORT. The FIFO law over a run of pushes and pops (40_queue.md R138): `FifoState` ties the samples pushed and popped
so far to the samples in the queue, each operation of the producer and of the consumer keeps it, so every run does.
-/

namespace Sys2Proof.Machine

open Sys2Proof.Claims

/-- What a `Q.PUSH` of `v` with this report added to the pushed samples. -/
def accepted (v : Sample) (r : Report) : List Sample := if r = .returned true none then [v] else []

/-- What a `Q.POP` with this report added to the popped samples. -/
def delivered : Report → List Sample
  | .returned true (some x) => [x.setWidth 16]
  | _ => []

theorem delivered_eq_nil {r : Report} (h : ∀ x, r ≠ .returned true (some x)) : delivered r = [] := by
  unfold delivered
  split
  · exact absurd rfl (h _)
  · rfl

section

variable {ops : List (Option Sample)} {s t : State} {pushed popped : List Sample}

theorem queueRun_push {v : Sample} (h : exec (.qPush v) (issuedBy .synthesisLoop s) = .next t) :
    queueRun (some v :: ops) s pushed popped = queueRun ops t (pushed ++ accepted v t.env.report) popped := by
  simp only [queueRun, h, accepted]
  split
  · rfl
  · rw [List.append_nil]

theorem queueRun_pop (h : exec .qPop (issuedBy .outputLoop s) = .next t) :
    queueRun (none :: ops) s pushed popped = queueRun ops t pushed (popped ++ delivered t.env.report) := by
  simp only [queueRun, h]
  split
  · rename_i hr
    rw [hr]
    rfl
  · rename_i hr
    rw [delivered_eq_nil hr, List.append_nil]

/-- The queue is initialised and sound, and what was pushed is what was popped and then what the queue holds. -/
structure FifoState (pushed popped : List Sample) (s : State) : Prop where
  sound : queueSound s
  init : s.sq.cap.isSome = true
  order : pushed = popped ++ s.sq.contents

/-- A push of the producer on a full queue adds nothing; any other appends one sample to both sides. -/
theorem FifoState.push (h : FifoState pushed popped s) (v : Sample) :
    ∃ t, exec (.qPush v) (issuedBy .synthesisLoop s) = .next t ∧
      FifoState (pushed ++ accepted v t.env.report) popped t := by
  obtain ⟨hsound, hinit, horder⟩ := h
  obtain ⟨c, hc⟩ := Option.isSome_iff_exists.1 hinit
  cases hf : s.sq.full with
  | true => exact ⟨_, exec_qPush_full rfl hc hf, hsound, hinit, (List.append_nil _).trans horder⟩
  | false =>
    obtain ⟨_, w, _⟩ := hsound.window hc
    refine ⟨_, exec_qPush_room rfl hc hf, hsound.push (Queue.push_room hc hf), hinit, ?_⟩
    calc pushed ++ [v] = popped ++ (s.sq.contents ++ [v]) := by rw [horder, List.append_assoc]
      _ = popped ++ (s.sq.pushed c v).contents := by rw [w.contents_pushed hc (w.full_eq_false_iff.1 hf)]

/-- A pop of the consumer on an empty queue takes nothing; any other moves the oldest queued sample to the popped
ones. -/
theorem FifoState.pop (h : FifoState pushed popped s) :
    ∃ t, exec .qPop (issuedBy .outputLoop s) = .next t ∧
      FifoState pushed (popped ++ delivered t.env.report) t := by
  obtain ⟨hsound, hinit, horder⟩ := h
  obtain ⟨c, hc⟩ := Option.isSome_iff_exists.1 hinit
  cases he : s.sq.isEmpty with
  | true =>
    refine ⟨_, exec_qPop_empty rfl hc he, hsound, hinit, ?_⟩
    exact horder.trans (congrArg (· ++ s.sq.contents) (List.append_nil popped).symm)
  | false =>
    obtain ⟨_, w, _⟩ := hsound.window hc
    obtain ⟨n, hn⟩ := Nat.exists_eq_add_one.2 (w.isEmpty_eq_false_iff.1 he)
    rw [hn] at w
    refine ⟨_, exec_qPop_nonempty rfl hc he, hsound.popped hc he, hinit, ?_⟩
    show pushed = popped ++ [(packOne (s.sq.buf.read .qbuf s.sq.tail)).setWidth 16] ++ (s.sq.popped c).contents
    rw [packOne_setWidth, List.append_assoc, List.singleton_append, ← w.contents_popped hc, horder]

/-- Every interleaving runs to its end and keeps the order. -/
theorem FifoState.run (ops : List (Option Sample)) (h : FifoState pushed popped s) :
    ∃ pushed' popped' t, queueRun ops s pushed popped = some (pushed', popped', t) ∧ FifoState pushed' popped' t := by
  induction ops generalizing s pushed popped with
  | nil => exact ⟨pushed, popped, s, rfl, h⟩
  | cons op ops ih =>
    cases op with
    | some v =>
      obtain ⟨t, hexec, ht⟩ := h.push v
      rw [queueRun_push hexec]
      exact ih ht
    | none =>
      obtain ⟨t, hexec, ht⟩ := h.pop
      rw [queueRun_pop hexec]
      exact ih ht

theorem Queue.contents_of_count_eq_zero {q : Queue} (h : q.count = 0) : q.contents = [] := by
  unfold Queue.contents
  split
  · rfl
  · rw [h]
    rfl

end

/-- Settles O14, by induction on the operations from an empty queue with nothing pushed or popped. -/
theorem queueFifoLaw : Obligations.QueueFifoLaw := by
  intro ops s hs hinit hempty
  have hstart : FifoState [] [] s := ⟨hs, hinit, (Queue.contents_of_count_eq_zero hempty).symm⟩
  obtain ⟨pushed, popped, t, hrun, ht⟩ := hstart.run ops
  exact ⟨pushed, popped, t, hrun, ht.order⟩

end Sys2Proof.Machine
end

section
/-!
SUPPORT. The bus decoders (41_bus_decoder.md R153 to R162): every decoder is its row of the table of R161 at the payload
and the two logical control bits of the word (`busDecode_eq_tableRow`), and its packed write is the sum of R115
(`packWrite_eq_decodedVal`). The laws of R162 are then laws of the three fields of R111 and of the table.
-/

namespace Sys2Proof.Machine

open Sys2Proof.Claims

/-! ### The packed decoded write -/

/-- The payload of R111 as a field and as a shifted word. -/
theorem payloadField_eq_payloadOf (fc : FamilyConfig) (w : BusWord) :
    payloadField fc.layout w = payloadOf fc w := by
  apply BitVec.eq_of_getLsbD_eq
  intro j hj
  simp [payloadField, payloadOf, hj]

/-- The class of a decoded write: LATCH where the bit is set, else DATA (R115). -/
def kindOf (latch : Bool) : WriteKind := if latch then .latch else .data

theorem kindBit_kindOf (latch : Bool) : kindBit (kindOf latch) = BitVec.ofBool latch := by
  cases latch <;> rfl

/-- A word on top of another is the sum that weighs it by the width below. -/
theorem toNat_append_eq_add {m n : Nat} (x : BitVec m) (y : BitVec n) :
    (x ++ y).toNat = x.toNat * 2 ^ n + y.toNat := by
  rw [BitVec.toNat_append, ← Nat.shiftLeft_add_eq_or_of_lt y.isLt, Nat.shiftLeft_eq]

/-- R115: the bit fields of a packed write add up to `payload + 256 kind + 512 unit + 1024 chan`. -/
theorem packWrite_eq_decodedVal (p : Byte) (latch unit chan : Bool) :
    packWrite { payload := p, kind := kindOf latch, unit := unit, chan := chan } = decodedVal p latch unit chan := by
  have hp := p.isLt
  have hl := latch.toNat_lt
  have hu := unit.toNat_lt
  have hc := chan.toNat_lt
  apply BitVec.eq_of_toNat_eq
  rw [packWrite, decodedVal, kindBit_kindOf, bit1, bit1]
  simp only [toNat_append_eq_add, BitVec.toNat_ofBool, BitVec.toNat_ofNat]
  omega

/-- A step word whose body returns a packed write answers its value and writes no state. -/
theorem perform_answerVal_packWrite {i : Instr} {s : State} {d : BusWrite} {p : Byte} {latch unit chan : Bool}
    (hd : d = { payload := p, kind := kindOf latch, unit := unit, chan := chan }) (hm : owned i s) :
    perform i s (answerVal (packWrite d) s) =
      .next (s.setReport (.returned true (some (decodedVal p latch unit chan)))) := by
  rw [hd, packWrite_eq_decodedVal]
  exact perform_done hm

/-- Settles O15: each decoder's write has the fields that its rule gives it, so its packed value. -/
theorem decodersReturnDecodedWrite : Obligations.DecodersReturnDecodedWrite := by
  intro w s
  simp only [← payloadField_eq_payloadOf]
  refine ⟨?_, ?_, ?_, ?_, ?_, ?_, ?_⟩
  · exact perform_answerVal_packWrite (d := busCovox s.cfg.covox w) rfl
  · exact perform_answerVal_packWrite (d := busStereo1 s.cfg.stereoOnOne w) rfl
  · exact perform_answerVal_packWrite (d := busDss s.cfg.dss w) rfl
  · exact perform_answerVal_packWrite (d := busFtl s.cfg.ftl w) rfl
  · exact perform_answerVal_packWrite (d := busOpl2 s.cfg.opl2lpt w) rfl
  · exact perform_answerVal_packWrite (d := busTandy s.cfg.tandy w) rfl
  · exact perform_answerVal_packWrite (d := busCms s.cfg.gameBlaster w) rfl

/-! ### The table of R161 -/

/-- The row of the table of R161 for each family: the decoded write by payload, logical `A` and logical `B`. -/
def tableRow (f : Family) (p : Byte) (a b : Bool) : BusWrite :=
  match f with
  | .covox | .dss | .ftl | .tandy => { payload := p, kind := .data, unit := false, chan := false }
  | .stereoOnOne => { payload := p, kind := .data, unit := false, chan := a }
  | .opl2lpt => { payload := p, kind := kindOf a, unit := false, chan := false }
  | .gameBlaster => { payload := p, kind := kindOf a, unit := b, chan := false }

theorem busDecode_eq_tableRow (c : Config) (f : Family) (w : BusWord) :
    busDecode c f w = tableRow f (payloadField (familyConfig c f).layout w) (controlA (familyConfig c f) w)
      (controlB (familyConfig c f) w) := by
  cases f <;> rfl

theorem tableRow_payload (f : Family) (p : Byte) (a b : Bool) : (tableRow f p a b).payload = p := by
  cases f <;> rfl

/-- R162 (c), (d): what a row says beside the payload reads `A` in three families and `B` in one. -/
theorem tableRow_control_congr {f : Family} {p p' : Byte} {a a' b b' : Bool}
    (ha : f ∈ [Family.stereoOnOne, .opl2lpt, .gameBlaster] → a = a') (hb : f = .gameBlaster → b = b') :
    (tableRow f p a b).kind = (tableRow f p' a' b').kind ∧ (tableRow f p a b).unit = (tableRow f p' a' b').unit ∧
      (tableRow f p a b).chan = (tableRow f p' a' b').chan := by
  cases f with
  | covox | dss | ftl | tandy => exact ⟨rfl, rfl, rfl⟩
  | stereoOnOne => exact ⟨rfl, rfl, ha (by decide)⟩
  | opl2lpt => exact ⟨congrArg kindOf (ha (by decide)), rfl, rfl⟩
  | gameBlaster => exact ⟨congrArg kindOf (ha (by decide)), hb rfl, rfl⟩

/-! ### The fields of R111 by the bits they read -/

/-- R162 (b), (d): the payload reads the eight bits of the data field. -/
theorem payloadField_congr {l : Layout} {w w' : BusWord}
    (h : ∀ j, j < 8 → w.getLsbD (l.dataLsb + j) = w'.getLsbD (l.dataLsb + j)) :
    payloadField l w = payloadField l w' := by
  apply BitVec.eq_of_getLsbD_eq
  intro j hj
  rw [payloadField, payloadField, BitVec.getLsbD_extractLsb', BitVec.getLsbD_extractLsb', h j hj]

theorem controlA_congr {fc : FamilyConfig} {w w' : BusWord}
    (h : w.getLsbD fc.layout.ctlA = w'.getLsbD fc.layout.ctlA) : controlA fc w = controlA fc w' :=
  congrArg (· ^^ fc.polA) h

theorem controlB_congr {fc : FamilyConfig} {w w' : BusWord}
    (h : w.getLsbD fc.layout.ctlB = w'.getLsbD fc.layout.ctlB) : controlB fc w = controlB fc w' :=
  congrArg (· ^^ fc.polB) h

/-! ### Flipping one bit of a word -/

theorem getLsbD_flip_same {k : Nat} (hk : k < 32) (w : BusWord) :
    (w ^^^ (1#32 <<< k)).getLsbD k = !w.getLsbD k := by
  simp [hk]

theorem getLsbD_flip_other {j k : Nat} (hjk : j ≠ k) (w : BusWord) :
    (w ^^^ (1#32 <<< k)).getLsbD j = w.getLsbD j := by
  rw [BitVec.getLsbD_xor, ← BitVec.twoPow_eq, BitVec.getLsbD_twoPow, decide_eq_false hjk.symm, Bool.and_false,
    Bool.xor_false]

/-- What R111 says of `ctl_a`: inside the word, outside the data field, not `ctl_b`. -/
theorem ctlA_of_wellFormed {l : Layout} (h : l.wellFormed = true) :
    l.ctlA < 32 ∧ (∀ j, j < 8 → l.dataLsb + j ≠ l.ctlA) ∧ l.ctlB ≠ l.ctlA := by
  simp only [Layout.wellFormed, Layout.inData, Bool.and_eq_true, Bool.not_eq_true', decide_eq_true_eq,
    Bool.and_eq_false_iff, decide_eq_false_iff_not] at h
  obtain ⟨⟨⟨⟨⟨_, hword⟩, _⟩, hdata⟩, _⟩, hne⟩ := h
  exact ⟨Nat.lt_succ_of_le hword, fun j hj => by omega, hne.symm⟩

section

variable {fc : FamilyConfig}

theorem payloadField_flip_ctlA (h : fc.layout.wellFormed = true) (w : BusWord) :
    payloadField fc.layout (w ^^^ (1#32 <<< fc.layout.ctlA)) = payloadField fc.layout w := by
  obtain ⟨_, hdata, _⟩ := ctlA_of_wellFormed h
  exact payloadField_congr fun j hj => getLsbD_flip_other (hdata j hj) w

theorem controlA_flip_ctlA (h : fc.layout.wellFormed = true) (w : BusWord) :
    controlA fc (w ^^^ (1#32 <<< fc.layout.ctlA)) = controlA { fc with polA := !fc.polA } w := by
  obtain ⟨hword, _, _⟩ := ctlA_of_wellFormed h
  rw [controlA, controlA, getLsbD_flip_same hword, Bool.not_xor, Bool.xor_not]

theorem controlB_flip_ctlA (h : fc.layout.wellFormed = true) (w : BusWord) :
    controlB fc (w ^^^ (1#32 <<< fc.layout.ctlA)) = controlB fc w := by
  obtain ⟨_, _, hne⟩ := ctlA_of_wellFormed h
  exact controlB_congr (getLsbD_flip_other hne w)

end

/-- R162 (e): flipping the polarity of `A` is flipping its raw bit. -/
theorem busDecode_flip_polA {c c' : Config} {f : Family}
    (hc : familyConfig c' f = { familyConfig c f with polA := !(familyConfig c f).polA })
    (h : (familyConfig c f).layout.wellFormed = true) (w : BusWord) :
    busDecode c' f w = busDecode c f (w ^^^ (1#32 <<< (familyConfig c f).layout.ctlA)) := by
  rw [busDecode_eq_tableRow, busDecode_eq_tableRow, payloadField_flip_ctlA h, controlA_flip_ctlA h,
    controlB_flip_ctlA h, hc]
  rfl

/-- Settles O16: the laws of the three fields, through the table. -/
theorem decoderFieldLaws : Obligations.DecoderFieldLaws := by
  intro c f w w'
  refine ⟨fun hdata => ?_, fun ha hb => ?_, fun _ hc hwf => busDecode_flip_polA hc hwf w⟩
  · rw [busDecode_eq_tableRow, busDecode_eq_tableRow, tableRow_payload, tableRow_payload]
    exact payloadField_congr hdata
  · rw [busDecode_eq_tableRow, busDecode_eq_tableRow]
    exact tableRow_control_congr (fun hf => controlA_congr (ha hf)) (fun hf => controlB_congr (hb hf))

end Sys2Proof.Machine
end

section
/-!
SUPPORT. The chip model adapter (42_chip_adapter.md R181 to R190): the equations of the chip operations with and
without a chip model, of the external chip model's clock and of the stub units, and from them what the four step words
answer to an issuer that owns them; last the latch write that never reaches the chip model (R186).
-/

namespace Sys2Proof.Machine

/-! ### The family ids -/

@[simp] theorem familyOfId_familyId (f : Family) : familyOfId (familyId f) = some f := by
  cases f <;> rfl

theorem familyId_of_familyOfId {n : Nat} {f : Family} (h : familyOfId n = some f) : familyId f = n := by
  unfold familyOfId at h
  split at h <;> cases h <;> rfl

/-! ### `CM.CREATE` -/

theorem chipCreatable_iff {s : State} : chipCreatable s = true ↔ s.sl.chip = none ∧ s.sl.state = .stopped := by
  rw [chipCreatable, Bool.and_eq_true, Option.isNone_iff_eq_none, decide_eq_true_iff]

section

variable {k : BitVec 3} {s : State} {f : Family}

/-- R121: no family has the id, or the one that has it lies outside the table or has no Synthesis Loop. -/
theorem exec_cmCreate_badIndex (hm : owned (.cmCreate k) s)
    (h : ∀ f, familyId f = k.toNat → nDev s.cfg ≤ k.toNat ∨ hasSL s.cfg f = false) :
    exec (.cmCreate k) s = .refused .badIndex := by
  show execCmCreate k s = _
  unfold execCmCreate
  split
  · exact perform_refuse hm
  · rename_i f hf
    have hbad : (decide (nDev s.cfg ≤ k.toNat) || !hasSL s.cfg f) = true := by
      simpa using h f (familyId_of_familyOfId hf)
    rw [if_pos hbad]
    exact perform_refuse hm

/-- The body of `CM.CREATE` past the test of its index. -/
theorem exec_cmCreate_goodIndex (hid : familyId f = k.toNat) (hlt : k.toNat < nDev s.cfg)
    (hsl : hasSL s.cfg f = true) :
    exec (.cmCreate k) s = perform (.cmCreate k) s
      (if !chipCreatable s then .refused .precondition
        else answerOk (chipCreate f s).1 (chipCreate f s).2) := by
  have hf : familyOfId k.toNat = some f := hid ▸ familyOfId_familyId f
  have hgood : ¬ (decide (nDev s.cfg ≤ k.toNat) || !hasSL s.cfg f) = true := by simp [hlt, hsl]
  show execCmCreate k s = _
  unfold execCmCreate
  simp only [hf]
  rw [if_neg hgood]

end

/-- Settles O17: a bad index, a failed precondition, and the two results of the draw. -/
theorem cmCreateConstructsOrFails : Obligations.CmCreateConstructsOrFails := by
  intro k s hm
  refine ⟨exec_cmCreate_badIndex hm, fun f hid hlt hsl => ?_⟩
  rw [exec_cmCreate_goodIndex hid hlt hsl]
  refine ⟨fun hpre => ?_, fun hchip hstop => ?_⟩
  · have hno : chipCreatable s = false := Bool.eq_false_iff.2 (mt chipCreatable_iff.1 hpre)
    rw [hno]
    exact perform_refuse hm
  · rw [chipCreatable_iff.2 ⟨hchip, hstop⟩]
    refine ⟨fun hdraw => ?_, fun hdraw => ?_⟩
    · rw [chipCreate_ok hdraw, drawBool_state]
      exact perform_done hm
    · rw [chipCreate_failed hdraw, drawBool_state]
      exact perform_done hm

/-! ### The operations with and without a chip model -/

/-- The samples of one `CM.SAMPLE`, left first: `NCH` of them (R183). -/
def chipSamples (c : Config) (x : Chip) : List Sample :=
  if (familyConfig c x.fam).nch = .stereo then [(chipOut c x).1, (chipOut c x).2] else [(chipOut c x).1]

section

variable {s : State} {x : Chip} {a : BitVec 16} {d : Byte}

theorem chipWrite_none (h : s.sl.chip = none) : chipWrite a d s = .refused .precondition := by
  rw [chipWrite, h]

theorem chipWrite_some (h : s.sl.chip = some x) :
    chipWrite a d s = .done (s.setSl { s.sl with chip := some (chipAfterWrite s.cfg a d x) }) := by
  rw [chipWrite, h]

theorem chipDestroy_none (h : s.sl.chip = none) : chipDestroy s = .refused .precondition := by
  rw [chipDestroy, h]

theorem chipDestroy_some (h : s.sl.chip = some x) : chipDestroy s = .done (s.setSl { s.sl with chip := none }) := by
  rw [chipDestroy, h]

theorem chipSample_none (h : s.sl.chip = none) : chipSample s = .refused .precondition := by
  rw [chipSample, h]

theorem chipSample_some (h : s.sl.chip = some x) :
    chipSample s = .done (chipSamples s.cfg x, s.setSl { s.sl with chip := some (chipAfterSample s.cfg x) }) := by
  unfold chipSample chipSamples
  cases hn : (familyConfig s.cfg x.fam).nch with
  | mono => simp [h, hn]
  | stereo => simp [h, hn]

end

/-- A step word that waited leaves the chip model. -/
theorem Waited.chip_eq {s t : State} (h : Waited s t) : t.sl.chip = s.sl.chip := by
  obtain ⟨_, rfl⟩ | rfl := h <;> rfl

/-! ### A write of the chip model -/

section

variable {c : Config} {a : BitVec 16} {d : Byte} {x : Chip}

/-- R185, R190: the low address bit selects the first sub-unit, and a chip of one unit has no other. -/
theorem chipAfterWrite_first (h : dualChip c x.fam = false ∨ a.getLsbD 0 = false) :
    chipAfterWrite c a d x =
      { x with units := { x.units with unit0 := chipUnitAfter c x.fam x.units x.units.unit0 a d } } :=
  if_neg (Bool.eq_false_iff.1 (Bool.and_eq_false_iff.2 h))

theorem chipAfterWrite_second (hd : dualChip c x.fam = true) (ha : a.getLsbD 0 = true) :
    chipAfterWrite c a d x =
      { x with units := { x.units with unit1 := chipUnitAfter c x.fam x.units x.units.unit1 a d } } :=
  if_pos (Bool.and_eq_true_iff.2 ⟨hd, ha⟩)

/-- R182: a write advances neither clock, whichever sub-unit it changes. -/
theorem chipAfterWrite_samples (c : Config) (a : BitVec 16) (d : Byte) (x : Chip) :
    (chipAfterWrite c a d x).units.unit0.samples = x.units.unit0.samples ∧
      (chipAfterWrite c a d x).units.unit1.samples = x.units.unit1.samples := by
  unfold chipAfterWrite
  split
  · exact ⟨rfl, chipUnitAfter_samples ..⟩
  · exact ⟨chipUnitAfter_samples .., rfl⟩

end

theorem dualChip_gameBlaster {c : Config} (h : (familyConfig c .gameBlaster).chip = .external) :
    dualChip c .gameBlaster = true := by
  rw [dualChip, h]
  rfl

/-- Settles O18: each operation on its chip model, and the refusal without one. -/
theorem cmWriteAndDestroyTouchChipOnly : Obligations.CmWriteAndDestroyTouchChipOnly := by
  intro a d s
  refine ⟨fun x hx => ⟨fun hm => ?_, chipAfterWrite_samples s.cfg a d x, fun hm => ?_⟩, fun hnone =>
    ⟨fun hm => ?_, fun hm => ?_⟩⟩
  · exact perform_bind_done hm (chipWrite_some hx) rfl
  · exact perform_bind_done hm (chipDestroy_some hx) rfl
  · exact perform_bind_refused hm (chipWrite_none hnone)
  · exact perform_bind_refused hm (chipDestroy_none hnone)

/-- Settles O20: the write that ran changed the selected sub-unit, by the equation of its address bit. -/
theorem dualChipWriteChangesOneUnit : Obligations.DualChipWriteChangesOneUnit := by
  intro a d s t x hx hfam hext hexec
  obtain hw | ⟨x', hx', rfl⟩ := execCmWrite_next hexec
  · exact ⟨x, hw.chip_eq.trans hx, hfam, fun _ => rfl, fun _ => rfl⟩
  · obtain rfl : x = x' := Option.some.inj (hx.symm.trans hx')
    have hdual : dualChip s.cfg x.fam = true := hfam ▸ dualChip_gameBlaster hext
    refine ⟨_, rfl, (chipAfterWrite_fam ..).trans hfam, fun ha => ?_, fun ha => ?_⟩
    · rw [chipAfterWrite_first (.inr ha)]
    · rw [chipAfterWrite_second hdual ha]

/-! ### A sample of the chip model -/

theorem sampleVal_chipSamples_low (c : Config) (x : Chip) :
    (sampleVal (chipSamples c x)).extractLsb' 0 16 = (chipOut c x).1 := by
  unfold chipSamples
  split
  · exact BitVec.extractLsb'_append_eq_right
  · show ((chipOut c x).1.setWidth 32).extractLsb' 0 16 = _
    rw [BitVec.extractLsb'_setWidth_of_le (by decide), BitVec.extractLsb'_eq_self]

theorem sampleVal_chipSamples_high (c : Config) (x : Chip) :
    (sampleVal (chipSamples c x)).extractLsb' 16 16 =
      if (familyConfig c x.fam).nch = .stereo then (chipOut c x).2 else 0#16 := by
  unfold chipSamples
  split
  · exact BitVec.extractLsb'_append_eq_left
  · apply BitVec.eq_of_getLsbD_eq
    intro j hj
    simp [sampleVal, packOne]

section

variable {c : Config} {f : Family}

/-- R183: the external chip model's clock moves by one sample. -/
theorem chipUnitNext_samples (h : (familyConfig c f).chip = .external) (u : ChipUnits) (second : Bool)
    (old : ChipUnit) : (chipUnitNext c f u second old).samples = old.samples + 1 := by
  rw [chipUnitNext, h]

theorem chipAfterSample_single {x : Chip} (h : dualChip c x.fam = false) :
    chipAfterSample c x =
      { x with units := { x.units with unit0 := chipUnitNext c x.fam x.units false x.units.unit0 } } := by
  simp [chipAfterSample, h]

/-- R185: the same call advances both sub-units. -/
theorem chipAfterSample_dual {x : Chip} (h : dualChip c x.fam = true) :
    chipAfterSample c x =
      { x with units := { unit0 := chipUnitNext c x.fam x.units false x.units.unit0
                          unit1 := chipUnitNext c x.fam x.units true x.units.unit1 } } := by
  simp [chipAfterSample, h]

end

/-- Settles O19: the refusal without a chip model; with one, the two halves of the value and the clocks. -/
theorem cmSampleAdvancesChip : Obligations.CmSampleAdvancesChip := by
  intro s hm
  refine ⟨fun hnone => perform_bind_refused hm (chipSample_none hnone), fun x hx => ?_⟩
  refine ⟨sampleVal (chipSamples s.cfg x), sampleVal_chipSamples_low s.cfg x, sampleVal_chipSamples_high s.cfg x,
    perform_bind_done hm (chipSample_some hx) rfl, fun hext =>
    ⟨chipUnitNext_samples hext x.units false x.units.unit0, fun hfam => ?_⟩⟩
  have hdual : dualChip s.cfg x.fam = true := hfam ▸ dualChip_gameBlaster (hfam ▸ hext)
  rw [chipAfterSample_dual hdual]
  exact chipUnitNext_samples hext x.units true x.units.unit1

/-! ### The stub chip model -/

@[simp] theorem stubLast_stubUnit (last n : BitVec 16) : stubLast (stubUnit last n) = last :=
  (BitVec.ofNat_toNat 16 last).trans (BitVec.setWidth_eq last)

@[simp] theorem stubN_stubUnit (last n : BitVec 16) : stubN (stubUnit last n) = n :=
  (BitVec.ofNat_toNat 16 n).trans (BitVec.setWidth_eq n)

section

variable {c : Config} {f : Family} (hstub : (familyConfig c f).chip = .stub)

include hstub

theorem dualChip_stub : dualChip c f = decide ((familyConfig c f).nch = .stereo) := by
  rw [dualChip, hstub]

theorem chipNew_stub :
    chipNew c f = { fam := f, units := { unit0 := stubUnit 0#16 0#16, unit1 := stubUnit 0#16 0#16 } } := by
  rw [chipNew, hstub]

theorem chipOut_stub (u : ChipUnits) : chipOut c { fam := f, units := u } = (stubOut u.unit0, stubOut u.unit1) := by
  rw [chipOut, hstub]

theorem chipUnitAfter_stub (u : ChipUnits) (last n a : BitVec 16) (d : Byte) :
    chipUnitAfter c f u (stubUnit last n) a d =
      stubUnit ((if dualChip c f then a.extractLsb' 1 8 else a.extractLsb' 0 8) ++ d) n := by
  rw [chipUnitAfter, hstub]
  rfl

theorem chipUnitNext_stub (u : ChipUnits) (second : Bool) (last n : BitVec 16) :
    chipUnitNext c f u second (stubUnit last n) = stubUnit last (n + 1#16) := by
  rw [chipUnitNext, hstub]
  show stubNext _ = _
  rw [stubNext, stubLast_stubUnit, stubN_stubUnit]

end

theorem stubOut_stubUnit (last n : BitVec 16) : stubOut (stubUnit last n) = last + n + 1#16 := by
  rw [stubOut, stubLast_stubUnit, stubN_stubUnit]

/-- Settles O21: creation and output, then a write and a sample of a chip of one unit and of one of two. -/
theorem stubChipFollowsItsDefinition : Obligations.StubChipFollowsItsDefinition := by
  intro c f last0 n0 last1 n1 a d hstub x
  refine ⟨chipNew_stub hstub, ?_, fun hmono => ?_, fun hstereo => ?_⟩
  · rw [chipOut_stub hstub]
    exact stubOut_stubUnit last0 n0
  · have hsingle : dualChip c f = false := (dualChip_stub hstub).trans (by rw [hmono]; rfl)
    refine ⟨?_, ?_⟩
    · rw [chipAfterWrite_first (.inl hsingle), chipUnitAfter_stub hstub, hsingle]
      rfl
    · rw [chipAfterSample_single hsingle, chipUnitNext_stub hstub]
  · have hdual : dualChip c f = true := (dualChip_stub hstub).trans (decide_eq_true hstereo)
    refine ⟨fun ha => ?_, fun ha => ?_, ?_, ?_⟩
    · rw [chipAfterWrite_first (.inr ha), chipUnitAfter_stub hstub, hdual]
      rfl
    · rw [chipAfterWrite_second hdual ha, chipUnitAfter_stub hstub, hdual]
      rfl
    · rw [chipAfterSample_dual hdual, chipUnitNext_stub hstub, chipUnitNext_stub hstub]
    · rw [chipOut_stub hstub]
      exact stubOut_stubUnit last1 n1

/-! ### A latch write of the Synthesis Loop -/

/-- R210: in a family with a latch, a latch write sets one current register. -/
theorem applyWrite_latch {d : BusWrite} {s : State} (hfam : s.sl.fam ≠ .tandy) (hk : d.kind = .latch) :
    ∃ u, applyWrite d s = .done (s.setSl (setCurReg u d.payload s.sl)) := by
  rw [applyWrite, hk]
  cases hf : s.sl.fam with
  | tandy => exact absurd hf hfam
  | opl2lpt => exact ⟨false, rfl⟩
  | covox | stereoOnOne | dss | ftl | gameBlaster => exact ⟨d.unit, rfl⟩

/-- Draining a word that decodes to a latch write leaves the chip model. -/
theorem drainWord_latch_chip {s u : State} {w : BusWord} {rest : List BusWord} {a : Act State} {r : Report}
    (hfam : s.sl.fam ≠ .tandy) (hp : s.bsr.pending = w :: rest)
    (hk : (busDecode s.cfg s.dev.decFam w).kind = .latch) (hd : drainWord s = some a)
    (ha : a.bind ran = .done (r, u)) : u.sl.chip = s.sl.chip := by
  obtain ⟨w', rest', _, hp', rfl⟩ := drainWord_some hd
  obtain ⟨rfl, rfl⟩ : w = w' ∧ rest = rest' := List.cons.inj (hp.symm.trans hp')
  obtain ⟨v, hv⟩ := applyWrite_latch (s := s.setBsr { pending := rest }) hfam hk
  rw [hv] at ha
  cases ha
  exact setCurReg_chip v _ s.sl

/-- Settles O24: the steps that may take a word, each by the cases of what it did. -/
theorem latchWriteNeverReachesChip : Obligations.LatchWriteNeverReachesChip := by
  intro i s t w rest hi hfam hp hk hexec
  have hlatch : s.sl.fam ≠ .tandy := by obtain h | h := hfam <;> rw [h] <;> decide
  obtain rfl | rfl := hi
  · obtain hw | ⟨_, _, ⟨_, rfl⟩ | ⟨a, u, hd, ha, rfl⟩⟩ := execSlDrain_next hexec
    · exact hw.chip_eq
    · rfl
    · exact drainWord_latch_chip (u := u) hlatch hp hk hd ha
  · obtain hw | ⟨_, _, ⟨_, rfl⟩ | ⟨_, _, a, u, hd, ha, rfl⟩⟩ := execSlStall_next hexec
    · exact hw.chip_eq
    · rfl
    · exact drainWord_latch_chip (u := u) hlatch hp hk hd ha

end Sys2Proof.Machine
end

section
/-!
SUPPORT. The steps of the Synthesis Loop, answer by answer (43_synthesis_loop.md R201 to R210): the enabling condition
of an agent step, met or not; the word a drain takes and what R210 makes of it (`applyWrite_eq_appliedSynth`); the
push of R206 on a full queue and on any other; and from them what each step answers to an issuer that owns it.
-/

namespace Sys2Proof.Machine

open Sys2Proof.Claims

/-! ### The enabling condition of an agent step -/

section

variable {i : Instr} {s : State} {p : Prop} [Decidable p] {a : Act (Report × State)}

theorem perform_enabled (h : p) : perform i s (if p then a else .notEnabled) = perform i s a := by
  rw [if_pos h]

theorem perform_disabled (hm : owned i s) (h : ¬ p) :
    perform i s (if p then a else .notEnabled) = .next (s.setReport .notEnabled) := by
  rw [if_neg h]
  exact perform_notEnabled hm

/-- Outside FAULT the enabling condition of an Output Loop step is that of its own rule. -/
theorem perform_unlessFault_disabled (hfault : s.ol.phase ≠ .fault) (hm : owned i s) (h : ¬ p) :
    perform i s (unlessFault s (if p then a else .notEnabled)) = .next (s.setReport .notEnabled) := by
  rw [unlessFault, if_neg hfault]
  exact perform_disabled hm h

end

section

variable {s : State}

theorem loopAlive_iff : loopAlive s = true ↔ s.sl.state ≠ .stopped := decide_eq_true_iff

theorem stopSignal_iff : stopSignal s = true ↔ s.sl.state = .stopping := decide_eq_true_iff

theorem stopSignal_of_running (h : s.sl.state = .running) : stopSignal s = false := by
  rw [stopSignal, h]
  rfl

/-- R207, R208: the three stop-check points of a STOPPING loop. -/
theorem exitEnabled_iff :
    exitEnabled s = true ↔ s.sl.state = .stopping ∧
      (s.sl.phase = .head ∨ s.sl.phase = .drain ∨ (s.sl.phase = .stall ∧ s.sq.full = true)) := by
  simp [exitEnabled, stopSignal, Queue.isFull, or_assoc]

theorem loopState_ne_stopped (h : s.sl.state = .running) : s.sl.state ≠ .stopped := by
  rw [h]
  exact LoopState.noConfusion

end

/-! ### The word a step takes -/

section

variable {s : State} {d : BusWrite} {x : Chip} {w : BusWord} {rest : List BusWord}

theorem wordPending_eq_false_iff : wordPending s = false ↔ s.dev.handle = .none ∨ s.bsr.pending = [] := by
  cases hh : s.dev.handle <;> simp [wordPending, hh]

theorem takeWord_pending (hh : s.dev.handle = .acquired) (hp : s.bsr.pending = w :: rest) :
    takeWord s = some (w, s.setBsr { pending := rest }) := by
  rw [takeWord, hh, hp]

theorem drainWord_pending (hh : s.dev.handle = .acquired) (hp : s.bsr.pending = w :: rest) :
    drainWord s = some (applyWrite (busDecode s.cfg s.dev.decFam w) (s.setBsr { pending := rest })) := by
  rw [drainWord, takeWord_pending hh hp]
  rfl

/-- R116: the address of an OPL2LPT write is its register index. -/
theorem opl2Address_eq_ofNat (reg : Byte) : opl2Address reg = BitVec.ofNat 16 reg.toNat :=
  (BitVec.ofNat_toNat 16 reg).symm

/-- R116: the address of a GameBlaster write has the sub-unit below the register index. -/
theorem cmsAddress_eq_ofNat (reg : Byte) (u : Bool) :
    cmsAddress reg u = BitVec.ofNat 16 (2 * reg.toNat + u.toNat) := by
  have hreg := reg.isLt
  have hu := u.toNat_le
  apply BitVec.eq_of_toNat_eq
  rw [cmsAddress, bit1, toNat_append_eq_add, toNat_append_eq_add, BitVec.toNat_ofBool, BitVec.toNat_ofNat,
    BitVec.toNat_ofNat]
  omega

/-- R210: in the three families with a loop the decoded write is applied as the table says. -/
theorem applyWrite_eq_appliedSynth (hfam : s.sl.fam ∈ [Family.opl2lpt, .tandy, .gameBlaster])
    (hx : s.sl.chip = some x) : applyWrite d s = .done (s.setSl (appliedSynth s.cfg d s.sl x)) := by
  simp only [List.mem_cons, List.not_mem_nil, or_false] at hfam
  unfold applyWrite appliedSynth
  -- `simp only [hf]` also rewrites the field `fam` that a record update copies; `rw [← hf]` restores it.
  obtain hf | hf | hf := hfam
  · cases hk : d.kind with
    | latch => simp only [hf]; rw [← hf]; rfl
    | data => simp only [hf, chipWrite_some hx, opl2Address_eq_ofNat]; rfl
  · simp only [hf, chipWrite_some hx]
    rfl
  · cases hk : d.kind with
    | latch => simp only [hf]; rw [← hf]; rfl
    | data => simp only [hf, chipWrite_some hx, cmsAddress_eq_ofNat]; rfl

end

/-! ### What each step answers -/

section

variable {s u : State}

theorem exec_slDrain_idle (hm : owned .slDrain s) (hrun : s.sl.state = .running) (hphase : s.sl.phase = .drain)
    (hd : drainWord s = none) : exec .slDrain s = .next ((setLoopPhase .sample s).setReport .nothing) := by
  refine (perform_enabled ⟨hrun, hphase⟩).trans ?_
  rw [hd]
  exact perform_done hm

theorem exec_slDrain_word (hm : owned .slDrain s) (hrun : s.sl.state = .running) (hphase : s.sl.phase = .drain)
    (hd : drainWord s = some (.done u)) : exec .slDrain s = .next (u.setReport .nothing) := by
  refine (perform_enabled ⟨hrun, hphase⟩).trans ?_
  rw [hd]
  exact perform_done hm

theorem exec_slStall_room (hm : owned .slStall s) (halive : s.sl.state ≠ .stopped) (hphase : s.sl.phase = .stall)
    (hf : s.sq.full = false) : exec .slStall s = .next ((setLoopPhase .push s).setReport .nothing) := by
  refine (perform_enabled ⟨loopAlive_iff.2 halive, hphase⟩).trans ?_
  rw [Queue.isFull, hf]
  exact perform_done hm

/-- R207: with the queue full and the stop signal set only `SL.EXIT` is enabled. -/
theorem exec_slStall_stopping (hm : owned .slStall s) (hstop : s.sl.state = .stopping) (hphase : s.sl.phase = .stall)
    (hf : s.sq.full = true) : exec .slStall s = .next (s.setReport .notEnabled) := by
  have halive : s.sl.state ≠ .stopped := by rw [hstop]; exact LoopState.noConfusion
  refine (perform_enabled ⟨loopAlive_iff.2 halive, hphase⟩).trans ?_
  rw [Queue.isFull, hf, stopSignal_iff.2 hstop]
  exact perform_notEnabled hm

theorem exec_slStall_held (hm : owned .slStall s) (hrun : s.sl.state = .running) (hphase : s.sl.phase = .stall)
    (hf : s.sq.full = true) (hd : drainWord s = none) :
    exec .slStall s = .next (s.setReport (.held .queueFull)) := by
  refine (perform_enabled ⟨loopAlive_iff.2 (loopState_ne_stopped hrun), hphase⟩).trans ?_
  rw [Queue.isFull, hf, stopSignal_of_running hrun, hd]
  exact perform_held hm

theorem exec_slStall_word (hm : owned .slStall s) (hrun : s.sl.state = .running) (hphase : s.sl.phase = .stall)
    (hf : s.sq.full = true) (hd : drainWord s = some (.done u)) :
    exec .slStall s = .next (u.setReport .nothing) := by
  refine (perform_enabled ⟨loopAlive_iff.2 (loopState_ne_stopped hrun), hphase⟩).trans ?_
  rw [Queue.isFull, hf, stopSignal_of_running hrun, hd]
  exact perform_done hm

end

/-- Settles O22. -/
theorem slHeadAndIdleDrainAdvancePhase : Obligations.SlHeadAndIdleDrainAdvancePhase := by
  intro s hrun
  refine ⟨fun hphase hm => ?_, fun hphase hidle hm => ?_⟩
  · exact (perform_enabled ⟨hrun, hphase⟩).trans (perform_done hm)
  · exact exec_slDrain_idle hm hrun hphase (drainWord_none.2 (wordPending_eq_false_iff.2 hidle))

/-- Settles O23: either step takes the same word, and R210 gives what it makes of it. -/
theorem pendingWordIsApplied : Obligations.PendingWordIsApplied := by
  intro s w rest x hrun hfam hh hp hx t
  have htaken : drainWord s = some (.done ((s.setBsr { pending := rest }).setSl
      (appliedSynth s.cfg (busDecode s.cfg s.dev.decFam w) s.sl x))) :=
    (drainWord_pending hh hp).trans
      (congrArg some (applyWrite_eq_appliedSynth (s := s.setBsr { pending := rest }) hfam hx))
  exact ⟨fun hphase hm => exec_slDrain_word hm hrun hphase htaken,
    fun hphase hf hm => exec_slStall_word hm hrun hphase hf htaken⟩

/-- Settles O25: the samples of the chip model, whose family is `SL.fam`. -/
theorem slSampleFillsPending : Obligations.SlSampleFillsPending := by
  intro s x hm halive hphase hx hfam
  rw [← hfam]
  exact (perform_enabled ⟨loopAlive_iff.2 halive, hphase⟩).trans (perform_bind_done hm (chipSample_some hx) rfl)

/-- Settles O26: space, and the hold with no word to drain. -/
theorem slStallPushesOrHolds : Obligations.SlStallPushesOrHolds := by
  intro s hm hphase
  exact ⟨fun halive hf => exec_slStall_room hm halive hphase hf, fun hrun hf hidle =>
    exec_slStall_held hm hrun hphase hf (drainWord_none.2 (wordPending_eq_false_iff.2 hidle))⟩

/-- Settles O28: the exit needs no chip model and has no failure. -/
theorem slExitStopsLoop : Obligations.SlExitStopsLoop := by
  intro s hm hstop hpoint
  exact (perform_enabled (exitEnabled_iff.2 ⟨hstop, hpoint⟩)).trans (perform_done hm)

/-! ### The push of a pending sample -/

/-- The queue after a push that drops the sample when there is no room (R132, R206). -/
def Queue.offered (c : Nat) (v : Sample) (q : Queue) : Queue := if q.full then q else q.pushed c v

section

variable {q : Queue} {c : Nat} {v : Sample}

theorem Queue.offered_full (hf : q.full = true) : q.offered c v = q := if_pos hf

theorem Queue.offered_room (hf : q.full = false) : q.offered c v = q.pushed c v :=
  if_neg (hf ▸ Bool.false_ne_true)

theorem Queue.push_offered (hc : q.cap = some c) : Queue.push v q = .done (!q.full, q.offered c v) := by
  cases hf : q.full with
  | true => rw [Queue.offered_full hf]; exact Queue.push_full hc hf
  | false => rw [Queue.offered_room hf]; exact Queue.push_room hc hf

end

theorem dropPending_nil {l : Synth} (h : l.pend = []) : dropPending l = { l with phase := .head } := by
  rw [dropPending, h]
  rfl

section

variable {s : State} {c : Nat}

theorem exec_slPush_uninit (hm : owned .slPush s) (halive : s.sl.state ≠ .stopped) (hphase : s.sl.phase = .push)
    (hc : s.sq.cap = none) : exec .slPush s = .refused .queueUninit :=
  (perform_enabled ⟨loopAlive_iff.2 halive, hphase⟩).trans (perform_bind_refused hm (Queue.push_uninit hc))

theorem exec_slPush_init (hm : owned .slPush s) (halive : s.sl.state ≠ .stopped) (hphase : s.sl.phase = .push)
    (hc : s.sq.cap = some c) :
    exec .slPush s = .next ((((firstPending s).2.setSq (s.sq.offered c (firstPending s).1)).setSl
      (dropPending s.sl)).setReport .nothing) :=
  (perform_enabled ⟨loopAlive_iff.2 halive, hphase⟩).trans (perform_bind_done hm (Queue.push_offered hc) rfl)

end

/-- Settles O27: the queue is offered the first pending sample, or a free value where none is pending. -/
theorem slPushMovesPendingSample : Obligations.SlPushMovesPendingSample := by
  intro s hm halive hphase
  refine ⟨exec_slPush_uninit hm halive hphase, fun c hc => ?_⟩
  rw [exec_slPush_init hm halive hphase hc]
  refine ⟨fun v rest hp => ?_, fun hp => ?_⟩
  · rw [firstPending_cons hp, dropPending_cons hp]
    simp only [List.isEmpty_iff]
    refine ⟨fun hf => ?_, fun hf => ⟨s.sq.buf.write s.sq.head v, fun k => Memory.read?_write _ _ k v, ?_⟩⟩
    · rw [Queue.offered_full hf]
      rfl
    · rw [Queue.offered_room hf, ← hc]
      rfl
  · obtain ⟨n, _, hfree⟩ := firstPending_state s
    rw [hfree, dropPending_nil hp]
    refine ⟨(firstPending s).1, s.sq.offered c (firstPending s).1, n, Queue.offered_full, fun hf => ?_, rfl⟩
    rw [Queue.offered_room hf]
    exact ⟨hc, rfl, rfl, rfl, fun k => Memory.read?_write _ _ k _⟩

/-! ### Steps that are not enabled -/

/-- A stall poll is disabled outside STALL and in a STOPPED loop, and with the queue full also by the stop signal. -/
theorem exec_slStall_disabled {s : State} (hm : owned .slStall s)
    (h : ¬ (s.sl.state ≠ .stopped ∧ s.sl.phase = .stall ∧ (s.sl.state = .running ∨ s.sq.full = false))) :
    exec .slStall s = .next (s.setReport .notEnabled) := by
  by_cases hpoll : s.sl.state ≠ .stopped ∧ s.sl.phase = .stall
  · obtain ⟨halive, hphase⟩ := hpoll
    obtain ⟨hrun, hfull⟩ := not_or.1 fun hc => h ⟨halive, hphase, hc⟩
    have hstop : s.sl.state = .stopping := by
      cases hs : s.sl.state with
      | stopped => exact absurd hs halive
      | running => exact absurd hs hrun
      | stopping => rfl
    exact exec_slStall_stopping hm hstop hphase (Bool.eq_true_of_not_eq_false hfull)
  · exact perform_disabled hm fun hg => hpoll ⟨loopAlive_iff.1 hg.1, hg.2⟩

/-- Settles O29: each clause denies the enabling condition of its step; only the stall poll has a second one. -/
theorem stepsNotEnabledChangeNothing : Obligations.StepsNotEnabledChangeNothing := by
  intro s
  refine ⟨fun h hm => perform_disabled hm h, fun h hm => perform_disabled hm h, fun h hm => ?_,
    fun h hm => exec_slStall_disabled hm h, fun h hm => ?_, fun h hm => ?_,
    fun hfault h hm => perform_unlessFault_disabled hfault hm h,
    fun hfault h hm => perform_unlessFault_disabled hfault hm h, fun hfault h hm => ?_,
    fun hfault h hm => perform_unlessFault_disabled hfault hm h, fun w h hm => ?_⟩
  · exact perform_disabled hm fun hg => h ⟨loopAlive_iff.1 hg.1, hg.2⟩
  · exact perform_disabled hm fun hg => h ⟨loopAlive_iff.1 hg.1, hg.2⟩
  · exact perform_disabled hm (mt exitEnabled_iff.1 h)
  · refine perform_unlessFault_disabled hfault hm fun hg => ?_
    obtain ⟨hfill, hloaded⟩ := hg
    obtain hphase | hnone := h
    · exact hphase hfill
    · rw [hnone] at hloaded
      exact Bool.noConfusion hloaded
  · exact perform_disabled hm (Bool.eq_false_iff.1 h)

end Sys2Proof.Machine
end

section
/-!
SUPPORT. `DEV.LOAD` and `DEV.UNLOAD`, answer by answer (44_device.md R231 to R236): a draw by the environment it reads,
the admission of a load, the state that each ending of a load leaves, and from them what the two step words answer to
an issuer that owns them.
-/

namespace Sys2Proof.Machine

open Sys2Proof.Claims

/-! ### A held body, draws, and the initialisation of the queue -/

theorem perform_bind_held {α : Type} {i : Instr} {s : State} {x : Act α} {k : α → Act (Report × State)} {h : Hold}
    (hm : owned i s) (hx : x = .held h) : perform i s (x.bind k) = .next (s.setReport (.held h)) := by
  rw [hx, Act.bind_held_eq]
  exact perform_held hm

section

variable {s t : State} {m : Nat} {cap : BitVec 32} {q : Queue}

/-- A draw reads and writes the environment alone, so it is that of any state with the same environment. -/
theorem drawBool_of_env_eq (h : s.env = t.env) : drawBool s = ((drawBool t).1, s.setEnv (drawBool t).2.env) := by
  unfold drawBool
  rw [h]
  cases t.env.bools <;> rfl

theorem drawByte_of_env_eq (h : s.env = t.env) : drawByte s = ((drawByte t).1, s.setEnv (drawByte t).2.env) := by
  unfold drawByte
  rw [h]
  cases t.env.bytes <;> rfl

/-- The queue after a `Q.INIT` that succeeded (R131). -/
def Queue.initialised (cap : BitVec 32) (q : Queue) : Queue :=
  { q with cap := some cap.toNat, head := 0, tail := 0, full := false }

theorem Queue.init_good (h : goodCapacity m cap) : Queue.init m cap q = (true, q.initialised cap) :=
  if_pos (capAdmitted_iff.2 h)

theorem Queue.init_bad (h : ¬ goodCapacity m cap) : Queue.init m cap q = (false, q) :=
  if_neg (mt capAdmitted_iff.1 h)

end

/-! ### A load of each kind of family -/

section

variable {f : Family} {s : State}

theorem loadFamily_sync (hsl : hasSL s.cfg f = false) : loadFamily f s = .done (loadSync f s) :=
  if_neg (hsl ▸ Bool.false_ne_true)

theorem loadFamily_synth (hsl : hasSL s.cfg f = true) (h : ¬ chipCreateRefused f s = true) :
    loadFamily f s = .done (loadSynth f s) := by
  rw [loadFamily, if_pos hsl, if_neg h]

theorem loadFamily_refused (hsl : hasSL s.cfg f = true) (h : chipCreateRefused f s = true) :
    loadFamily f s = .refused .precondition := by
  rw [loadFamily, if_pos hsl, if_pos h]

/-- A load reaches `CM.CREATE` where `acquire` and `Q.INIT` succeed; there a stray chip model refuses it (log 16). -/
theorem chipCreateRefused_iff (hstop : s.sl.state = .stopped) :
    chipCreateRefused f s = true ↔
      s.sl.chip ≠ none ∧ (prepareLoop f s).1 = true ∧ (prepareLoop f s).2.1 = true := by
  have hcreatable : chipCreatable s = false ↔ s.sl.chip ≠ none := by
    rw [← Bool.not_eq_true, chipCreatable_iff]
    simp [hstop]
  rw [chipCreateRefused, Bool.and_eq_true, Bool.and_eq_true, Bool.not_eq_true', hcreatable, and_assoc]

/-- R301: the load of any family whose `acquire` fails. -/
theorem loadFamily_notAcquired (hstop : s.sl.state = .stopped) (hdraw : (drawBool s).1 = false) :
    loadFamily f s = .done (false, (raiseCause .resourceExhausted s).setEnv (drawBool s).2.env) := by
  have hraise : raiseCause .resourceExhausted (drawBool s).2 =
      (raiseCause .resourceExhausted s).setEnv (drawBool s).2.env := by
    rw [drawBool_state]
    rfl
  rw [← hraise]
  cases hsl : hasSL s.cfg f with
  | false => rw [loadFamily_sync hsl]; simp [loadSync, hdraw]
  | true =>
    have hunreached : ¬ chipCreateRefused f s = true := by
      simp [chipCreateRefused_iff hstop, prepareLoop_failed hdraw]
    rw [loadFamily_synth hsl hunreached]
    simp [loadSynth, prepareLoop_failed hdraw]

/-- R233: the load of a synchronous family that acquires the resource. -/
theorem loadFamily_sync_acquired (hsl : hasSL s.cfg f = false) (hdraw : (drawBool s).1 = true) :
    loadFamily f s = .done (true, (openSampling (claimDevice f s)).setEnv (drawBool s).2.env) := by
  have hopen : openSampling (claimDevice f (drawBool s).2) =
      (openSampling (claimDevice f s)).setEnv (drawBool s).2.env := by
    rw [drawBool_state]
    rfl
  rw [loadFamily_sync hsl, ← hopen]
  simp [loadSync, hdraw]

end

/-! ### A load of an SL family that acquires the resource -/

/-- The state in which a load whose `Q.INIT` leaves the queue `q` goes on: the first draw taken, the resource claimed
and the decoder wired (R232 sub-steps 1 to 3). -/
def claimedWith (f : Family) (q : Queue) (s : State) : State :=
  ((claimDevice f s).setSq q).setEnv (drawBool s).2.env

section

variable {f : Family} {s t : State}

/-- R33: the two latches are the next two byte draws. -/
theorem startLoop_of_env_eq (h : s.env = t.env) :
    startLoop f s = ((openSampling s).setSl
      { state := .running, phase := .head, fam := f, curReg0 := (drawByte t).1,
        curReg1 := (drawByte (drawByte t).2).1, chip := s.sl.chip, pend := [] }).setEnv
      (drawByte (drawByte t).2).2.env := by
  have hsecond : drawByte (s.setEnv (drawByte t).2.env) =
      ((drawByte (drawByte t).2).1, s.setEnv (drawByte (drawByte t).2).2.env) :=
    drawByte_of_env_eq rfl
  simp only [startLoop, drawByte_of_env_eq h, hsecond]
  rfl

theorem chipCreate_of_env_eq (h : s.env = t.env) :
    chipCreate f s =
      if (drawBool t).1 then
        (true, (s.setSl { s.sl with chip := some (chipNew s.cfg f) }).setEnv (drawBool t).2.env)
      else (false, s.setEnv (drawBool t).2.env) := by
  rw [chipCreate, drawBool_of_env_eq h]
  rfl

theorem claimedWith_env (f : Family) (q : Queue) (s : State) : (claimedWith f q s).env = (drawBool s).2.env := rfl

variable (hacquired : (drawBool s).1 = true)

include hacquired

theorem prepareLoop_bad (hcap : ¬ goodCapacity s.cfg.cMax (familyConfig s.cfg f).cap) :
    prepareLoop f s = (true, false, claimedWith f s.sq s) := by
  rw [prepareLoop_acquired hacquired, Queue.init_bad hcap, drawBool_state]
  rfl

theorem prepareLoop_good (hcap : goodCapacity s.cfg.cMax (familyConfig s.cfg f).cap) :
    prepareLoop f s = (true, true, claimedWith f (s.sq.initialised (familyConfig s.cfg f).cap) s) := by
  rw [prepareLoop_acquired hacquired, Queue.init_good hcap, drawBool_state]
  rfl

/-- R232: a load whose `Q.INIT` fails does not reach `CM.CREATE`. -/
theorem loadFamily_badCapacity (hsl : hasSL s.cfg f = true) (hstop : s.sl.state = .stopped)
    (hcap : ¬ goodCapacity s.cfg.cMax (familyConfig s.cfg f).cap) :
    loadFamily f s = .done (failLoad .initFailure (claimedWith f s.sq s)) := by
  have hunreached : ¬ chipCreateRefused f s = true := by
    simp [chipCreateRefused_iff hstop, prepareLoop_bad hacquired hcap]
  rw [loadFamily_synth hsl hunreached]
  simp [loadSynth, prepareLoop_bad hacquired hcap]

theorem loadFamily_strayChip (hsl : hasSL s.cfg f = true) (hstop : s.sl.state = .stopped)
    (hcap : goodCapacity s.cfg.cMax (familyConfig s.cfg f).cap) (hchip : s.sl.chip ≠ none) :
    loadFamily f s = .refused .precondition := by
  refine loadFamily_refused hsl ((chipCreateRefused_iff hstop).2 ⟨hchip, ?_⟩)
  rw [prepareLoop_good hacquired hcap]
  exact ⟨rfl, rfl⟩

/-- R232: past `Q.INIT` and beside no chip model, the load goes by the second draw. -/
theorem loadFamily_create (hsl : hasSL s.cfg f = true) (hstop : s.sl.state = .stopped)
    (hcap : goodCapacity s.cfg.cMax (familyConfig s.cfg f).cap) (hchip : s.sl.chip = none) {u : State}
    (hu : u = claimedWith f (s.sq.initialised (familyConfig s.cfg f).cap) s) :
    loadFamily f s = .done (if (chipCreate f u).1 then (true, startLoop f (chipCreate f u).2)
      else failLoad .initFailure (chipCreate f u).2) := by
  have hadmitted : ¬ chipCreateRefused f s = true := by simp [chipCreateRefused_iff hstop, hchip]
  rw [loadFamily_synth hsl hadmitted, hu]
  simp [loadSynth, prepareLoop_good hacquired hcap]

theorem loadFamily_notConstructed (hsl : hasSL s.cfg f = true) (hstop : s.sl.state = .stopped)
    (hcap : goodCapacity s.cfg.cMax (familyConfig s.cfg f).cap) (hchip : s.sl.chip = none)
    (hdraw : (drawBool (drawBool s).2).1 = false) :
    loadFamily f s = .done (failLoad .initFailure
      ((claimedWith f (s.sq.initialised (familyConfig s.cfg f).cap) s).setEnv (drawBool (drawBool s).2).2.env)) := by
  rw [loadFamily_create hacquired hsl hstop hcap hchip rfl, chipCreate_of_env_eq (claimedWith_env f _ s), hdraw]
  rfl

theorem loadFamily_started (hsl : hasSL s.cfg f = true) (hstop : s.sl.state = .stopped)
    (hcap : goodCapacity s.cfg.cMax (familyConfig s.cfg f).cap) (hchip : s.sl.chip = none)
    (hdraw : (drawBool (drawBool s).2).1 = true) (ht : t = (drawBool (drawBool s).2).2) :
    loadFamily f s = .done (true,
      ((openSampling (claimedWith f (s.sq.initialised (familyConfig s.cfg f).cap) s)).setSl
        { state := .running, phase := .head, fam := f, curReg0 := (drawByte t).1,
          curReg1 := (drawByte (drawByte t).2).1, chip := some (chipNew s.cfg f), pend := [] }).setEnv
        (drawByte (drawByte t).2).2.env) := by
  rw [loadFamily_create hacquired hsl hstop hcap hchip rfl, chipCreate_of_env_eq (claimedWith_env f _ s), hdraw, ← ht]
  exact congrArg (fun u => Act.done (true, u)) (startLoop_of_env_eq rfl)

end

/-! ### `DEV.LOAD` -/

section

variable {i : Nat} {k : BitVec 3} {f : Family} {s u : State} {ok : Bool}

theorem devTabEntry_of_lt (h : i < nDev s.cfg) : ∃ f, devTabEntry s.cfg i = some f :=
  ⟨_, List.getElem?_eq_getElem h⟩

theorem deviceLoad_badIndex (h : nDev s.cfg ≤ i) : deviceLoad i s = .refused .badIndex := by
  have hf : devTabEntry s.cfg i = none := List.getElem?_eq_none h
  rw [deviceLoad, hf]

theorem deviceLoad_held (hf : devTabEntry s.cfg i = some f) (hrun : s.sl.state ≠ .stopped) :
    deviceLoad i s = .held .loopNotStopped := by
  rw [deviceLoad, hf]
  exact if_pos hrun

theorem deviceLoad_precondition (hf : devTabEntry s.cfg i = some f) (hstop : s.sl.state = .stopped)
    (hloaded : s.dm.current ≠ none ∨ s.dev.handle = .acquired) : deviceLoad i s = .refused .precondition := by
  have hpre : (s.dm.current.isSome || decide (s.dev.handle = .acquired)) = true := by
    rwa [Bool.or_eq_true, Option.isSome_iff_ne_none, decide_eq_true_iff]
  rw [deviceLoad, hf]
  exact (if_neg (not_not_intro hstop)).trans (if_pos hpre)

theorem deviceLoad_admitted (hf : devTabEntry s.cfg i = some f) (hstop : s.sl.state = .stopped)
    (hcurrent : s.dm.current = none) (hhandle : s.dev.handle = .none) : deviceLoad i s = loadFamily f s := by
  have hpre : ¬ (s.dm.current.isSome || decide (s.dev.handle = .acquired)) = true := by simp [hcurrent, hhandle]
  rw [deviceLoad, hf]
  exact (if_neg (not_not_intro hstop)).trans (if_neg hpre)

theorem exec_devLoad_done (hm : owned (.devLoad k) s) (h : deviceLoad k.toNat s = .done (ok, u)) :
    exec (.devLoad k) s = .next (u.setReport (.returned ok none)) :=
  perform_bind_done hm h rfl

end

/-- Settles O34: the three tests of `DEV.LOAD` in their order. -/
theorem loadAdmission : Obligations.LoadAdmission := by
  intro k s hm
  refine ⟨fun hbad => perform_bind_refused hm (deviceLoad_badIndex hbad), fun hgood => ?_⟩
  obtain ⟨f, hf⟩ := devTabEntry_of_lt hgood
  exact ⟨fun hrun => perform_bind_held hm (deviceLoad_held hf hrun),
    fun hstop hloaded => perform_bind_refused hm (deviceLoad_precondition hf hstop hloaded)⟩

/-- Settles O31: every draw of the load succeeds. -/
theorem loadStartsSynthesisLoop : Obligations.LoadStartsSynthesisLoop := by
  intro k f s hm hf hsl hcurrent hhandle hstop hchip hcap hacquired hconstructed s2 s3
  exact exec_devLoad_done hm ((deviceLoad_admitted hf hstop hcurrent hhandle).trans
    (loadFamily_started hacquired hsl hstop hcap hchip hconstructed rfl))

/-- Settles O32: the endings in the order in which a load reaches them: `acquire`, `Q.INIT`, and `CM.CREATE` with its
draw and its precondition. -/
theorem failedLoadReleasesEverything : Obligations.FailedLoadReleasesEverything := by
  intro k f s hm hf hcurrent hhandle hstop
  have hload : deviceLoad k.toNat s = loadFamily f s := deviceLoad_admitted hf hstop hcurrent hhandle
  refine ⟨fun hdraw => ?_, fun hsl hacquired => ⟨fun hcap => ?_, fun hcap hchip hdraw => ?_, fun hcap hchip => ?_⟩⟩
  · exact exec_devLoad_done hm (hload.trans (loadFamily_notAcquired hstop hdraw))
  · exact exec_devLoad_done hm (hload.trans (loadFamily_badCapacity hacquired hsl hstop hcap))
  · exact exec_devLoad_done hm (hload.trans (loadFamily_notConstructed hacquired hsl hstop hcap hchip hdraw))
  · exact perform_bind_refused hm (hload.trans (loadFamily_strayChip hacquired hsl hstop hcap hchip))

/-- Settles O33: the one draw of a synchronous load succeeds. -/
theorem loadSynchronousFamily : Obligations.LoadSynchronousFamily := by
  intro k f s hm hf hsl hcurrent hhandle hstop hdraw
  exact exec_devLoad_done hm ((deviceLoad_admitted hf hstop hcurrent hhandle).trans
    (loadFamily_sync_acquired hsl hdraw))

/-! ### `DEV.UNLOAD` -/

section

variable {s : State}

theorem deviceUnload_loaded {i : Nat} (hcurrent : s.dm.current = some i) (hhandle : s.dev.handle = .acquired) :
    deviceUnload s = .done (unloadDevice s) := by
  simp [deviceUnload, hcurrent, hhandle]

theorem deviceUnload_precondition (h : s.dm.current = none ∨ s.dev.handle = .none) :
    deviceUnload s = .refused .precondition := by
  obtain h | h := h <;> simp [deviceUnload, h]

end

/-- Settles O35. -/
theorem unloadReleasesDevice : Obligations.UnloadReleasesDevice := by
  intro s i hm hcurrent hhandle
  have hunload := deviceUnload_loaded hcurrent hhandle
  rw [unloadDevice_eq] at hunload
  exact perform_bind_done hm hunload rfl

end Sys2Proof.Machine
end

section
/-!
SUPPORT. `DEV.GEN`, answer by answer (44_device.md R240 to R245): the 8-bit conversion, the rule that the loaded family
selects, a synchronous family with and without a pending word, the pops of a queue-fed family from a sound queue, and
from them what the step word answers to an issuer that owns it.
-/

namespace Sys2Proof.Machine

open Sys2Proof.Claims

/-! ### The rule that the loaded family selects -/

section

variable {s u : State} {f : Family} {l r : Sample}

theorem deviceGen_unloaded (h : loadedFamily s = none) : deviceGen s = .refused .precondition := by
  rw [deviceGen, h]

theorem deviceGen_queueMono (hf : loadedFamily s = some f) (hsl : hasSL s.cfg f = true)
    (hnch : (familyConfig s.cfg f).nch = .mono) : deviceGen s = genQueueMono s := by
  simp [deviceGen, hf, hsl, hnch]

theorem deviceGen_queueStereo (hf : loadedFamily s = some f) (hsl : hasSL s.cfg f = true)
    (hnch : (familyConfig s.cfg f).nch = .stereo) : deviceGen s = genQueueStereo s := by
  simp [deviceGen, hf, hsl, hnch]

theorem deviceGen_syncMono (hf : loadedFamily s = some f) (hne : f ≠ .stereoOnOne) (hsl : hasSL s.cfg f = false) :
    deviceGen s = .done (genSyncMono f s) := by
  cases f with
  | stereoOnOne => exact absurd rfl hne
  | _ => simp [deviceGen, hf, hsl]

theorem deviceGen_syncStereo (hf : loadedFamily s = some .stereoOnOne) (hsl : hasSL s.cfg .stereoOnOne = false) :
    deviceGen s = .done (genSyncStereo .stereoOnOne s) := by
  simp [deviceGen, hf, hsl]

/-- R103: the value of `DEV.GEN` has the left sample below the right one. -/
theorem exec_devGen_pair (hm : owned .devGen s) (h : deviceGen s = .done (.pair l r, u)) :
    exec .devGen s = .next (u.setReport (.returned true (some (r ++ l)))) :=
  perform_bind_done hm h rfl

theorem exec_devGen_leftOnly (hm : owned .devGen s) (h : deviceGen s = .done (.leftOnly, u)) :
    exec .devGen s = .next (u.setReport .unfinished) :=
  perform_bind_done hm h rfl

theorem exec_devGen_held {x : Hold} (hm : owned .devGen s) (h : deviceGen s = .held x) :
    exec .devGen s = .next (s.setReport (.held x)) :=
  perform_bind_held hm h

end

/-- Settles O36: the precondition of each of the two operations. -/
theorem unloadAndGenerateNeedDevice : Obligations.UnloadAndGenerateNeedDevice := by
  intro s
  refine ⟨fun h hm => perform_bind_refused hm (deviceUnload_precondition h), fun hcurrent hhandle hm => ?_⟩
  have hunloaded : loadedFamily s = none := by simp [loadedFamily, hcurrent, hhandle]
  exact perform_bind_refused hm (deviceGen_unloaded hunloaded)

/-! ### The 8-bit conversion -/

/-- Settles O41: the re-centred payload fits in 8 signed bits, so the shift by 8 loses nothing. -/
theorem conv8RecentresAndScales : Obligations.Conv8RecentresAndScales := by
  intro p
  have hp := p.isLt
  have hnat : (conv8 p).toNat = (p.toNat + 65408) % 65536 * 256 % 65536 := by
    simp only [conv8, BitVec.toNat_shiftLeft, BitVec.toNat_sub, BitVec.toNat_ofNat, BitVec.toNat_setWidth,
      Nat.shiftLeft_eq]
    omega
  rw [BitVec.toInt_eq_toNat_cond, hnat]
  split <;> omega

theorem conv8_eq_ofInt (p : Byte) : conv8 p = BitVec.ofInt 16 (((p.toNat : Int) - 128) * 256) := by
  rw [← conv8RecentresAndScales p, BitVec.ofInt_toInt]

/-- R240, R111: the sample that a synchronous family makes of a word. -/
theorem conv8_busDecode (c : Config) (f : Family) (w : BusWord) :
    conv8 (busDecode c f w).payload =
      BitVec.ofInt 16 ((((payloadOf (familyConfig c f) w).toNat : Int) - 128) * 256) := by
  rw [busDecode_eq_tableRow, tableRow_payload, payloadField_eq_payloadOf, conv8_eq_ofInt]

/-! ### A synchronous family -/

section

variable {s : State} {f : Family} {w : BusWord} {rest : List BusWord}

theorem takeWord_idle (h : s.dev.handle = .none ∨ s.bsr.pending = []) : takeWord s = none :=
  takeWord_none.2 (wordPending_eq_false_iff.2 h)

theorem genSyncMono_word (h : takeWord s = some (w, s.setBsr { pending := rest })) :
    genSyncMono f s =
      (.pair (conv8 (busDecode s.cfg f w).payload) (conv8 (busDecode s.cfg f w).payload),
        (s.setBsr { pending := rest }).setDev { s.dev with holdL := conv8 (busDecode s.cfg f w).payload }) := by
  rw [genSyncMono, h]
  rfl

theorem genSyncMono_idle (h : takeWord s = none) :
    genSyncMono f s =
      (.pair (if (familyConfig s.cfg f).hold then s.dev.holdL else 0#16)
        (if (familyConfig s.cfg f).hold then s.dev.holdL else 0#16), s) := by
  rw [genSyncMono, h]

end

/-- Settles O37: a word under a held handle, or none. -/
theorem generateSynchronousMono : Obligations.GenerateSynchronousMono := by
  intro s f hm hf hmem hsl
  have hne : f ≠ .stereoOnOne := by rintro rfl; exact absurd hmem (by decide)
  have hgen := deviceGen_syncMono hf hne hsl
  refine ⟨fun w rest hhandle hpending => ?_, fun hidle => ?_⟩
  · rw [genSyncMono_word (takeWord_pending hhandle hpending), conv8_busDecode] at hgen
    exact exec_devGen_pair hm hgen
  · rw [genSyncMono_idle (takeWord_idle hidle)] at hgen
    exact exec_devGen_pair hm hgen

section

variable {s : State} {w : BusWord} {rest : List BusWord}

theorem busDecode_stereoOnOne_chan (c : Config) (w : BusWord) :
    (busDecode c .stereoOnOne w).chan = logicalA c.stereoOnOne w := rfl

/-- R242: a word for the left channel; the right one holds. -/
theorem genSyncStereo_left (h : takeWord s = some (w, s.setBsr { pending := rest }))
    (hchan : logicalA s.cfg.stereoOnOne w = false) :
    genSyncStereo .stereoOnOne s =
      (.pair (conv8 (busDecode s.cfg .stereoOnOne w).payload)
        (if s.cfg.stereoOnOne.hold then s.dev.holdR else 0#16),
        (s.setBsr { pending := rest }).setDev
          { s.dev with holdL := conv8 (busDecode s.cfg .stereoOnOne w).payload }) := by
  rw [← busDecode_stereoOnOne_chan] at hchan
  simp only [genSyncStereo, h, State.setBsr_cfg, hchan]
  rfl

/-- R242: a word for the right channel; the left one holds. -/
theorem genSyncStereo_right (h : takeWord s = some (w, s.setBsr { pending := rest }))
    (hchan : logicalA s.cfg.stereoOnOne w = true) :
    genSyncStereo .stereoOnOne s =
      (.pair (if s.cfg.stereoOnOne.hold then s.dev.holdL else 0#16)
        (conv8 (busDecode s.cfg .stereoOnOne w).payload),
        (s.setBsr { pending := rest }).setDev
          { s.dev with holdR := conv8 (busDecode s.cfg .stereoOnOne w).payload }) := by
  rw [← busDecode_stereoOnOne_chan] at hchan
  simp only [genSyncStereo, h, State.setBsr_cfg, hchan]
  rfl

theorem genSyncStereo_idle (h : takeWord s = none) :
    genSyncStereo .stereoOnOne s =
      (.pair (if s.cfg.stereoOnOne.hold then s.dev.holdL else 0#16)
        (if s.cfg.stereoOnOne.hold then s.dev.holdR else 0#16), s) := by
  rw [genSyncStereo, h]
  rfl

end

/-- Settles O38: a word for either channel, or none. -/
theorem generateSynchronousStereo : Obligations.GenerateSynchronousStereo := by
  intro s hm hf hsl held
  have hgen := deviceGen_syncStereo hf hsl
  refine ⟨fun w rest hhandle hpending => ?_, fun hidle => ?_⟩
  · have htake := takeWord_pending hhandle hpending
    refine ⟨fun hchan => ?_, fun hchan => ?_⟩
    · rw [genSyncStereo_left htake hchan, conv8_busDecode] at hgen
      exact exec_devGen_pair hm hgen
    · rw [genSyncStereo_right htake hchan, conv8_busDecode] at hgen
      exact exec_devGen_pair hm hgen
  · rw [genSyncStereo_idle (takeWord_idle hidle)] at hgen
    exact exec_devGen_pair hm hgen

/-! ### The pops of a queue-fed family -/

section

variable {q : Queue} {m c : Nat}

theorem Queue.sound.isEmpty_iff (h : q.sound m) (hc : q.cap = some c) : q.isEmpty = true ↔ q.count = 0 := by
  obtain ⟨_, w, _⟩ := h.window hc
  exact w.isEmpty_iff

theorem Queue.sound.isEmpty_eq_false (h : q.sound m) (hc : q.cap = some c) (hn : q.count ≠ 0) : q.isEmpty = false :=
  Bool.eq_false_iff.2 (mt (h.isEmpty_iff hc).1 hn)

/-- R133: a pop takes one sample off a queue that holds any. -/
theorem Queue.sound.count_popped (h : q.sound m) (hc : q.cap = some c) (hn : q.count ≠ 0) :
    (q.popped c).count = q.count - 1 := by
  obtain ⟨_, w, _⟩ := h.window hc
  obtain ⟨n, hn⟩ := Nat.exists_eq_succ_of_ne_zero hn
  rw [hn] at w ⊢
  exact w.popped.count_eq hc

theorem Queue.popped_popped (q : Queue) (c : Nat) :
    (q.popped c).popped c = { q with tail := (q.tail + 2) % c, full := false } := by
  simp [Queue.popped, Nat.add_assoc]

end

section

variable {s : State} {c : Nat} {l r : Sample}

theorem popOrHold_oldest (hc : s.sq.cap = some c) (he : s.sq.isEmpty = false)
    (hv : s.sq.buf.read? s.sq.tail = some l) : popOrHold s = .done (l, s.setSq (s.sq.popped c)) := by
  rw [popOrHold_some hc he, Memory.read_of_read? _ _ _ _ hv]
  rfl

theorem genQueueMono_oldest (hc : s.sq.cap = some c) (he : s.sq.isEmpty = false)
    (hv : s.sq.buf.read? s.sq.tail = some l) :
    genQueueMono s = .done (.pair l l, s.setSq (s.sq.popped c)) := by
  rw [genQueueMono, popOrHold_oldest hc he hv]
  rfl

theorem genRight_oldest (hc : s.sq.cap = some c) (he : s.sq.isEmpty = false)
    (hv : s.sq.buf.read? s.sq.tail = some r) :
    genRight s = .done (.pair s.ol.tmpL r, (s.setSq (s.sq.popped c)).setOl { s.ol with chan := false }) := by
  rw [genRight, popOrHold_oldest hc he hv]
  rfl

theorem genQueueMono_empty (he : s.sq.isEmpty = true) : genQueueMono s = .held .queueEmpty := by
  rw [genQueueMono, popOrHold_empty he]
  rfl

/-- R244: either pop of a stereo family holds on an empty queue. -/
theorem genQueueStereo_empty (he : s.sq.isEmpty = true) : genQueueStereo s = .held .queueEmpty := by
  rw [genQueueStereo, genRight, popOrHold_empty he]
  exact ite_self _

theorem genQueueStereo_owed (hchan : s.ol.chan = true) : genQueueStereo s = genRight s := if_pos hchan

/-- The state after the left pop of a stereo family (R245). -/
def afterLeft (c : Nat) (l : Sample) (s : State) : State :=
  (s.setSq (s.sq.popped c)).setOl { s.ol with tmpL := l, chan := true }

/-- R245: after its left pop a stereo family goes by the queue that is left. -/
theorem genQueueStereo_left (hchan : s.ol.chan = false) (hc : s.sq.cap = some c) (he : s.sq.isEmpty = false)
    (hv : s.sq.buf.read? s.sq.tail = some l) :
    genQueueStereo s =
      if (s.sq.popped c).isEmpty then .done (.leftOnly, afterLeft c l s) else genRight (afterLeft c l s) := by
  rw [genQueueStereo, popOrHold_oldest hc he hv, hchan]
  rfl

/-- R245: after both pops two samples are taken, and no right sample is owed, as before. -/
theorem afterLeft_right (hchan : s.ol.chan = false) :
    ((afterLeft c l s).setSq ((afterLeft c l s).sq.popped c)).setOl { (afterLeft c l s).ol with chan := false } =
      (s.setSq { s.sq with tail := (s.sq.tail + 2) % c, full := false }).setOl { s.ol with tmpL := l } := by
  have hol : { s.ol with tmpL := l, chan := false } = { s.ol with tmpL := l } := by rw [← hchan]
  rw [← hol, ← Queue.popped_popped]
  rfl

end

/-- Settles O39. -/
theorem generateQueueMono : Obligations.GenerateQueueMono := by
  intro s f hm hf hsl hnch
  have hgen := deviceGen_queueMono hf hsl hnch
  refine ⟨fun c v hc hn hsound hv => ?_, fun hht hfull => ?_⟩
  · exact exec_devGen_pair hm (hgen.trans (genQueueMono_oldest hc (hsound.isEmpty_eq_false hc hn) hv))
  · have hempty : s.sq.isEmpty = true := (Queue.isEmpty_eq_decide _).trans (decide_eq_true ⟨hht, hfull⟩)
    exact exec_devGen_held hm (hgen.trans (genQueueMono_empty hempty))

/-- Settles O40: no sample; the owed right one; the left one alone; both. -/
theorem generateQueueStereo : Obligations.GenerateQueueStereo := by
  intro s c f hm hf hsl hnch hsound hc
  have hgen := deviceGen_queueStereo hf hsl hnch
  refine ⟨fun hn => ?_, fun v hchan hn hv => ?_, fun l hchan hn hl => ?_, fun l r hchan hn hl hr => ?_⟩
  · exact exec_devGen_held hm (hgen.trans (genQueueStereo_empty ((hsound.isEmpty_iff hc).2 hn)))
  · rw [genQueueStereo_owed hchan, genRight_oldest hc (hsound.isEmpty_eq_false hc hn) hv] at hgen
    exact exec_devGen_pair hm hgen
  · have hne : s.sq.isEmpty = false := hsound.isEmpty_eq_false hc (by omega)
    have hlast : (s.sq.popped c).isEmpty = true :=
      ((hsound.popped hc hne).isEmpty_iff hc).2 (by rw [hsound.count_popped hc (by omega), hn])
    rw [genQueueStereo_left hchan hc hne hl, if_pos hlast] at hgen
    exact exec_devGen_leftOnly hm hgen
  · have hne : s.sq.isEmpty = false := hsound.isEmpty_eq_false hc (by omega)
    have hmore : (s.sq.popped c).isEmpty = false :=
      (hsound.popped hc hne).isEmpty_eq_false hc (by rw [hsound.count_popped hc (by omega)]; omega)
    have hright := genRight_oldest (s := afterLeft c l s) hc hmore hr
    rw [genQueueStereo_left hchan hc hne hl, if_neg (by simp [hmore]), hright] at hgen
    rw [exec_devGen_pair hm hgen, afterLeft_right hchan]
    rfl

end Sys2Proof.Machine
end

section
/-!
SUPPORT. The Output Loop's steps around the frame and the external agents' steps, answer by answer (45_output_loop.md
R261 to R267, R281 to R283): an Output Loop step in FAULT and in the phase that enables it, the three outcomes that the
hot-swap sequence makes of a load, and from them what each step answers to an issuer that owns it.
-/

namespace Sys2Proof.Machine

/-! ### An Output Loop step by its phase -/

section

variable {i : Instr} {s : State} {a : Act (Report × State)}

/-- R267, R305: in FAULT every Output Loop step is stuck, whatever its body. -/
theorem perform_unlessFault_fault (hm : owned i s) (hphase : s.ol.phase = .fault) :
    perform i s (unlessFault s a) = .fault .outputLoopStuck := by
  rw [unlessFault, if_pos hphase]
  exact perform_stuck hm

/-- Outside FAULT an Output Loop step whose enabling condition is met is its own body. -/
theorem perform_unlessFault_enabled {p : Prop} [Decidable p] (hfault : s.ol.phase ≠ .fault) (h : p) :
    perform i s (unlessFault s (if p then a else .notEnabled)) = perform i s a := by
  rw [unlessFault, if_neg hfault]
  exact perform_enabled h

end

/-- Settles O47: each of the four step words is a `perform` under `unlessFault`. -/
theorem outputLoopStuckInFault : Obligations.OutputLoopStuckInFault := by
  intro i s hmem hm hphase
  simp only [List.mem_cons, List.not_mem_nil, or_false] at hmem
  obtain rfl | rfl | rfl | rfl := hmem <;> exact perform_unlessFault_fault hm hphase

/-! ### `OL.SWAPCHK` with a device current -/

section

variable {s : State} {i : Nat}

theorem outPhase_ne_fault {p : OutPhase} (hphase : s.ol.phase = p) (hp : p ≠ .fault) : s.ol.phase ≠ .fault :=
  hphase ▸ hp

theorem swapPending_of_current (hcurrent : s.dm.current = some i) : swapPending s = decide (i ≠ s.dm.wanted) := by
  simp [swapPending, hcurrent]

/-- R261, R262: with a device current, whether a swap is pending decides. -/
theorem exec_olSwapchk_current (hphase : s.ol.phase = .swap) (hcurrent : s.dm.current = some i) :
    exec .olSwapchk s = perform .olSwapchk s
      (if swapPending s then ran ((unloadDevice s).setDm { s.dm with current := none })
        else ran (setOutPhase .getblk s)) := by
  refine (perform_unlessFault_enabled (outPhase_ne_fault hphase OutPhase.noConfusion) hphase).trans ?_
  rw [hcurrent]

end

/-- Settles O42. -/
theorem swapchkKeepsOrUnloads : Obligations.SwapchkKeepsOrUnloads := by
  intro s i hm hphase hcurrent
  rw [exec_olSwapchk_current hphase hcurrent, swapPending_of_current hcurrent]
  refine ⟨fun hwanted => ?_, fun hother => ?_⟩
  · rw [if_neg (by simp [hwanted])]
    exact perform_done hm
  · rw [if_pos (decide_eq_true hother), unloadDevice_eq]
    exact perform_done hm

/-! ### `OL.SWAPCHK` with no device current -/

section

variable {s u : State} {i : Nat} {ok : Bool}

theorem exec_olSwapchk_none (hphase : s.ol.phase = .swap) (hcurrent : s.dm.current = none) :
    exec .olSwapchk s = perform .olSwapchk s
      ((deviceLoad s.dm.wanted s).bind fun r => ran (afterLoad s.dm.wanted r.1 r.2)) := by
  refine (perform_unlessFault_enabled (outPhase_ne_fault hphase OutPhase.noConfusion) hphase).trans ?_
  rw [hcurrent]

theorem exec_olSwapchk_loaded (hm : owned .olSwapchk s) (hphase : s.ol.phase = .swap)
    (hcurrent : s.dm.current = none) (hload : deviceLoad s.dm.wanted s = .done (ok, u)) :
    exec .olSwapchk s = .next ((afterLoad s.dm.wanted ok u).setReport .nothing) :=
  (exec_olSwapchk_none hphase hcurrent).trans (perform_bind_done hm hload rfl)

/-- R320: whoever may execute `OL.SWAPCHK` may execute the load inside it. -/
theorem owned_devLoad_of_olSwapchk (hm : owned .olSwapchk s) (k : BitVec 3) : owned (.devLoad k) s := by
  unfold owned mayExecute at hm ⊢
  cases hissuer : s.env.issuer <;> rw [hissuer] at hm
  case harness | outputLoop => rfl
  all_goals exact Bool.noConfusion hm

/-- R231: with nothing loaded, no chip model and the loop STOPPED, a load ends, with success or without. -/
theorem deviceLoad_ends (hi : i < nDev s.cfg) (hcurrent : s.dm.current = none) (hstop : s.sl.state = .stopped)
    (hhandle : s.dev.handle = .none) (hchip : s.sl.chip = none) : ∃ ok u, deviceLoad i s = .done (ok, u) := by
  obtain ⟨f, hf⟩ := devTabEntry_of_lt hi
  rw [deviceLoad_admitted hf hstop hcurrent hhandle]
  cases hsl : hasSL s.cfg f with
  | false => exact ⟨_, _, loadFamily_sync hsl⟩
  | true =>
    have hadmitted : ¬ chipCreateRefused f s = true := by simp [chipCreateRefused_iff hstop, hchip]
    exact ⟨_, _, loadFamily_synth hsl hadmitted⟩

/-- R231: `DM` and `OL` are not the load's to write. -/
theorem deviceLoad_dm_ol (hload : deviceLoad i s = .done (ok, u)) : u.dm = s.dm ∧ u.ol = s.ol := by
  obtain ⟨_, _, _, _, hu⟩ := deviceLoad_loaded hload
  exact ⟨hu.dm_eq, hu.ol_eq⟩

theorem afterLoad_succeeded (i : Nat) (u : State) :
    afterLoad i true u = (u.setDm { u.dm with current := some i }).setOl { u.ol with phase := .getblk } := rfl

theorem afterLoad_fallback (hi : i ≠ Config.defaultIndex) (u : State) :
    afterLoad i false u =
      (u.setErr { u.err with swapFailed := true }).setDm { u.dm with wanted := Config.defaultIndex } := by
  rw [afterLoad, if_neg Bool.false_ne_true]
  exact if_pos hi

theorem afterLoad_fault (hi : i = Config.defaultIndex) (u : State) :
    afterLoad i false u = (u.setErr { u.err with swapFailed := true }).setOl { u.ol with phase := .fault } := by
  rw [afterLoad, if_neg Bool.false_ne_true]
  exact if_neg (not_not_intro hi)

end

/-- Settles O43: the load of the wanted device holds, or ends in one of the two ways that R263 tells apart. -/
theorem swapchkLoadsWantedDevice : Obligations.SwapchkLoadsWantedDevice := by
  intro s k hm hphase hcurrent hwanted hk
  refine ⟨fun hrun => ?_, fun hstop hhandle hchip => ?_⟩
  · obtain ⟨f, hf⟩ := devTabEntry_of_lt hk
    rw [exec_olSwapchk_none hphase hcurrent, hwanted]
    exact perform_bind_held hm (deviceLoad_held hf hrun)
  · obtain ⟨ok, u, hload⟩ := deviceLoad_ends hk hcurrent hstop hhandle hchip
    obtain ⟨hdm, hol⟩ := deviceLoad_dm_ol hload
    have hstep := exec_olSwapchk_loaded hm hphase hcurrent (hwanted ▸ hload)
    rw [hwanted] at hstep
    refine ⟨_, ok, exec_devLoad_done (owned_devLoad_of_olSwapchk hm k) hload, rfl, ?_, ?_, ?_⟩
    · rintro rfl
      rw [hstep, afterLoad_succeeded, hdm, hol]
      rfl
    · rintro rfl hne
      have hi : k.toNat ≠ Config.defaultIndex := fun h => hne (BitVec.eq_of_toNat_eq h)
      rw [hstep, afterLoad_fallback hi, hdm]
      rfl
    · rintro rfl hdefault
      have hi : k.toNat = Config.defaultIndex := congrArg BitVec.toNat hdefault
      rw [hstep, afterLoad_fault hi, hol]
      rfl

/-! ### `OL.GETBLK` and `OL.SUBMIT` -/

section

variable {s : State} {k : Nat}

/-- R265: in GETBLK the credit of the sink decides. -/
theorem exec_olGetblk_enabled (hphase : s.ol.phase = .getblk) :
    exec .olGetblk s = perform .olGetblk s
      (if s.sink.credit = 0 then .held .noCredit
        else ran ((s.setSink { s.sink with credit := s.sink.credit - 1 }).setOl
          { s.ol with frame := 0, chan := false, phase := .fill })) :=
  perform_unlessFault_enabled (outPhase_ne_fault hphase OutPhase.noConfusion) hphase

theorem blockCopy_length (s : State) : (blockCopy s).length = 2 * s.cfg.blockFrames := by
  rw [blockCopy, List.length_map, List.length_range]

theorem blockCopy_getElem? (hk : k < 2 * s.cfg.blockFrames) : (blockCopy s)[k]? = some (s.ol.blk.read .blk k) := by
  rw [blockCopy, List.getElem?_map, List.getElem?_range hk]
  rfl

/-- R266: a written entry is copied. -/
theorem blockCopy_written {v : Sample} (hk : k < 2 * s.cfg.blockFrames) (hv : s.ol.blk.read? k = some v) :
    (blockCopy s)[k]? = some v := by
  rw [blockCopy_getElem? hk, Memory.read_of_read? _ _ _ _ hv]

end

/-- Settles O44. -/
theorem getblkTakesBlockOrHolds : Obligations.GetblkTakesBlockOrHolds := by
  intro s hm hphase
  rw [exec_olGetblk_enabled hphase]
  refine ⟨fun n hn => ?_, fun hnone => ?_⟩
  · rw [if_neg (by omega), hn]
    exact perform_done hm
  · rw [if_pos hnone]
    exact perform_held hm

/-- Settles O46: the copy is `blockCopy`, and in SUBMIT a sound frame has every entry written. -/
theorem submitAppendsBlock : Obligations.SubmitAppendsBlock := by
  intro s hm hphase
  refine ⟨blockCopy s, blockCopy_length s, fun k v hk hv => blockCopy_written hk hv, fun hsound k hk => ?_, ?_⟩
  · obtain ⟨_, _, hwritten⟩ := hsound
    obtain ⟨v, hv⟩ := Option.isSome_iff_exists.1 (hwritten hphase k hk)
    rw [blockCopy_written hk hv, hv]
    exact ⟨rfl, rfl⟩
  · exact (perform_unlessFault_enabled (outPhase_ne_fault hphase OutPhase.noConfusion) hphase).trans (perform_done hm)

/-! ### The external agents -/

/-- Settles O49. -/
theorem externalAgentSteps : Obligations.ExternalAgentSteps := by
  intro s
  refine ⟨fun w hm hsampling => ?_, fun hm => perform_done hm, fun k hm => ⟨fun hk => ?_, fun hk => ?_⟩⟩
  · exact (perform_enabled hsampling).trans (perform_done hm)
  · exact (congrArg (perform _ s) (if_pos hk)).trans (perform_done hm)
  · exact (congrArg (perform _ s) (if_neg (Nat.not_lt.2 hk))).trans (perform_done hm)

end Sys2Proof.Machine
end

section
/-!
SUPPORT. `OL.FRAME` against the `DEV.GEN` inside it (45_output_loop.md R264): a `DEV.GEN` reads no environment, so the
one that the Output Loop issues is that of the frame; on a sound queue it gives a pair, a left sample alone or a hold,
and where R241 to R245 promise one a pair; the frame stores the pair and advances.
-/

namespace Sys2Proof.Machine

open Sys2Proof.Claims

/-! ### A generate reads no environment -/

section

variable {α β : Type} {e : Env} {s : State}

/-- An operation's answer, with another environment in the state after it. -/
def Act.withEnv (e : Env) (x : Act (α × State)) : Act (α × State) := x.bind fun r => .done (r.1, r.2.setEnv e)

/-- A sequence writes no environment if its second part writes none. -/
theorem Act.withEnv_bind {x : Act (α × State)} {k : α × State → Act (β × State)}
    (h : ∀ a u, k (a, u.setEnv e) = (k (a, u)).withEnv e) : (x.withEnv e).bind k = (x.bind k).withEnv e := by
  cases x with
  | done r => exact h r.1 r.2
  | _ => rfl

theorem takeWord_setEnv : takeWord (s.setEnv e) = (takeWord s).map fun r => (r.1, r.2.setEnv e) := by
  rw [takeWord, takeWord, State.setEnv_dev, State.setEnv_bsr]
  cases s.dev.handle <;> cases s.bsr.pending <;> rfl

theorem genSyncMono_setEnv (f : Family) :
    genSyncMono f (s.setEnv e) = ((genSyncMono f s).1, (genSyncMono f s).2.setEnv e) := by
  rw [genSyncMono, genSyncMono, takeWord_setEnv]
  cases takeWord s <;> rfl

theorem genSyncStereo_setEnv (f : Family) :
    genSyncStereo f (s.setEnv e) = ((genSyncStereo f s).1, (genSyncStereo f s).2.setEnv e) := by
  rw [genSyncStereo, genSyncStereo, takeWord_setEnv]
  cases takeWord s with
  | none => rfl
  | some r =>
    cases hchan : (busDecode r.2.cfg f r.1).chan <;>
      simp only [Option.map_some, State.setEnv_cfg, hchan] <;> rfl

theorem popOrHold_setEnv : popOrHold (s.setEnv e) = (popOrHold s).withEnv e := by
  rw [popOrHold, popOrHold, State.setEnv_sq]
  cases s.sq.isEmpty with
  | true => rfl
  | false =>
    cases Queue.pop s.sq with
    | done r => obtain ⟨_ | v, q⟩ := r <;> rfl
    | _ => rfl

theorem genQueueMono_setEnv : genQueueMono (s.setEnv e) = (genQueueMono s).withEnv e := by
  rw [genQueueMono, popOrHold_setEnv]
  exact Act.withEnv_bind fun _ _ => rfl

theorem genRight_setEnv : genRight (s.setEnv e) = (genRight s).withEnv e := by
  rw [genRight, popOrHold_setEnv]
  exact Act.withEnv_bind fun _ _ => rfl

theorem genQueueStereo_setEnv : genQueueStereo (s.setEnv e) = (genQueueStereo s).withEnv e := by
  rw [genQueueStereo, genQueueStereo, State.setEnv_ol, genRight_setEnv, popOrHold_setEnv]
  cases s.ol.chan with
  | true => rfl
  | false =>
    refine Act.withEnv_bind fun l u => ?_
    cases hlast : u.sq.isEmpty with
    | true => simp only [State.setEnv_sq, State.setOl_sq, hlast]; rfl
    | false =>
      simp only [State.setEnv_sq, State.setOl_sq, hlast]
      exact genRight_setEnv (s := u.setOl { u.ol with tmpL := l, chan := true })

/-- `DEV.GEN` neither reads nor writes the environment. -/
theorem deviceGen_setEnv : deviceGen (s.setEnv e) = (deviceGen s).withEnv e := by
  cases hf : loadedFamily s with
  | none => rw [deviceGen_unloaded hf, deviceGen_unloaded (s := s.setEnv e) hf]; rfl
  | some f =>
    cases hsl : hasSL s.cfg f with
    | true =>
      cases hnch : (familyConfig s.cfg f).nch with
      | mono =>
        rw [deviceGen_queueMono hf hsl hnch, deviceGen_queueMono (s := s.setEnv e) hf hsl hnch]
        exact genQueueMono_setEnv
      | stereo =>
        rw [deviceGen_queueStereo hf hsl hnch, deviceGen_queueStereo (s := s.setEnv e) hf hsl hnch]
        exact genQueueStereo_setEnv
    | false =>
      by_cases hne : f = .stereoOnOne
      · subst hne
        rw [deviceGen_syncStereo hf hsl, deviceGen_syncStereo (s := s.setEnv e) hf hsl]
        exact congrArg Act.done (genSyncStereo_setEnv _)
      · rw [deviceGen_syncMono hf hne hsl, deviceGen_syncMono (s := s.setEnv e) hf hne hsl]
        exact congrArg Act.done (genSyncMono_setEnv f)

end

/-! ### What a generate gives -/

section

variable {s u : State} {f : Family}

theorem Queue.sound.exists_oldest {m c : Nat} {q : Queue} (h : q.sound m) (hc : q.cap = some c) (hn : q.count ≠ 0) :
    ∃ v, q.buf.read? q.tail = some v := by
  obtain ⟨_, _, _, _, htail, _, hwritten⟩ := h c hc
  have hslot : slotIndex q c 0 = q.tail := Nat.mod_eq_of_lt htail
  exact Option.isSome_iff_exists.1 (hslot ▸ hwritten 0 (Nat.pos_of_ne_zero hn))

/-- The states in which R241 to R245 promise a pair: a synchronous device, two samples, or one where one is enough. -/
def PairPromised (s : State) (f : Family) : Prop :=
  hasSL s.cfg f = false ∨ 2 ≤ s.sq.count ∨
    (s.sq.count ≠ 0 ∧ ((familyConfig s.cfg f).nch = .mono ∨ s.ol.chan = true))

/-- A `DEV.GEN` of the family `f` gives a pair; or, where none is promised, a left sample alone or a hold. -/
def GenAnswers (s : State) (f : Family) (a : Act (Gen × State)) : Prop :=
  (∃ l r u, a = .done (.pair l r, u)) ∨ (¬ PairPromised s f ∧ ((∃ u, a = .done (.leftOnly, u)) ∨ ∃ x, a = .held x))

theorem genSyncMono_pair (f : Family) (s : State) : ∃ l r u, genSyncMono f s = (.pair l r, u) := by
  unfold genSyncMono
  split <;> exact ⟨_, _, _, rfl⟩

theorem genSyncStereo_pair (f : Family) (s : State) : ∃ l r u, genSyncStereo f s = (.pair l r, u) := by
  unfold genSyncStereo
  split
  · dsimp only
    split <;> exact ⟨_, _, _, rfl⟩
  · exact ⟨_, _, _, rfl⟩

/-- R241, R242: a synchronous device gives a pair with and without a pending word. -/
theorem deviceGen_sync_answers (hf : loadedFamily s = some f) (hsl : hasSL s.cfg f = false) :
    GenAnswers s f (deviceGen s) := by
  by_cases hne : f = .stereoOnOne
  · subst hne
    obtain ⟨l, r, u, hgen⟩ := genSyncStereo_pair .stereoOnOne s
    exact .inl ⟨l, r, u, by rw [deviceGen_syncStereo hf hsl, hgen]⟩
  · obtain ⟨l, r, u, hgen⟩ := genSyncMono_pair f s
    exact .inl ⟨l, r, u, by rw [deviceGen_syncMono hf hne hsl, hgen]⟩

section

variable {c : Nat} (hsound : queueSound s) (hc : s.sq.cap = some c) (hsl : hasSL s.cfg f = true)

include hsound hc hsl

/-- R243, R244: a mono family needs one sample. -/
theorem genQueueMono_answers : GenAnswers s f (genQueueMono s) := by
  by_cases hn : s.sq.count = 0
  · refine .inr ⟨?_, .inr ⟨_, genQueueMono_empty ((hsound.isEmpty_iff hc).2 hn)⟩⟩
    simp [PairPromised, hsl, hn]
  · obtain ⟨v, hv⟩ := hsound.exists_oldest hc hn
    exact .inl ⟨_, _, _, genQueueMono_oldest hc (hsound.isEmpty_eq_false hc hn) hv⟩

/-- R244, R245: a stereo family needs two samples, or one after its left pop. -/
theorem genQueueStereo_answers (hnch : (familyConfig s.cfg f).nch = .stereo) :
    GenAnswers s f (genQueueStereo s) := by
  by_cases hn : s.sq.count = 0
  · refine .inr ⟨?_, .inr ⟨_, genQueueStereo_empty ((hsound.isEmpty_iff hc).2 hn)⟩⟩
    simp [PairPromised, hsl, hn]
  have hne : s.sq.isEmpty = false := hsound.isEmpty_eq_false hc hn
  obtain ⟨l, hl⟩ := hsound.exists_oldest hc hn
  cases hchan : s.ol.chan with
  | true => exact .inl ⟨_, _, _, (genQueueStereo_owed hchan).trans (genRight_oldest hc hne hl)⟩
  | false =>
    rw [genQueueStereo_left hchan hc hne hl]
    have hpopped : (s.sq.popped c).sound s.cfg.cMax := hsound.popped hc hne
    have hcount : (s.sq.popped c).count = s.sq.count - 1 := hsound.count_popped hc hn
    by_cases hone : s.sq.count = 1
    · rw [if_pos ((hpopped.isEmpty_iff hc).2 (hcount.trans (by omega)))]
      refine .inr ⟨?_, .inl ⟨_, rfl⟩⟩
      simp [PairPromised, hsl, hone, hnch, hchan]
    · have hmore : (s.sq.popped c).count ≠ 0 := by omega
      have hempty : (s.sq.popped c).isEmpty = false := hpopped.isEmpty_eq_false hc hmore
      obtain ⟨r, hr⟩ := hpopped.exists_oldest hc hmore
      rw [if_neg (Bool.eq_false_iff.1 hempty)]
      exact .inl ⟨_, _, _, genRight_oldest (s := afterLeft c l s) hc hempty hr⟩

end

/-- R241 to R245: what `DEV.GEN` of the loaded family gives, on a sound queue if the family reads it. -/
theorem deviceGen_answers (hf : loadedFamily s = some f)
    (hqueue : hasSL s.cfg f = true → queueSound s ∧ s.sq.cap.isSome = true) : GenAnswers s f (deviceGen s) := by
  cases hsl : hasSL s.cfg f with
  | false => exact deviceGen_sync_answers hf hsl
  | true =>
    obtain ⟨hsound, hcap⟩ := hqueue hsl
    obtain ⟨c, hc⟩ := Option.isSome_iff_exists.1 hcap
    cases hnch : (familyConfig s.cfg f).nch with
    | mono => rw [deviceGen_queueMono hf hsl hnch]; exact genQueueMono_answers hsound hc hsl
    | stereo => rw [deviceGen_queueStereo hf hsl hnch]; exact genQueueStereo_answers hsound hc hsl hnch

theorem deviceGen_env {g : Gen} (h : deviceGen s = .done (g, u)) : u.env = s.env := by
  obtain ⟨_, _, _, _, _, _, _, hu, _⟩ := deviceGen_frame h
  rw [show u = _ from hu]
  rfl

end

/-! ### `OL.FRAME` -/

section

variable {s u : State} {f : Family} {l r : Sample} {g : Gen}

/-- R264: with a device loaded, a frame in FILL goes by the `DEV.GEN` inside it. -/
theorem exec_olFrame_enabled (hphase : s.ol.phase = .fill) (hf : loadedFamily s = some f) :
    exec .olFrame s = perform .olFrame s ((deviceGen s).bind fun r =>
      match r.1 with
      | .pair left right => ran (writeFrame left right r.2)
      | .leftOnly => ran r.2) :=
  perform_unlessFault_enabled (outPhase_ne_fault hphase OutPhase.noConfusion) ⟨hphase, by rw [hf]; rfl⟩

theorem exec_olFrame_pair (hm : owned .olFrame s) (hphase : s.ol.phase = .fill) (hf : loadedFamily s = some f)
    (hgen : deviceGen s = .done (.pair l r, u)) : exec .olFrame s = .next ((writeFrame l r u).setReport .nothing) :=
  (exec_olFrame_enabled hphase hf).trans (perform_bind_done hm hgen rfl)

theorem exec_olFrame_leftOnly (hm : owned .olFrame s) (hphase : s.ol.phase = .fill) (hf : loadedFamily s = some f)
    (hgen : deviceGen s = .done (.leftOnly, u)) : exec .olFrame s = .next (u.setReport .nothing) :=
  (exec_olFrame_enabled hphase hf).trans (perform_bind_done hm hgen rfl)

theorem exec_olFrame_held {x : Hold} (hm : owned .olFrame s) (hphase : s.ol.phase = .fill)
    (hf : loadedFamily s = some f) (hgen : deviceGen s = .held x) :
    exec .olFrame s = .next (s.setReport (.held x)) :=
  (exec_olFrame_enabled hphase hf).trans (perform_bind_held hm hgen)

/-- The block after a frame is stored (R264). -/
def frameBlock (l r : Sample) (o : OutLoop) : Memory := (o.blk.write (2 * o.frame) l).write (2 * o.frame + 1) r

theorem frameBlock_read? (l r : Sample) (o : OutLoop) (k : Nat) :
    (frameBlock l r o).read? k =
      if k = 2 * o.frame then some l else if k = 2 * o.frame + 1 then some r else o.blk.read? k := by
  rw [frameBlock, Memory.read?_write, Memory.read?_write]
  by_cases hl : k = 2 * o.frame
  · rw [if_pos hl, if_pos hl, if_neg (by omega)]
  · rw [if_neg hl, if_neg hl]

theorem writeFrame_fill (l r : Sample) (hphase : s.ol.phase = .fill) :
    writeFrame l r s = s.setOl
      { s.ol with
        blk := frameBlock l r s.ol
        frame := if s.ol.frame + 1 = s.cfg.blockFrames then s.ol.frame else s.ol.frame + 1
        phase := if s.ol.frame + 1 = s.cfg.blockFrames then .submit else .fill } := by
  by_cases hlast : s.ol.frame + 1 = s.cfg.blockFrames
  · simp only [writeFrame, if_pos hlast]
    rfl
  · simp only [writeFrame, if_neg hlast, ← hphase]
    rfl

/-- The `DEV.GEN` of the Output Loop is that of the frame, whoever issues the frame. -/
theorem deviceGen_issuedBy (a : Agent) (h : deviceGen s = .done (g, u)) :
    deviceGen (issuedBy a s) = .done (g, u.setEnv (issuedBy a s).env) := by
  have hgen : deviceGen (s.setEnv (issuedBy a s).env) = _ := deviceGen_setEnv
  rwa [h] at hgen

theorem deviceGen_issuedBy_held {x : Hold} (a : Agent) (h : deviceGen s = .held x) :
    deviceGen (issuedBy a s) = .held x := by
  have hgen : deviceGen (s.setEnv (issuedBy a s).env) = _ := deviceGen_setEnv
  rwa [h] at hgen

theorem owned_devGen_outputLoop (s : State) : owned .devGen (issuedBy .outputLoop s) := rfl

end

/-- Settles O45: the pair, the left sample alone, and the hold. -/
theorem frameStoresGeneratedPair : Obligations.FrameStoresGeneratedPair := by
  intro s f hm hphase hf hqueue
  have hown := owned_devGen_outputLoop s
  obtain ⟨l, r, u, hgen⟩ | ⟨hno, ⟨u, hgen⟩ | ⟨x, hgen⟩⟩ := deviceGen_answers hf hqueue
  · have hg := deviceGen_generated hgen
    have hframe := writeFrame_fill l r (hg.phase.trans hphase)
    refine ⟨_, exec_devGen_pair hown (deviceGen_issuedBy _ hgen), fun _ => ⟨_, rfl⟩, fun v hv => ?_, nofun, nofun⟩
    obtain rfl : r ++ l = v := Option.some.inj (Report.returned.inj hv).2
    refine ⟨frameBlock l r s.ol, fun k => ?_, ?_⟩
    · rw [frameBlock_read?, BitVec.extractLsb'_append_eq_right, BitVec.extractLsb'_append_eq_left]
    · have hblock : frameBlock l r u.ol = frameBlock l r s.ol := by rw [frameBlock, frameBlock, hg.frame, hg.blk]
      rw [exec_olFrame_pair hm hphase hf hgen, hframe, hblock, hg.frame, deviceGen_cfg hgen, ← deviceGen_env hgen]
      rfl
  · refine ⟨_, exec_devGen_leftOnly hown (deviceGen_issuedBy _ hgen), fun h => absurd h hno, nofun, fun _ => ?_, nofun⟩
    rw [exec_olFrame_leftOnly hm hphase hf hgen, ← deviceGen_env hgen]
    rfl
  · refine ⟨_, exec_devGen_held hown (deviceGen_issuedBy_held _ hgen), fun h => absurd h hno, nofun, nofun, ?_⟩
    rintro _ ⟨⟩
    exact exec_olFrame_held hm hphase hf hgen

end Sys2Proof.Machine
end

section
/-!
SUPPORT. Ownership (60_exceptions.md R320; 70_reset_and_hazards.md R350): a step word whose issuer may not execute it
is refused before its body is looked at, and a step word that an agent may execute writes the state of that agent only.
-/

namespace Sys2Proof.Machine

open Sys2Proof.Claims

/-! ### Who may execute a step word -/

section

variable {i : Instr} {s : State}

/-- R320: the owner is tested first, in every meaning. -/
theorem exec_notOwner (h : mayExecute s i = false) : exec i s = .refused .notOwner := by
  obtain ⟨a, ha⟩ := exec_eq_perform i s
  rw [ha]
  exact perform_notOwner h

theorem mayExecute_harness (h : s.env.issuer = .harness) : mayExecute s i = harnessMay s i := by rw [mayExecute, h]

theorem mayExecute_synthesisLoop (h : s.env.issuer = .synthesisLoop) : mayExecute s i = loopMay i := by
  rw [mayExecute, h]

theorem mayExecute_outputLoop (h : s.env.issuer = .outputLoop) : mayExecute s i = outputMay s.cfg i := by
  rw [mayExecute, h]

theorem mayExecute_host (h : s.env.issuer = .host) : mayExecute s i = hostMay i := by rw [mayExecute, h]

theorem mayExecute_sink (h : s.env.issuer = .sink) : mayExecute s i = sinkMay i := by rw [mayExecute, h]

theorem mayExecute_user (h : s.env.issuer = .user) : mayExecute s i = userMay i := by rw [mayExecute, h]

theorem hostMay_iff : hostMay i = true ↔ ∃ w, i = .hostStrobe w := by
  cases i <;> simp [hostMay]

theorem sinkMay_iff : sinkMay i = true ↔ i = .sinkReady := by
  cases i <;> simp [sinkMay]

theorem userMay_iff : userMay i = true ↔ ∃ k, i = .hsRequest k := by
  cases i <;> simp [userMay]

/-- R350: no second producer beside a Synthesis Loop that is not STOPPED. -/
theorem harnessMay_qPush_eq_false (v : Sample) (h : s.sl.state ≠ .stopped) : harnessMay s (.qPush v) = false := by
  rw [harnessMay, (producerActive_iff s).2 h]
  rfl

/-- R350: no second consumer beside an Output Loop whose current device is queue-fed. -/
theorem harnessMay_pop_eq_false (h : consumed s) : harnessMay s .qPop = false ∧ harnessMay s .devGen = false := by
  rw [harnessMay, harnessMay, (consumerActive_iff s).2 h]
  exact ⟨rfl, rfl⟩

end

/-- Settles O51: the refusal of any word not owned, and for each issuer that its words of the statement are not. -/
theorem notOwnerRefused : Obligations.NotOwnerRefused := by
  refine ⟨fun i s hm => exec_notOwner (Bool.eq_false_iff.2 hm), ?host, ?sink, ?user, ?outputLoop, ?synthesisLoop,
    ?producer, ?consumer⟩
  case host =>
    intro i s hissuer hother
    refine exec_notOwner ((mayExecute_host hissuer).trans (Bool.eq_false_iff.2 fun hmay => ?_))
    obtain ⟨w, hw⟩ := hostMay_iff.1 hmay
    exact hother w hw
  case sink =>
    intro i s hissuer hother
    exact exec_notOwner ((mayExecute_sink hissuer).trans (Bool.eq_false_iff.2 (mt sinkMay_iff.1 hother)))
  case user =>
    intro i s hissuer hother
    refine exec_notOwner ((mayExecute_user hissuer).trans (Bool.eq_false_iff.2 fun hmay => ?_))
    obtain ⟨k, hk⟩ := userMay_iff.1 hmay
    exact hother k hk
  case outputLoop =>
    intro s v a d w k hissuer i hi
    have hmay : outputMay s.cfg i = false := by
      revert i
      simp [outputMay]
    exact exec_notOwner ((mayExecute_outputLoop hissuer).trans hmay)
  case synthesisLoop =>
    intro s cap k w hissuer i hi
    have hmay : loopMay i = false := by
      revert i
      simp [loopMay]
    exact exec_notOwner ((mayExecute_synthesisLoop hissuer).trans hmay)
  case producer =>
    intro s v hissuer halive
    exact exec_notOwner ((mayExecute_harness hissuer).trans (harnessMay_qPush_eq_false v halive))
  case consumer =>
    intro s hissuer hconsumed
    obtain ⟨hpop, hgen⟩ := harnessMay_pop_eq_false hconsumed
    exact ⟨exec_notOwner ((mayExecute_harness hissuer).trans hpop),
      exec_notOwner ((mayExecute_harness hissuer).trans hgen)⟩

/-! ### What the Synthesis Loop's step words leave alone -/

/-- The fields that a step word of the Synthesis Loop leaves alone (R320, R27, R36): it fills the queue at `head`, and
takes at most the oldest pending word. -/
structure LoopFrame (s t : State) : Prop where
  cap : t.sq.cap = s.sq.cap
  tail : t.sq.tail = s.sq.tail
  dev : t.dev = s.dev
  dm : t.dm = s.dm
  ol : t.ol = s.ol
  err : t.err = s.err
  sink : t.sink = s.sink
  full : s.sq.full = true → t.sq.full = true
  bsr : t.bsr = s.bsr ∨ ∃ w, s.bsr.pending = w :: t.bsr.pending

section

variable {i : Instr} {s t u : State}

theorem loopFrame_setSl (l : Synth) (e : Env) : LoopFrame s ((s.setSl l).setEnv e) :=
  ⟨rfl, rfl, rfl, rfl, rfl, rfl, rfl, id, .inl rfl⟩

theorem loopFrame_setReport (r : Report) : LoopFrame s (s.setReport r) := loopFrame_setSl s.sl _

theorem loopFrame_of_waited (h : Waited s t) : LoopFrame s t := by
  obtain ⟨_, rfl⟩ | rfl := h <;> exact loopFrame_setReport _

theorem loopFrame_of_answerVal {v : BitVec 32} (h : perform i s (answerVal v s) = .next t) : LoopFrame s t := by
  obtain ⟨_, rfl⟩ := perform_answerVal_next h
  exact loopFrame_setReport _

/-- R132: a push moves `head`, and on a full queue does nothing. -/
theorem Queue.push_frame {v : Sample} {q : Queue} {r : Bool × Queue} (h : Queue.push v q = .done r) :
    r.2.tail = q.tail ∧ (q.full = true → r.2.full = true) := by
  obtain ⟨_, _, ⟨_, rfl⟩ | ⟨hroom, rfl⟩⟩ := Queue.push_done h
  · exact ⟨rfl, id⟩
  · exact ⟨rfl, fun hfull => nomatch hroom.symm.trans hfull⟩

theorem loopFrame_of_push {v : Sample} {r : Bool × Queue} (h : Queue.push v s.sq = .done r) (l : Synth) (e : Env) :
    LoopFrame s (((s.setSq r.2).setSl l).setEnv e) := by
  obtain ⟨htail, hfull⟩ := Queue.push_frame h
  exact ⟨Queue.push_cap h, htail, rfl, rfl, rfl, rfl, rfl, hfull, .inl rfl⟩

/-- R202, R205: applying a pending word writes `SL` only. -/
theorem loopFrame_of_drainWord {a : Act State} {r x : Report} (hd : drainWord s = some a)
    (h : a.bind ran = .done (r, u)) : LoopFrame s (u.setReport x) := by
  obtain ⟨_, w, _, _, hp, ⟨_, _, _, rfl⟩ | ⟨_, _, _, _, rfl⟩⟩ := drainWord_ran hd h <;>
    exact ⟨rfl, rfl, rfl, rfl, rfl, rfl, rfl, id, .inr ⟨w, hp⟩⟩

/-- R320: the Synthesis Loop's step words write `SL`, the producer's side of the queue and the pending words. -/
theorem exec_loopFrame (hmay : loopMay i = true) (h : exec i s = .next t) : LoopFrame s t := by
  cases i with
  | qPush v =>
    obtain hw | ⟨_, hr, rfl⟩ := execQPush_next h
    · exact loopFrame_of_waited hw
    · exact loopFrame_of_push hr s.sl _
  | qIsFull =>
    obtain ⟨_, rfl⟩ := execQIsFull_next h
    exact loopFrame_setReport _
  | decCovox _ | decStereo1 _ | decDss _ | decFtl _ | decOpl2 _ | decTandy _ | decCms _ =>
    exact loopFrame_of_answerVal h
  | cmWrite a d =>
    obtain hw | ⟨_, _, rfl⟩ := execCmWrite_next h
    · exact loopFrame_of_waited hw
    · exact loopFrame_setSl _ _
  | cmSample =>
    obtain hw | ⟨_, _, _, rfl⟩ := execCmSample_next h
    · exact loopFrame_of_waited hw
    · exact loopFrame_setSl _ _
  | cmDestroy =>
    obtain hw | rfl := execCmDestroy_next h
    · exact loopFrame_of_waited hw
    · exact loopFrame_setSl _ _
  | slHead =>
    obtain hw | ⟨_, _, rfl⟩ := execSlHead_next h
    · exact loopFrame_of_waited hw
    · exact loopFrame_setSl _ _
  | slDrain =>
    obtain hw | ⟨_, _, ⟨_, rfl⟩ | ⟨_, _, hd, ha, rfl⟩⟩ := execSlDrain_next h
    · exact loopFrame_of_waited hw
    · exact loopFrame_setSl _ _
    · exact loopFrame_of_drainWord hd ha
  | slSample =>
    obtain hw | ⟨_, _, _, _, _, _, _, rfl⟩ := execSlSample_next h
    · exact loopFrame_of_waited hw
    · exact loopFrame_setSl _ _
  | slStall =>
    obtain hw | ⟨_, _, ⟨_, rfl⟩ | ⟨_, _, _, _, hd, ha, rfl⟩⟩ := execSlStall_next h
    · exact loopFrame_of_waited hw
    · exact loopFrame_setSl _ _
    · exact loopFrame_of_drainWord hd ha
  | slPush =>
    obtain hw | ⟨_, _, _, _, hr, _, rfl⟩ := execSlPush_next h
    · exact loopFrame_of_waited hw
    · exact loopFrame_of_push hr _ _
  | slExit =>
    obtain hw | ⟨_, _, rfl⟩ := execSlExit_next h
    · exact loopFrame_of_waited hw
    · exact loopFrame_setSl _ _
  | _ => cases hmay

end

/-! ### What the Output Loop's step words leave alone -/

/-- What a step word of the Output Loop leaves alone (R320, R27, R36): the buffer, and, while the Synthesis Loop is not
STOPPED, the producer's side of the queue and all of `SL` but its state. -/
structure OutputFrame (s t : State) : Prop where
  buf : t.sq.buf = s.sq.buf
  full : t.sq.full = true → s.sq.full = true
  alive : s.sl.state ≠ .stopped →
    t.sq.head = s.sq.head ∧ t.sq.cap = s.sq.cap ∧ t.sl = { s.sl with state := t.sl.state }

section

variable {i : Instr} {s t u : State}

theorem outputFrame_of_eq (hsq : t.sq = s.sq) (hsl : t.sl = s.sl) : OutputFrame s t := by
  refine ⟨by rw [hsq], by rw [hsq]; exact id, fun _ => ?_⟩
  rw [hsq, hsl]
  exact ⟨rfl, rfl, rfl⟩

/-- Only `SQ` and `SL` count. -/
theorem OutputFrame.congr (h : OutputFrame s u) (hsq : t.sq = u.sq) (hsl : t.sl = u.sl) : OutputFrame s t := by
  refine ⟨by rw [hsq]; exact h.buf, by rw [hsq]; exact h.full, ?_⟩
  rw [hsq, hsl]
  exact h.alive

theorem outputFrame_of_stopped (hstop : s.sl.state = .stopped) (hbuf : t.sq.buf = s.sq.buf)
    (hfull : t.sq.full = true → s.sq.full = true) : OutputFrame s t :=
  ⟨hbuf, hfull, fun halive => absurd hstop halive⟩

theorem outputFrame_of_waited (h : Waited s t) : OutputFrame s t := by
  obtain ⟨_, rfl⟩ | rfl := h <;> exact outputFrame_of_eq rfl rfl

theorem outputFrame_of_answerVal {v : BitVec 32} (h : perform i s (answerVal v s) = .next t) : OutputFrame s t := by
  obtain ⟨_, rfl⟩ := perform_answerVal_next h
  exact outputFrame_of_eq rfl rfl

/-- R131: an initialised queue is not full. -/
theorem Queue.init_full {m : Nat} {cap : BitVec 32} {q : Queue} (h : (Queue.init m cap q).2.full = true) :
    q.full = true := by
  obtain ⟨_, he⟩ | ⟨_, he⟩ := Queue.init_cases m cap q <;> rw [he] at h
  · exact Bool.noConfusion h
  · exact h

theorem Loaded.outputFrame {f : Family} {ok : Bool} (h : Loaded f s ok u) (hstop : s.sl.state = .stopped) :
    OutputFrame s u := by
  refine outputFrame_of_stopped hstop h.buf_eq fun hfull => ?_
  obtain he | he := h.sq_cases <;> rw [he] at hfull
  · exact hfull
  · exact Queue.init_full hfull

/-- R236: an unload writes no more of `SL` than its state. -/
theorem outputFrame_unloadDevice (s : State) : OutputFrame s (unloadDevice s) :=
  ⟨by rw [unloadDevice_sq], by rw [unloadDevice_sq]; exact id, fun _ => by simp⟩

/-- R241 to R245: a generate reads the queue. -/
theorem outputFrame_deviceGen {r : Gen × State} (h : deviceGen s = .done r) : OutputFrame s r.2 := by
  obtain ⟨_, _, _, _, _, _, _, hr, _, hfull⟩ := deviceGen_frame h
  rw [hr]
  exact ⟨rfl, hfull, fun _ => ⟨rfl, rfl, rfl⟩⟩

theorem outputFrame_pop {r : Option Sample × Queue} (h : Queue.pop s.sq = .done r) (x : Report) :
    OutputFrame s ((s.setSq r.2).setReport x) := by
  obtain ⟨_, _, ⟨_, rfl⟩ | ⟨_, rfl⟩⟩ := Queue.pop_done h
  · exact outputFrame_of_eq rfl rfl
  · exact ⟨rfl, fun hfull => (nomatch hfull), fun _ => ⟨rfl, rfl, rfl⟩⟩

@[simp] theorem chipCreate_sq (f : Family) (s : State) : (chipCreate f s).2.sq = s.sq := by
  cases h : (drawBool s).1
  · simp [chipCreate_failed h]
  · simp [chipCreate_ok h]

@[simp] theorem afterLoad_sq (i : Nat) (ok : Bool) (s : State) : (afterLoad i ok s).sq = s.sq := by
  obtain ⟨_, _, _, h, _⟩ := afterLoad_eq i ok s
  rw [h]; rfl

@[simp] theorem afterLoad_sl (i : Nat) (ok : Bool) (s : State) : (afterLoad i ok s).sl = s.sl := by
  obtain ⟨_, _, _, h, _⟩ := afterLoad_eq i ok s
  rw [h]; rfl

/-- R320: the Output Loop's step words write the consumer's side of the queue, and more of the queue and of `SL` only
while the Synthesis Loop is STOPPED. -/
theorem exec_outputFrame (hmay : outputMay s.cfg i = true) (h : exec i s = .next t) : OutputFrame s t := by
  cases i with
  | qInit cap =>
    obtain hw | ⟨hstop, _, rfl⟩ := execQInit_next h
    · exact outputFrame_of_waited hw
    · exact outputFrame_of_stopped hstop (Queue.init_buf ..) Queue.init_full
  | qPop =>
    obtain hw | ⟨_, hr, ⟨_, rfl⟩ | ⟨_, _, rfl⟩⟩ := execQPop_next h
    · exact outputFrame_of_waited hw
    · exact outputFrame_pop hr _
    · exact outputFrame_pop hr _
  | qIsEmpty =>
    obtain ⟨_, rfl⟩ := execQIsEmpty_next h
    exact outputFrame_of_eq rfl rfl
  | decCovox _ | decStereo1 _ | decDss _ | decFtl _ | decOpl2 _ | decTandy _ | decCms _ =>
    exact outputFrame_of_answerVal h
  | cmCreate k =>
    obtain hw | ⟨f, _, _, _, hstop, rfl⟩ := execCmCreate_next h
    · exact outputFrame_of_waited hw
    · exact outputFrame_of_stopped hstop (by simp) (by simp)
  | devLoad k =>
    obtain hw | ⟨_, hr, rfl⟩ := execDevLoad_next h
    · exact outputFrame_of_waited hw
    · obtain ⟨_, _, _, hstop, hu⟩ := deviceLoad_loaded hr
      exact (hu.outputFrame hstop).congr rfl rfl
  | devUnload =>
    obtain hw | ⟨_, hu, rfl⟩ := execDevUnload_next h
    · exact outputFrame_of_waited hw
    · obtain ⟨_, _, rfl⟩ := deviceUnload_done hu
      exact (outputFrame_unloadDevice s).congr rfl rfl
  | devGen =>
    obtain hw | ⟨_, _, hr, rfl⟩ := execDevGen_next h
    · exact outputFrame_of_waited hw
    · exact (outputFrame_deviceGen hr).congr rfl rfl
  | olSwapchk =>
    obtain hw | ⟨_, ⟨_, _, _, rfl⟩ | ⟨_, _, _, rfl⟩ | ⟨_, _, hr, rfl⟩⟩ := execOlSwapchk_next h
    · exact outputFrame_of_waited hw
    · exact outputFrame_of_eq rfl rfl
    · exact (outputFrame_unloadDevice s).congr rfl rfl
    · obtain ⟨_, _, _, hstop, hu⟩ := deviceLoad_loaded hr
      exact (hu.outputFrame hstop).congr (by simp) (by simp)
  | olGetblk =>
    obtain hw | ⟨_, _, rfl⟩ := execOlGetblk_next h
    · exact outputFrame_of_waited hw
    · exact outputFrame_of_eq rfl rfl
  | olFrame =>
    obtain hw | ⟨_, _, _, u, hg, ⟨l, r, _, rfl⟩ | ⟨_, rfl⟩⟩ := execOlFrame_next h
    · exact outputFrame_of_waited hw
    · obtain ⟨_, ho, _⟩ := writeFrame_eq l r u
      rw [ho]
      exact (outputFrame_deviceGen hg).congr rfl rfl
    · exact (outputFrame_deviceGen hg).congr rfl rfl
  | olSubmit =>
    obtain hw | ⟨_, rfl⟩ := execOlSubmit_next h
    · exact outputFrame_of_waited hw
    · exact outputFrame_of_eq rfl rfl
  | _ => cases hmay

end

/-! ### What the external agents' step words leave alone -/

section

variable {s t : State}

theorem execHostStrobe_frame {w : BusWord} (h : exec (.hostStrobe w) s = .next t) :
    t = State.setReport { s with bsr := t.bsr } t.env.report := by
  obtain (⟨_, rfl⟩ | rfl) | ⟨_, rfl⟩ := execHostStrobe_next h <;> rfl

theorem execSinkReady_frame (h : exec .sinkReady s = .next t) :
    t = State.setReport { s with sink := { s.sink with credit := t.sink.credit } } t.env.report := by
  obtain (⟨_, rfl⟩ | rfl) | rfl := execSinkReady_next h <;> rfl

theorem execHsRequest_frame {k : BitVec 3} (h : exec (.hsRequest k) s = .next t) :
    t = State.setReport { s with dm := { s.dm with wanted := t.dm.wanted } } t.env.report := by
  obtain (⟨_, rfl⟩ | rfl) | ⟨_, rfl⟩ | ⟨_, rfl⟩ := execHsRequest_next h <;> rfl

end

/-- Settles O52, one agent after another. -/
theorem eachLaneWritesItsOwnState : Obligations.EachLaneWritesItsOwnState := by
  intro i s t h
  refine ⟨fun hmay => ?_, fun hmay => ?_, fun hmay => ?_, fun hmay => ?_, fun hmay => ?_⟩
  · obtain ⟨hcap, htail, hdev, hdm, hol, herr, hsink, hfull, hbsr⟩ := exec_loopFrame hmay h
    exact ⟨hcap, htail, hdev, hdm, hol, herr, hsink, hfull, hbsr⟩
  · obtain ⟨hbuf, hfull, halive⟩ := exec_outputFrame hmay h
    exact ⟨hbuf, hfull, halive⟩
  · obtain ⟨w, rfl⟩ := hostMay_iff.1 hmay
    exact execHostStrobe_frame h
  · obtain rfl := sinkMay_iff.1 hmay
    exact execSinkReady_frame h
  · obtain ⟨k, rfl⟩ := userMay_iff.1 hmay
    exact execHsRequest_frame h

end Sys2Proof.Machine
end

section
/-!
SUPPORT. Refusals of the agents' own steps (60_exceptions.md R306): a body that is not refused under the invariants of
the block, operation by operation, and then step by step.
-/

namespace Sys2Proof.Machine

/-! ### Bodies that are not refused -/

/-- The body ends in no refusal. -/
def Act.Admitted {α : Type} (x : Act α) : Prop := ∀ r, x ≠ .refused r

section

variable {α β : Type} {x y : Act α}

theorem Act.admitted_done (a : α) : (Act.done a).Admitted := nofun

theorem Act.admitted_held (h : Hold) : (Act.held h : Act α).Admitted := nofun

theorem Act.admitted_stuck (f : Fault) : (Act.stuck f : Act α).Admitted := nofun

theorem Act.admitted_notEnabled : (Act.notEnabled : Act α).Admitted := nofun

theorem Act.Admitted.bind {k : α → Act β} (hx : x.Admitted) (hk : ∀ a, x = .done a → (k a).Admitted) :
    (x.bind k).Admitted := by
  intro r hr
  obtain hx' | ⟨a, ha, hka⟩ := Act.bind_refused.1 hr
  · exact hx r hx'
  · exact hk a ha r hka

theorem Act.admitted_ite {p : Prop} [Decidable p] (hx : p → x.Admitted) (hy : ¬ p → y.Admitted) :
    (if p then x else y).Admitted := by
  split
  · exact hx ‹p›
  · exact hy ‹¬ p›

end

/-! ### The shared operations under the invariants -/

section

variable {s : State}

theorem unlessFault_admitted {a : Act (Report × State)} (h : a.Admitted) : (unlessFault s a).Admitted :=
  Act.admitted_ite (fun _ => Act.admitted_stuck _) fun _ => h

/-- R320: a step word of its owner is refused only for its body. -/
theorem perform_ne_refused {i : Instr} {a : Act (Report × State)} (hm : owned i s) (ha : a.Admitted) (r : Refusal) :
    perform i s a ≠ .refused r := by
  intro h
  obtain ⟨hno, _⟩ | ⟨_, hr⟩ := perform_refused h
  · exact nomatch hno.symm.trans hm
  · exact ha r hr

/-- R202, R205: a live loop has the chip model that a pending word may write. -/
theorem drainWord_admitted {a : Act State} (h : loopSound s) (halive : s.sl.state ≠ .stopped)
    (hd : drainWord s = some a) : a.Admitted := by
  obtain ⟨⟨_, hx, _⟩, _, _⟩ := h.2 halive
  obtain ⟨_, rest, _, _, rfl⟩ := drainWord_some hd
  obtain ⟨t, ht⟩ := applyWrite_some (s := s.setBsr { pending := rest }) hx
  rw [ht]
  exact Act.admitted_done t

theorem chipSample_admitted (h : loopSound s) (halive : s.sl.state ≠ .stopped) : (chipSample s).Admitted := by
  obtain ⟨⟨_, hx, _⟩, _, _⟩ := h.2 halive
  rw [chipSample_some hx]
  exact Act.admitted_done _

/-- R132, D9: a push on an initialised queue. -/
theorem Queue.push_admitted {q : Queue} (v : Sample) (h : q.cap.isSome = true) : (Queue.push v q).Admitted := by
  obtain ⟨_, hc⟩ := Option.isSome_iff_exists.1 h
  obtain ⟨r, hr⟩ := Queue.push_some (v := v) hc
  rw [hr]
  exact Act.admitted_done r

/-- R244, D9: a spin-waiting pop of an initialised queue ends or holds. -/
theorem popOrHold_admitted (h : s.sq.cap.isSome = true) : (popOrHold s).Admitted := by
  obtain ⟨_, hc⟩ := Option.isSome_iff_exists.1 h
  cases he : s.sq.isEmpty with
  | true => rw [popOrHold_empty he]; exact Act.admitted_held _
  | false => rw [popOrHold_some hc he]; exact Act.admitted_done _

theorem genRight_admitted (h : s.sq.cap.isSome = true) : (genRight s).Admitted :=
  (popOrHold_admitted h).bind fun _ _ => Act.admitted_done _

/-- R245: the left pop leaves the queue initialised for the right one. -/
theorem genQueueStereo_admitted (h : s.sq.cap.isSome = true) : (genQueueStereo s).Admitted := by
  refine Act.admitted_ite (fun _ => genRight_admitted h) fun _ => (popOrHold_admitted h).bind fun r hr => ?_
  refine Act.admitted_ite (fun _ => Act.admitted_done _) fun _ => genRight_admitted ?_
  obtain ⟨_, _, _, _, hpopped⟩ := popOrHold_done hr
  rw [hpopped]
  exact h

/-- R241 to R245: a loaded device generates, from an initialised queue if it reads one. -/
theorem deviceGen_admitted {f : Family} (hf : loadedFamily s = some f)
    (hqueue : hasSL s.cfg f = true → s.sq.cap.isSome = true) : (deviceGen s).Admitted := by
  cases hsl : hasSL s.cfg f with
  | false =>
    by_cases hne : f = .stereoOnOne
    · subst hne
      rw [deviceGen_syncStereo hf hsl]
      exact Act.admitted_done _
    · rw [deviceGen_syncMono hf hne hsl]
      exact Act.admitted_done _
  | true =>
    cases hnch : (familyConfig s.cfg f).nch with
    | mono =>
      rw [deviceGen_queueMono hf hsl hnch]
      exact (popOrHold_admitted (hqueue hsl)).bind fun _ _ => Act.admitted_done _
    | stereo =>
      rw [deviceGen_queueStereo hf hsl hnch]
      exact genQueueStereo_admitted (hqueue hsl)

/-- R232: with a queue-fed device current its loop runs, so the queue is initialised. -/
theorem BlockSound.cap_isSome_of_queueFed (h : BlockSound s) {i : Nat} {f : Family} (hi : s.dm.current = some i)
    (hf : loadedFamily s = some f) (hsl : hasSL s.cfg f = true) : s.sq.cap.isSome = true := by
  obtain ⟨f', hf', _, _, hrun, _⟩ := h.manager.1 i hi
  obtain rfl : f' = f := Option.some.inj (hf'.symm.trans ((loadedFamily_of_current hi).symm.trans hf))
  obtain ⟨hrunning, _⟩ := hrun hsl
  obtain ⟨_, _, hinit⟩ := h.loop.2 (loopState_ne_stopped hrunning)
  exact hinit

/-- R231, R263: with no device current the load of the wanted one holds or ends. -/
theorem BlockSound.load_admitted (h : BlockSound s) (hnone : s.dm.current = none) :
    (deviceLoad s.dm.wanted s).Admitted := by
  by_cases hstop : s.sl.state = .stopped
  · obtain ⟨hhandle, _, _⟩ := h.manager.2 hnone
    obtain ⟨_, hchip, _⟩ := h.loop.1 hstop
    obtain ⟨_, _, hload⟩ := deviceLoad_ends h.wanted hnone hstop hhandle hchip
    rw [hload]
    exact Act.admitted_done _
  · obtain ⟨_, hf⟩ := devTabEntry_of_lt h.wanted
    rw [deviceLoad_held hf hstop]
    exact Act.admitted_held _

/-! ### The agent steps -/

theorem BlockSound.slDrain_ne_refused (h : BlockSound s) (hm : owned .slDrain s) (r : Refusal) :
    exec .slDrain s ≠ .refused r := by
  refine perform_ne_refused hm (Act.admitted_ite (fun hp => ?_) fun _ => Act.admitted_notEnabled) r
  split
  · exact (drainWord_admitted h.loop (loopState_ne_stopped hp.1) ‹_›).bind fun _ _ => Act.admitted_done _
  · exact Act.admitted_done _

theorem BlockSound.slSample_ne_refused (h : BlockSound s) (hm : owned .slSample s) (r : Refusal) :
    exec .slSample s ≠ .refused r := by
  refine perform_ne_refused hm (Act.admitted_ite (fun hp => ?_) fun _ => Act.admitted_notEnabled) r
  exact (chipSample_admitted h.loop (loopAlive_iff.1 hp.1)).bind fun _ _ => Act.admitted_done _

theorem BlockSound.slStall_ne_refused (h : BlockSound s) (hm : owned .slStall s) (r : Refusal) :
    exec .slStall s ≠ .refused r := by
  refine perform_ne_refused hm (Act.admitted_ite (fun hp => ?_) fun _ => Act.admitted_notEnabled) r
  refine Act.admitted_ite (fun _ => Act.admitted_done _) fun _ =>
    Act.admitted_ite (fun _ => Act.admitted_notEnabled) fun _ => ?_
  split
  · exact (drainWord_admitted h.loop (loopAlive_iff.1 hp.1) ‹_›).bind fun _ _ => Act.admitted_done _
  · exact Act.admitted_held _

theorem BlockSound.slPush_ne_refused (h : BlockSound s) (hm : owned .slPush s) (r : Refusal) :
    exec .slPush s ≠ .refused r := by
  refine perform_ne_refused hm (Act.admitted_ite (fun hp => ?_) fun _ => Act.admitted_notEnabled) r
  obtain ⟨_, _, hinit⟩ := h.loop.2 (loopAlive_iff.1 hp.1)
  exact (Queue.push_admitted _ hinit).bind fun _ _ => Act.admitted_done _

theorem BlockSound.olSwapchk_ne_refused (h : BlockSound s) (hm : owned .olSwapchk s) (r : Refusal) :
    exec .olSwapchk s ≠ .refused r := by
  refine perform_ne_refused hm (unlessFault_admitted
    (Act.admitted_ite (fun _ => ?_) fun _ => Act.admitted_notEnabled)) r
  split
  · exact Act.admitted_ite (fun _ => Act.admitted_done _) fun _ => Act.admitted_done _
  · exact (h.load_admitted ‹_›).bind fun _ _ => Act.admitted_done _

theorem BlockSound.olFrame_ne_refused (h : BlockSound s) (hm : owned .olFrame s) (r : Refusal) :
    exec .olFrame s ≠ .refused r := by
  refine perform_ne_refused hm (unlessFault_admitted
    (Act.admitted_ite (fun hp => ?_) fun _ => Act.admitted_notEnabled)) r
  obtain ⟨hphase, hloaded⟩ := hp
  obtain ⟨i, hi⟩ := h.manager.exists_current (by simp [hphase]) (by simp [hphase])
  obtain ⟨f, hf⟩ := Option.isSome_iff_exists.1 hloaded
  refine (deviceGen_admitted hf (h.cap_isSome_of_queueFed hi hf)).bind fun g _ => ?_
  split <;> exact Act.admitted_done _

end

/-- Settles O60: the six steps that can invoke an operation with a precondition need the invariants, the others none. -/
theorem agentStepsAreNeverRefused : Obligations.AgentStepsAreNeverRefused := by
  intro i s r hagent h hm
  cases i with
  | slDrain => exact h.slDrain_ne_refused hm r
  | slSample => exact h.slSample_ne_refused hm r
  | slStall => exact h.slStall_ne_refused hm r
  | slPush => exact h.slPush_ne_refused hm r
  | olSwapchk => exact h.olSwapchk_ne_refused hm r
  | olFrame => exact h.olFrame_ne_refused hm r
  | slHead | slExit | hostStrobe _ =>
    exact perform_ne_refused hm
      (Act.admitted_ite (fun _ => Act.admitted_done _) fun _ => Act.admitted_notEnabled) r
  | olGetblk =>
    exact perform_ne_refused hm (unlessFault_admitted (Act.admitted_ite
      (fun _ => Act.admitted_ite (fun _ => Act.admitted_held _) fun _ => Act.admitted_done _)
      fun _ => Act.admitted_notEnabled)) r
  | olSubmit =>
    exact perform_ne_refused hm (unlessFault_admitted
      (Act.admitted_ite (fun _ => Act.admitted_done _) fun _ => Act.admitted_notEnabled)) r
  | sinkReady => exact perform_ne_refused hm (Act.admitted_done _) r
  | hsRequest k =>
    exact perform_ne_refused hm (Act.admitted_ite (fun _ => Act.admitted_done _) fun _ => Act.admitted_done _) r
  | _ => cases hagent

end Sys2Proof.Machine
end
